-- ==== Sys2Proof/Word.lean ====
section
/-! DEFINITION. The word types of the unit: the 32-bit window word and the wide registers. -/

namespace Sys2Proof

/-- One word of the register window, and of a command (20_memory.md R72, 30_encoding.md R100). -/
abbrev Word := BitVec 32

/-- A part of a value register, `INT` or `FRAC` (10_state.md R31). -/
abbrev Word128 := BitVec 128

/-- `KB` and `KR` (10_state.md R40). -/
abbrev Word256 := BitVec 256

/-- `KA` and `KQ` (10_state.md R40). -/
abbrev Word512 := BitVec 512

end Sys2Proof
end

