-- ==== Sys2Proof/Config.lean ====
section
/-! DEFINITION. The tiers, their parameters, the platform's parameter and the free values (draws). -/

namespace Sys2Proof

/-- The four precision tiers (00_scope.md R8, 30_encoding.md R101). -/
inductive Tier where
  | tiny
  | small
  | standard
  | wide
  deriving DecidableEq, Repr

namespace Config

/-- W, the word width in bits (00_scope.md R8). -/
def width : Tier → Nat
  | .tiny => 8
  | .small => 32
  | .standard => 64
  | .wide => 128

/-- M, the max scale (00_scope.md R8, R9). -/
def maxScale : Tier → Nat
  | .tiny => 2
  | .small => 9
  | .standard => 19
  | .wide => 38

/-- T, the parameter `TARGET_SCALE` (00_scope.md R10, 92_eei_decisions.md D5): a scale of each tier, at most its M, so
that DIV's results are valid. The model takes it as an argument: the cores have it as `T`, and a machine carries it in
its state (log 5). -/
structure TargetScales where
  tiny : Fin 3
  small : Fin 10
  standard : Fin 20
  wide : Fin 39
  deriving DecidableEq, Repr

/-- T(t), the scale DIV produces and MUL truncates to (00_scope.md R10). -/
def TargetScales.of (T : TargetScales) : Tier → Nat
  | .tiny => T.tiny
  | .small => T.small
  | .standard => T.standard
  | .wide => T.wide

/-- T = M, the other reading of the source's words (90_conflicts.md C1). No rule takes it; statements and tests may. -/
def maxTargetScales : TargetScales := { tiny := 2, small := 9, standard := 19, wide := 38 }

/-- D, `SQRT_DIGITS` (00_scope.md R11). -/
def sqrtDigits : Tier → Nat
  | .tiny => 1
  | .small => 8
  | .standard => 18
  | .wide => 37

/-- What `ID` reads (10_state.md R46). -/
def idWord : Word := 0x414E4344

/-- The size of the register window in bytes (20_memory.md R70). -/
def windowSize : Nat := 0x200

/-- `WINDOW_BASE` in words: the platform's choice, no value here (20_memory.md R71; log 6). -/
opaque windowBaseWord : Nat

/-- `WINDOW_BASE`, the window's first byte address: an aligned address (DEDUCED from R74; log 6). -/
def windowBase : Nat := 4 * windowBaseWord

/-- The draw `ZSIGN` (00_scope.md R13, 41_arith.md R183): the sign of the `k`-th drawn zero. A free value (log 1). -/
opaque zsign : Nat → Bool

/-- What `SQRT0_SCALE` is drawn from (log 2). -/
opaque sqrt0Draw : Nat → Nat

/-- The draw `SQRT0_SCALE`, in 0..M (00_scope.md R13, 41_arith.md R195). A free value within that range (log 2). -/
def sqrt0Scale (t : Tier) (k : Nat) : Nat := sqrt0Draw k % (maxScale t + 1)

/-- The draw `LATENCY` (00_scope.md R13, 70_reset_and_hazards.md R352): how many host steps pass before the
command completes. A free value (log 3). -/
opaque latency : Nat → Nat

end Config
end Sys2Proof
end

