-- ==== Sys2Proof/Syntax.lean ====
section
/-! DEFINITION. The commands: one constructor for each row of spec/opcode_table.json. -/

namespace Sys2Proof

/-- The rounding modes, in the order of the `MODE` codes 0 to 6 (30_encoding.md R103). -/
inductive RoundMode where
  | floor
  | ceiling
  | truncate
  | halfUp
  | halfDown
  | halfEven
  | fract
  deriving DecidableEq, Repr

/-- A command. `t` is its tier and `c` the checked bit C, present where 30_encoding.md R104 allows it. MULQ and
DIVQ exist at the wide tier only (R106 (5)); ISQRT ignores its TIER bits but the word has them (40_kernel.md R164),
so the constructor keeps them (log 19). -/
inductive Instr where
  | add (t : Tier) (c : Bool)
  | sub (t : Tier) (c : Bool)
  | mul (t : Tier) (c : Bool)
  | pow (t : Tier) (c : Bool)
  | div (t : Tier)
  | rem (t : Tier)
  | sqrt (t : Tier)
  | roundFloor (t : Tier) (c : Bool)
  | roundCeil (t : Tier) (c : Bool)
  | roundTrunc (t : Tier) (c : Bool)
  | roundHalfUp (t : Tier) (c : Bool)
  | roundHalfDown (t : Tier) (c : Bool)
  | roundHalfEven (t : Tier) (c : Bool)
  | roundFract (t : Tier) (c : Bool)
  | cmp (t : Tier)
  | canon (t : Tier)
  | mulw (t : Tier)
  | mulq
  | divw (t : Tier)
  | divq
  | isqrt (ignored : Tier)
  deriving DecidableEq, Repr

end Sys2Proof
end

