-- ==== Sys2Proof/WellFormed.lean ====
section
/-! DEFINITION. The fields of a command word and their legality (30_encoding.md R100, R106), one check a condition. -/

namespace Sys2Proof

/-- The five fields of the one command format (30_encoding.md R100). -/
structure CmdFields where
  op : BitVec 6
  tier : BitVec 2
  mode : BitVec 3
  c : Bool
  reserved : BitVec 20
  deriving DecidableEq, Repr

namespace CmdFields

/-- The operation codes that are not reserved (30_encoding.md R102). -/
def definedOps : List (BitVec 6) :=
  [0x01, 0x02, 0x03, 0x04, 0x05, 0x06, 0x07, 0x08, 0x09, 0x0A, 0x10, 0x11, 0x12, 0x13, 0x14]

/-- R106 (1): bits 31:12 are zero. -/
def reservedOk (f : CmdFields) : Bool := f.reserved == 0

/-- R106 (2): the operation code is not reserved. -/
def opOk (f : CmdFields) : Bool := definedOps.contains f.op

/-- R106 (3): MODE is 0 to 6 on ROUND and 0 elsewhere. -/
def modeOk (f : CmdFields) : Bool := if f.op = 0x08 then f.mode.toNat ≤ 6 else f.mode = 0

/-- R106 (4): C is 0 unless the operation is ADD, SUB, MUL, POW or ROUND. -/
def checkedOk (f : CmdFields) : Bool := !f.c || [0x01, 0x02, 0x03, 0x06, 0x08].contains f.op

/-- R106 (5): TIER is 3 on MULQ and DIVQ. -/
def tierOk (f : CmdFields) : Bool := !([0x11, 0x13].contains f.op) || f.tier == 3

/-- Legality of a command word's fields (30_encoding.md R106). -/
def legal (f : CmdFields) : Bool := f.reservedOk && f.opOk && f.modeOk && f.checkedOk && f.tierOk

end CmdFields
end Sys2Proof
end

