-- ==== Sys2Proof/Decode.lean ====
section
/-! DEFINITION. Command words: fields, decoder, encoder, the opcode table, and the assembler's names. -/

namespace Sys2Proof

/-- The fields of a command word (30_encoding.md R100). -/
def fieldsOf (w : Word) : CmdFields :=
  { op := w.extractLsb' 0 6, tier := w.extractLsb' 6 2, mode := w.extractLsb' 8 3,
    c := w.getLsbD 11, reserved := w.extractLsb' 12 20 }

/-- The word of given fields, `OP | TIER << 6 | MODE << 8 | C << 11` with the reserved bits above (30_encoding.md R100). -/
def wordOf (f : CmdFields) : Word :=
  f.op.setWidth 32 ||| f.tier.setWidth 32 <<< 6 ||| f.mode.setWidth 32 <<< 8 |||
    (BitVec.ofBool f.c).setWidth 32 <<< 11 ||| f.reserved.setWidth 32 <<< 12

/-- Legality of a command word (30_encoding.md R106). -/
def legal (w : Word) : Bool := (fieldsOf w).legal

/-- The tier a TIER code selects (30_encoding.md R101). -/
def tierOf (b : BitVec 2) : Tier :=
  match b.toNat with
  | 0 => .tiny
  | 1 => .small
  | 2 => .standard
  | _ => .wide

/-- The TIER code of a tier (30_encoding.md R101). -/
def tierCode : Tier → BitVec 2
  | .tiny => 0
  | .small => 1
  | .standard => 2
  | .wide => 3

/-- Why a word is no command; each is ILLEGAL_COMMAND at completion (60_exceptions.md R302). -/
inductive DecodeError where
  | reservedBits
  | reservedOp
  | reservedMode
  | modeNotZero
  | checkedNotAllowed
  | tierNotWide
  deriving DecidableEq, Repr

/-- A command that takes both TIER and C: MODE must be 0. -/
def decodeChecked (f : CmdFields) (mk : Tier → Bool → Instr) : Except DecodeError Instr :=
  if f.mode = 0 then .ok (mk (tierOf f.tier) f.c) else .error .modeNotZero

/-- A command that takes TIER alone: MODE and C must be 0. -/
def decodeUnchecked (f : CmdFields) (mk : Tier → Instr) : Except DecodeError Instr :=
  if f.mode ≠ 0 then .error .modeNotZero
  else if f.c then .error .checkedNotAllowed
  else .ok (mk (tierOf f.tier))

/-- A command of the wide tier only: MODE and C must be 0 and TIER must be 3. -/
def decodeWideOnly (f : CmdFields) (i : Instr) : Except DecodeError Instr :=
  if f.mode ≠ 0 then .error .modeNotZero
  else if f.c then .error .checkedNotAllowed
  else if f.tier ≠ 3 then .error .tierNotWide
  else .ok i

/-- The ROUND command of a MODE code; code 7 is reserved (30_encoding.md R103). -/
def decodeRound (f : CmdFields) : Except DecodeError Instr :=
  match f.mode.toNat with
  | 0 => .ok (.roundFloor (tierOf f.tier) f.c)
  | 1 => .ok (.roundCeil (tierOf f.tier) f.c)
  | 2 => .ok (.roundTrunc (tierOf f.tier) f.c)
  | 3 => .ok (.roundHalfUp (tierOf f.tier) f.c)
  | 4 => .ok (.roundHalfDown (tierOf f.tier) f.c)
  | 5 => .ok (.roundHalfEven (tierOf f.tier) f.c)
  | 6 => .ok (.roundFract (tierOf f.tier) f.c)
  | _ => .error .reservedMode

/-- The command of a word's fields, by operation code (30_encoding.md R102). -/
def decodeFields (f : CmdFields) : Except DecodeError Instr :=
  if f.reserved ≠ 0 then .error .reservedBits
  else
    match f.op.toNat with
    | 0x01 => decodeChecked f .add
    | 0x02 => decodeChecked f .sub
    | 0x03 => decodeChecked f .mul
    | 0x04 => decodeUnchecked f .div
    | 0x05 => decodeUnchecked f .rem
    | 0x06 => decodeChecked f .pow
    | 0x07 => decodeUnchecked f .sqrt
    | 0x08 => decodeRound f
    | 0x09 => decodeUnchecked f .cmp
    | 0x0A => decodeUnchecked f .canon
    | 0x10 => decodeUnchecked f .mulw
    | 0x11 => decodeWideOnly f .mulq
    | 0x12 => decodeUnchecked f .divw
    | 0x13 => decodeWideOnly f .divq
    | 0x14 => decodeUnchecked f .isqrt
    | _ => .error .reservedOp

/-- The decoder: total on command words, refusing every illegal one by name (30_encoding.md R106, R107). -/
def decode (w : Word) : Except DecodeError Instr := decodeFields (fieldsOf w)

/-- Fields of a command with TIER `t`, checked bit `c` and MODE `m`; reserved bits zero. -/
def cmdFields (op : BitVec 6) (t : Tier) (m : BitVec 3) (c : Bool) : CmdFields :=
  { op := op, tier := tierCode t, mode := m, c := c, reserved := 0 }

/-- The fields of a command, from the table of 30_encoding.md R102 and R103. -/
def fieldsOfInstr : Instr → CmdFields
  | .add t c => cmdFields 0x01 t 0 c
  | .sub t c => cmdFields 0x02 t 0 c
  | .mul t c => cmdFields 0x03 t 0 c
  | .div t => cmdFields 0x04 t 0 false
  | .rem t => cmdFields 0x05 t 0 false
  | .pow t c => cmdFields 0x06 t 0 c
  | .sqrt t => cmdFields 0x07 t 0 false
  | .roundFloor t c => cmdFields 0x08 t 0 c
  | .roundCeil t c => cmdFields 0x08 t 1 c
  | .roundTrunc t c => cmdFields 0x08 t 2 c
  | .roundHalfUp t c => cmdFields 0x08 t 3 c
  | .roundHalfDown t c => cmdFields 0x08 t 4 c
  | .roundHalfEven t c => cmdFields 0x08 t 5 c
  | .roundFract t c => cmdFields 0x08 t 6 c
  | .cmp t => cmdFields 0x09 t 0 false
  | .canon t => cmdFields 0x0A t 0 false
  | .mulw t => cmdFields 0x10 t 0 false
  | .mulq => cmdFields 0x11 .wide 0 false
  | .divw t => cmdFields 0x12 t 0 false
  | .divq => cmdFields 0x13 .wide 0 false
  | .isqrt t => cmdFields 0x14 t 0 false

/-- The encoder: the one word of a command (30_encoding.md R100, R102, R103). -/
def encode (i : Instr) : Word := wordOf (fieldsOfInstr i)

/-- The command in a table word. A command is one 32-bit word; a shorter `nbits` leaves the bits above it zero. -/
def decodeTableWord (nbits w : Nat) : Option Instr :=
  if nbits ≤ 32 then
    match decode (BitVec.ofNat 32 (w % 2 ^ nbits)) with
    | .ok i => some i
    | .error _ => none
  else none

/-- One row of spec/opcode_table.json. -/
structure OpcodeRow where
  mnemonic : String
  pattern : Word
  mask : Word
  deriving DecidableEq, Repr

/-- Does a word match a row: its fixed bits are the row's. -/
def OpcodeRow.matchesWord (r : OpcodeRow) (w : Word) : Bool := w &&& r.mask == r.pattern

/-- The table of the arithmetic commands (spec/opcode_table.json). -/
def arithRows : List OpcodeRow :=
  [⟨"ADD", 0x00000001, 0xFFFFF73F⟩, ⟨"SUB", 0x00000002, 0xFFFFF73F⟩, ⟨"MUL", 0x00000003, 0xFFFFF73F⟩,
   ⟨"POW", 0x00000006, 0xFFFFF73F⟩, ⟨"DIV", 0x00000004, 0xFFFFFF3F⟩, ⟨"REM", 0x00000005, 0xFFFFFF3F⟩,
   ⟨"SQRT", 0x00000007, 0xFFFFFF3F⟩]

/-- The table of the ROUND commands (spec/opcode_table.json). -/
def roundRows : List OpcodeRow :=
  [⟨"ROUND.FLOOR", 0x00000008, 0xFFFFF73F⟩, ⟨"ROUND.CEIL", 0x00000108, 0xFFFFF73F⟩,
   ⟨"ROUND.TRUNC", 0x00000208, 0xFFFFF73F⟩, ⟨"ROUND.HALFUP", 0x00000308, 0xFFFFF73F⟩,
   ⟨"ROUND.HALFDOWN", 0x00000408, 0xFFFFF73F⟩, ⟨"ROUND.HALFEVEN", 0x00000508, 0xFFFFF73F⟩,
   ⟨"ROUND.FRACT", 0x00000608, 0xFFFFF73F⟩]

/-- The table of the comparison and kernel commands (spec/opcode_table.json). -/
def otherRows : List OpcodeRow :=
  [⟨"CMP", 0x00000009, 0xFFFFFF3F⟩, ⟨"CANON", 0x0000000A, 0xFFFFFF3F⟩, ⟨"MULW", 0x00000010, 0xFFFFFF3F⟩,
   ⟨"MULQ", 0x000000D1, 0xFFFFFFFF⟩, ⟨"DIVW", 0x00000012, 0xFFFFFF3F⟩, ⟨"DIVQ", 0x000000D3, 0xFFFFFFFF⟩,
   ⟨"ISQRT", 0x00000014, 0xFFFFFF3F⟩]

/-- spec/opcode_table.json, 21 rows. -/
def opcodeTable : List OpcodeRow := arithRows ++ roundRows ++ otherRows

/-- A command's mnemonic in spec/opcode_table.json. -/
def mnemonicOf : Instr → String
  | .add _ _ => "ADD"
  | .sub _ _ => "SUB"
  | .mul _ _ => "MUL"
  | .pow _ _ => "POW"
  | .div _ => "DIV"
  | .rem _ => "REM"
  | .sqrt _ => "SQRT"
  | .roundFloor _ _ => "ROUND.FLOOR"
  | .roundCeil _ _ => "ROUND.CEIL"
  | .roundTrunc _ _ => "ROUND.TRUNC"
  | .roundHalfUp _ _ => "ROUND.HALFUP"
  | .roundHalfDown _ _ => "ROUND.HALFDOWN"
  | .roundHalfEven _ _ => "ROUND.HALFEVEN"
  | .roundFract _ _ => "ROUND.FRACT"
  | .cmp _ => "CMP"
  | .canon _ => "CANON"
  | .mulw _ => "MULW"
  | .mulq => "MULQ"
  | .divw _ => "DIVW"
  | .divq => "DIVQ"
  | .isqrt _ => "ISQRT"

/-- A tier's suffix in the assembler's syntax (30_encoding.md R110). -/
def tierSuffix : Tier → String
  | .tiny => "t8"
  | .small => "t32"
  | .standard => "t64"
  | .wide => "t128"

/-- The parts after the operation: `.c` for the checked form, then the tier (30_encoding.md R110). -/
def suffixes (t : Tier) (c : Bool) : List String := if c then ["c", tierSuffix t] else [tierSuffix t]

/-- A command in the assembler's syntax `<op>[.<mode>][.c].<tier>`, as the parts the dots separate (30_encoding.md
R110). ISQRT takes no tier suffix. -/
def asmParts : Instr → List String
  | .add t c => "add" :: suffixes t c
  | .sub t c => "sub" :: suffixes t c
  | .mul t c => "mul" :: suffixes t c
  | .pow t c => "pow" :: suffixes t c
  | .div t => ["div", tierSuffix t]
  | .rem t => ["rem", tierSuffix t]
  | .sqrt t => ["sqrt", tierSuffix t]
  | .roundFloor t c => "round" :: "floor" :: suffixes t c
  | .roundCeil t c => "round" :: "ceil" :: suffixes t c
  | .roundTrunc t c => "round" :: "trunc" :: suffixes t c
  | .roundHalfUp t c => "round" :: "halfup" :: suffixes t c
  | .roundHalfDown t c => "round" :: "halfdown" :: suffixes t c
  | .roundHalfEven t c => "round" :: "halfeven" :: suffixes t c
  | .roundFract t c => "round" :: "fract" :: suffixes t c
  | .cmp t => ["cmp", tierSuffix t]
  | .canon t => ["canon", tierSuffix t]
  | .mulw t => ["mulw", tierSuffix t]
  | .mulq => ["mulq", "t128"]
  | .divw t => ["divw", tierSuffix t]
  | .divq => ["divq", "t128"]
  | .isqrt _ => ["isqrt"]

/-- The four tiers, narrowest first. -/
def allTiers : List Tier := [.tiny, .small, .standard, .wide]

/-- Every command, ISQRT with TIER = 0 first among its words (30_encoding.md R110). -/
def allInstrs : List Instr :=
  (allTiers.flatMap fun t => [false, true].flatMap fun c =>
    [.add t c, .sub t c, .mul t c, .pow t c, .roundFloor t c, .roundCeil t c, .roundTrunc t c,
     .roundHalfUp t c, .roundHalfDown t c, .roundHalfEven t c, .roundFract t c]) ++
  (allTiers.flatMap fun t => [.div t, .rem t, .sqrt t, .cmp t, .canon t, .mulw t, .divw t, .isqrt t]) ++
  [.mulq, .divq]

/-- The assembler (30_encoding.md R110): the command the parts name, if they name one. -/
def assemble (parts : List String) : Option Instr := allInstrs.find? fun i => asmParts i == parts

end Sys2Proof
end

