-- ==== Sys2Proof/Machine/Parameters.lean ====
section
/-! DEFINITION. The value the spec sets its parameter `TARGET_SCALE` to. -/

namespace Sys2Proof.Machine

/-- `TARGET_SCALE` as this spec sets it (00_scope.md R8, R10; 90_conflicts.md C1; log 5). -/
def targetScales : Config.TargetScales := { tiny := 1, small := 8, standard := 18, wide := 37 }

end Sys2Proof.Machine
end

