-- ==== Sys2Proof/Machine/State.lean ====
section
/-! DEFINITION. The machine's state as plain data, its value at reset, and the two ways the model stops. -/

namespace Sys2Proof.Machine

/-- A value register (10_state.md R31). -/
structure DecReg where
  int : Word128
  frac : Word128
  scale : BitVec 8
  sign : Bool
  deriving DecidableEq, Repr

/-- Positive zero at scale 0, a value register's reset value (10_state.md R55). -/
def DecReg.zero : DecReg := { int := 0, frac := 0, scale := 0, sign := false }

/-- Why the unit is in its fault state: the codes 0 to 6 of 60_exceptions.md R301. The reserved codes 7 to 15 have
no constructor, since no rule raises one (log 16). -/
inductive Cause where
  | none
  | illegalCommand
  | invalidOperand
  | overflow
  | divByZero
  | negativeSqrt
  | quotientOverflow
  deriving DecidableEq, Repr

/-- The field `STATUS.CMP` (10_state.md R44). -/
inductive CmpField where
  | none
  | less
  | equal
  | greater
  deriving DecidableEq, Repr

/-- `STATUS` (10_state.md R44). The host cannot write it, so its reserved bits hold nothing. -/
structure Status where
  busy : Bool
  done : Bool
  absent : Bool
  fault : Bool
  cause : Cause
  cmp : CmpField
  dropped : Bool
  deriving DecidableEq, Repr

/-- `STATUS` at reset: all fields 0 (10_state.md R55). -/
def Status.zero : Status :=
  { busy := false, done := false, absent := false, fault := false, cause := .none, cmp := .none, dropped := false }

/-- The command latch `L` (10_state.md R50). -/
structure Latch where
  cmd : Word
  a : DecReg
  b : DecReg
  arg : Word
  ka : Word512
  kb : Word256
  deriving DecidableEq, Repr

/-- The latch at reset: all fields 0 (10_state.md R55). -/
def Latch.zero : Latch := { cmd := 0, a := .zero, b := .zero, arg := 0, ka := 0, kb := 0 }

/-- What a host write sends: a constant, or a temporary it has read (30_encoding.md R112). -/
inductive HostSource where
  | imm (v : Word)
  | temp (t : Fin 8)
  deriving DecidableEq, Repr

/-- One move of the host's program (30_encoding.md R112; log 7). `addr` is a byte address of the host's address
space and `size` the bytes the access asks for. -/
inductive HostOp where
  /-- `rd t, reg`: read a word into a temporary. -/
  | rd (t : Fin 8) (addr size : Nat)
  /-- `wr reg, v`: write a word. -/
  | wr (addr size : Nat) (v : HostSource)
  /-- `if t.FIELD = value goto target`, the field named by its mask. -/
  | ifGoto (t : Fin 8) (mask value : Word) (target : Nat)
  deriving DecidableEq, Repr

/-- The state. `opa` to `pending` are the spec's (10_state.md R30); `latency` and `draws` carry the spec's draws,
and `prog`, `hostPc` and `temps` are the HOST (00_scope.md R14), all five the model's own fields (log 3, 4, 7, 20).
`target` is the machine's parameter, which no step changes (log 5).
`CTRL` and `ID` hold no bit and stand in no field (log 10). -/
structure State where
  opa : DecReg
  opb : DecReg
  res : DecReg
  arg : Word
  ka : Word512
  kb : Word256
  kq : Word512
  kr : Word256
  cmd : Word
  status : Status
  latch : Latch
  pending : Bool
  /-- Host moves still to pass before the pending command completes. -/
  latency : Nat
  /-- How many draws have been taken: the index of the next one. -/
  draws : Nat
  prog : List HostOp
  hostPc : Nat
  temps : Vector Word 8
  /-- `TARGET_SCALE` (00_scope.md R10), the model's configuration argument. -/
  target : Config.TargetScales
  deriving DecidableEq, Repr

/-- Reset (10_state.md R55, 70_reset_and_hazards.md R340): every register zero, nothing pending. The model's own
fields are empty or zero, and no program is loaded (log 8, log 20). `TARGET_SCALE` has the spec's value (log 5). -/
def State.reset : State :=
  { opa := .zero, opb := .zero, res := .zero, arg := 0, ka := 0, kb := 0, kq := 0, kr := 0,
    cmd := 0, status := .zero, latch := .zero, pending := false,
    latency := 0, draws := 0, prog := [], hostPc := 0, temps := Vector.replicate 8 0, target := targetScales }

/-- How the model stops. The unit's own faults are not here: they are next states (60_exceptions.md R310). -/
inductive Fault where
  /-- Raised by `step` when the host's program has ended and no command is pending: the run has ended
  (70_reset_and_hazards.md R359; log 12). Safe: the unit would only stay as it is. -/
  | runEnded
  deriving DecidableEq, Repr

/-- What the model gives no meaning to. -/
inductive Refusal where
  /-- Raised by `exec` alone, for a command with no meaning yet. Safe. -/
  | notModelled (mnemonic : String)
  /-- Raised by a host access that is not 32 bits wide (20_memory.md R74; log 11). Safe. -/
  | accessNotWord
  /-- Raised by a host access outside the window (20_memory.md R74, 70_reset_and_hazards.md R358; log 11). Safe. -/
  | accessOutsideWindow
  /-- Raised by a misaligned host access (20_memory.md R74; log 11). Safe. -/
  | accessMisaligned
  deriving DecidableEq, Repr

/-- What a step answers. -/
abbrev Result := Host.Outcome State Fault Refusal

end Sys2Proof.Machine
end

