-- ==== Sys2Proof/Machine/Flags.lean ====
section
/-! DEFINITION. STATUS: its word as the host reads it, and every way it changes (10_state.md R44; log 18). -/

namespace Sys2Proof.Machine

/-- The numbers of the causes (60_exceptions.md R301). -/
def Cause.code : Cause → BitVec 4
  | .none => 0
  | .illegalCommand => 1
  | .invalidOperand => 2
  | .overflow => 3
  | .divByZero => 4
  | .negativeSqrt => 5
  | .quotientOverflow => 6

/-- The codes of `STATUS.CMP` (10_state.md R44). -/
def CmpField.code : CmpField → BitVec 2
  | .none => 0
  | .less => 1
  | .equal => 2
  | .greater => 3

/-- The comparison's result as `STATUS.CMP` shows it (42_compare.md R241). -/
def cmpFieldOf : Ordering → CmpField
  | .lt => .less
  | .eq => .equal
  | .gt => .greater

/-- One flag as a word, at bit `k`. -/
def flagBit (b : Bool) (k : Nat) : Word := (BitVec.ofBool b).setWidth 32 <<< k

/-- `STATUS` as the host reads it (10_state.md R44). -/
def Status.word (s : Status) : Word :=
  flagBit s.busy 0 ||| flagBit s.done 1 ||| flagBit s.absent 2 ||| flagBit s.fault 3 |||
    s.cause.code.setWidth 32 <<< 4 ||| s.cmp.code.setWidth 32 <<< 8 ||| flagBit s.dropped 10

/-- After an accepted issue (70_reset_and_hazards.md R345). FAULT and CAUSE stay. -/
def Status.issued (s : Status) : Status :=
  { s with busy := true, done := false, absent := false, cmp := .none, dropped := false }

/-- After a dropped issue (70_reset_and_hazards.md R345). -/
def Status.drop (s : Status) : Status := { s with dropped := true }

/-- After a normal completion (70_reset_and_hazards.md R350). -/
def Status.completed (s : Status) : Status := { s with busy := false, done := true }

/-- After a normal completion of CMP (42_compare.md R241). -/
def Status.compared (s : Status) (o : Ordering) : Status := { s.completed with cmp := cmpFieldOf o }

/-- After an absent result (60_exceptions.md R315). -/
def Status.absented (s : Status) : Status := { s with busy := false, done := true, absent := true }

/-- After a fault (60_exceptions.md R310). CMP and DROPPED stay. -/
def Status.faulted (s : Status) (c : Cause) : Status :=
  { s with busy := false, done := false, absent := false, fault := true, cause := c }

end Sys2Proof.Machine
end

