-- ==== Sys2Proof/Machine/Decimal.lean ====
section
/-! DEFINITION. Decimal values as exact numbers, and how a result is built, aligned and carried (00_scope.md R19,
41_arith.md R181 to R184). -/

namespace Sys2Proof.Machine

/-- A decimal value ⟨I, F, s, n⟩ (00_scope.md R19). -/
structure Dec where
  int : Nat
  frac : Nat
  scale : Nat
  neg : Bool
  deriving DecidableEq, Repr

/-- The combined value `I × 10^s + F` (00_scope.md R19). -/
def Dec.comb (x : Dec) : Nat := x.int * 10 ^ x.scale + x.frac

/-- Is the magnitude zero, whatever the sign bit (00_scope.md R19). -/
def Dec.isZero (x : Dec) : Bool := x.comb == 0

/-- The value with its sign bit flipped (00_scope.md R19). -/
def Dec.negate (x : Dec) : Dec := { x with neg := !x.neg }

/-- The constant one of POW, at scale 0 (41_arith.md R194). -/
def Dec.one : Dec := { int := 1, frac := 0, scale := 0, neg := false }

/-- What a core computes: a value with the index of the next draw, `OVF`, or a raised fault (41_arith.md R181,
R182). A core that raises or overflows takes no draw (log 4). -/
inductive Computed where
  | value (v : Dec) (draws : Nat)
  | ovf
  | raise (c : Cause)
  deriving DecidableEq, Repr

/-- Goes on with a value; `OVF` and a fault end the computation (00_scope.md R18). -/
def Computed.bind (r : Computed) (f : Dec → Nat → Computed) : Computed :=
  match r with
  | .value v k => f v k
  | .ovf => .ovf
  | .raise c => .raise c

/-- `Mk(t, Q, s, n)` (41_arith.md R181): splits Q at scale s, answers `OVF` when the integer part needs more than W
bits, and draws the sign of a zero (R183). `k` is the index of the next draw. -/
def mkDec (t : Tier) (q s : Nat) (n : Bool) (k : Nat) : Computed :=
  if 2 ^ Config.width t ≤ q / 10 ^ s then .ovf
  else if q = 0 then .value { int := 0, frac := 0, scale := s, neg := Config.zsign k } (k + 1)
  else .value { int := q / 10 ^ s, frac := q % 10 ^ s, scale := s, neg := n } k

/-- The larger scale, to which both operands are aligned (41_arith.md R184). -/
def alignScale (a b : Dec) : Nat := max a.scale b.scale

/-- The limit of the aligned fractions, `10^s` (41_arith.md R184). -/
def alignLimit (a b : Dec) : Nat := 10 ^ alignScale a b

/-- The fraction of `x` at the larger scale `s` (41_arith.md R184). -/
def alignFrac (x : Dec) (s : Nat) : Nat := x.frac * 10 ^ (s - x.scale)

/-- The aligned combined value of `x` at the larger scale `s` (41_arith.md R184). -/
def alignComb (x : Dec) (s : Nat) : Nat := x.int * 10 ^ s + alignFrac x s

end Sys2Proof.Machine
end

