-- ==== Sys2Proof/Machine/Operands.lean ====
section
/-! DEFINITION. Operands: value registers as values, their validity, and what a command reads from the latch. -/

namespace Sys2Proof.Machine

/-- The value a register holds (10_state.md R31). -/
def DecReg.toDec (r : DecReg) : Dec :=
  { int := r.int.toNat, frac := r.frac.toNat, scale := r.scale.toNat, neg := r.sign }

/-- The register that holds a value (10_state.md R31). A valid value loses no bit. -/
def Dec.toReg (v : Dec) : DecReg :=
  { int := BitVec.ofNat 128 v.int, frac := BitVec.ofNat 128 v.frac, scale := BitVec.ofNat 8 v.scale, sign := v.neg }

/-- Validity of a value at a tier, the four conditions of 10_state.md R32. -/
def Dec.valid (t : Tier) (x : Dec) : Bool :=
  x.int < 2 ^ Config.width t && x.frac < 2 ^ Config.width t && x.scale ≤ Config.maxScale t && x.frac < 10 ^ x.scale

/-- Validity of a value register at a tier (10_state.md R32). -/
def DecReg.valid (t : Tier) (r : DecReg) : Bool := r.toDec.valid t

/-- `META` as the host reads it (10_state.md R31). -/
def DecReg.meta (r : DecReg) : Word := r.scale.setWidth 32 ||| (BitVec.ofBool r.sign).setWidth 32 <<< 8

/-- `META` as the host writes it; bits 31:9 are ignored (10_state.md R31). -/
def DecReg.setMeta (r : DecReg) (v : Word) : DecReg := { r with scale := v.extractLsb' 0 8, sign := v.getLsbD 8 }

/-- `L.ARG` as POW's signed exponent (30_encoding.md R108). -/
def exponent (s : State) : Int := s.latch.arg.toInt

/-- `L.ARG` as ROUND's unsigned places (30_encoding.md R108). -/
def places (s : State) : Nat := s.latch.arg.toNat

/-- Bits `n − 1 : 0` of `L.KA` (40_kernel.md R160 to R164). -/
def kernelA (s : State) (n : Nat) : Nat := s.latch.ka.toNat % 2 ^ n

/-- Bits `n − 1 : 0` of `L.KB` (40_kernel.md R160 to R163). -/
def kernelB (s : State) (n : Nat) : Nat := s.latch.kb.toNat % 2 ^ n

end Sys2Proof.Machine
end

