-- ==== Sys2Proof/Machine/Ops.lean ====
section
/-! DEFINITION. The named operations over the state: taking a fault, reset, delivering results, the register window,
issue, and one move of the host. -/

namespace Sys2Proof.Machine

/-! ### Faults, and the only way back -/

/-- `raise Fault(c)` (60_exceptions.md R310): the unit enters its fault state and writes nothing else. The one
operation by which every command takes a fault; no pc and no status are saved (R323). -/
def State.raiseFault (s : State) (c : Cause) : State := { s with status := s.status.faulted c, pending := false }

/-- Reset by the host's write to CTRL (70_reset_and_hazards.md R340): every register of the unit takes its reset
value and a pending command is abandoned. The only way out of the fault state (60_exceptions.md R324). The host
and the count of draws are not the unit's and stay (log 4, log 20), and a machine keeps its parameter (log 5). -/
def State.resetUnit (s : State) : State :=
  { State.reset with draws := s.draws, prog := s.prog, hostPc := s.hostPc, temps := s.temps,
                     target := s.target }

/-! ### Completion -/

/-- The absent outcome (60_exceptions.md R315). -/
def State.absent (s : State) : State := { s with status := s.status.absented, pending := false }

/-- A value command's normal end: `RES` takes the whole value (10_state.md R34, 70_reset_and_hazards.md R350). -/
def State.completeValue (s : State) (v : Dec) (k : Nat) : State :=
  { s with res := v.toReg, draws := k, status := s.status.completed, pending := false }

/-- CMP's normal end (42_compare.md R241). -/
def State.completeCmp (s : State) (o : Ordering) : State :=
  { s with status := s.status.compared o, pending := false }

/-- The normal end of a kernel command that writes `KQ` alone (10_state.md R42). -/
def State.completeKq (s : State) (q : Nat) : State :=
  { s with kq := BitVec.ofNat 512 q, status := s.status.completed, pending := false }

/-- The normal end of a kernel command that writes `KQ` and `KR` (10_state.md R42). -/
def State.completeKqKr (s : State) (q r : Nat) : State :=
  { s with kq := BitVec.ofNat 512 q, kr := BitVec.ofNat 256 r, status := s.status.completed, pending := false }

/-- `Deliver(r, C, cause)` (41_arith.md R182). -/
def deliver (r : Computed) (c : Bool) (cause : Cause) (s : State) : Result :=
  match r with
  | .value v k => .next (s.completeValue v k)
  | .ovf => if c then .next s.absent else .next (s.raiseFault cause)
  | .raise e => .next (s.raiseFault e)

/-- Reads and checks the operand `a` (41_arith.md R180, 60_exceptions.md R303). -/
def withOperandA (t : Tier) (s : State) (f : Dec → Result) : Result :=
  if s.latch.a.valid t then f s.latch.a.toDec else .next (s.raiseFault .invalidOperand)

/-- Reads and checks the operands `a` and then `b` (41_arith.md R180, 60_exceptions.md R303). -/
def withOperands (t : Tier) (s : State) (f : Dec → Dec → Result) : Result :=
  withOperandA t s fun a =>
    if s.latch.b.valid t then f a s.latch.b.toDec else .next (s.raiseFault .invalidOperand)

/-! ### The register window -/

/-- What stands at an offset of the window; `k` is a word of a longer field (20_memory.md R72). -/
inductive Slot where
  | id
  | ctrl
  | status
  | cmd
  | arg
  | opaInt (k : Nat)
  | opaFrac (k : Nat)
  | opaMeta
  | opbInt (k : Nat)
  | opbFrac (k : Nat)
  | opbMeta
  | resInt (k : Nat)
  | resFrac (k : Nat)
  | resMeta
  | ka (k : Nat)
  | kb (k : Nat)
  | kq (k : Nat)
  | kr (k : Nat)
  | unmapped
  deriving DecidableEq, Repr

/-- The register map of 20_memory.md R72, by the word index `offset / 4`. -/
def slotOfWord (i : Nat) : Slot :=
  if i < 0x010 then
    match i with
    | 0 => .id
    | 1 => .ctrl
    | 2 => .status
    | 3 => .cmd
    | 4 => .arg
    | _ => .unmapped
  else if i < 0x014 then .opaInt (i - 0x010)
  else if i < 0x018 then .opaFrac (i - 0x014)
  else if i = 0x018 then .opaMeta
  else if i < 0x020 then .unmapped
  else if i < 0x024 then .opbInt (i - 0x020)
  else if i < 0x028 then .opbFrac (i - 0x024)
  else if i = 0x028 then .opbMeta
  else if i < 0x030 then .unmapped
  else if i < 0x034 then .resInt (i - 0x030)
  else if i < 0x038 then .resFrac (i - 0x034)
  else if i = 0x038 then .resMeta
  else if i < 0x040 then .unmapped
  else if i < 0x050 then .ka (i - 0x040)
  else if i < 0x058 then .kb (i - 0x050)
  else if i < 0x060 then .unmapped
  else if i < 0x070 then .kq (i - 0x060)
  else if i < 0x078 then .kr (i - 0x070)
  else .unmapped

/-- The register map by byte offset (20_memory.md R72). -/
def slotOf (off : Nat) : Slot := slotOfWord (off / 4)

/-- Word `k` of a register, little-endian (20_memory.md R73). -/
def wordAt {n : Nat} (x : BitVec n) (k : Nat) : Word := x.extractLsb' (32 * k) 32

/-- The register with its word `k` replaced (20_memory.md R73). -/
def setWordAt {n : Nat} (x : BitVec n) (k : Nat) (v : Word) : BitVec n :=
  (x &&& ~~~((BitVec.allOnes 32).setWidth n <<< (32 * k))) ||| v.setWidth n <<< (32 * k)

/-- `HostRead(off)` (00_scope.md R17, 20_memory.md R72, R75): no side effect, and 0 where nothing is mapped. -/
def readWord (s : State) (off : Nat) : Word :=
  match slotOf off with
  | .id => Config.idWord
  | .ctrl => 0
  | .status => s.status.word
  | .cmd => s.cmd
  | .arg => s.arg
  | .opaInt k => wordAt s.opa.int k
  | .opaFrac k => wordAt s.opa.frac k
  | .opaMeta => s.opa.meta
  | .opbInt k => wordAt s.opb.int k
  | .opbFrac k => wordAt s.opb.frac k
  | .opbMeta => s.opb.meta
  | .resInt k => wordAt s.res.int k
  | .resFrac k => wordAt s.res.frac k
  | .resMeta => s.res.meta
  | .ka k => wordAt s.ka k
  | .kb k => wordAt s.kb k
  | .kq k => wordAt s.kq k
  | .kr k => wordAt s.kr k
  | .unmapped => 0

/-- May the unit accept a command: neither busy nor faulted (70_reset_and_hazards.md R345). -/
def State.accepts (s : State) : Bool := !s.status.busy && !s.status.fault

/-- An accepted issue of the word `w` (70_reset_and_hazards.md R345): `CMD` and the latch take it with the operands,
and the command is pending. Its latency is drawn here (log 3). -/
def State.accept (s : State) (w : Word) : State :=
  { s with cmd := w, latch := { cmd := w, a := s.opa, b := s.opb, arg := s.arg, ka := s.ka, kb := s.kb },
           status := s.status.issued, pending := true, latency := Config.latency s.draws, draws := s.draws + 1 }

/-- A dropped issue (70_reset_and_hazards.md R345). -/
def State.dropIssue (s : State) : State := { s with status := s.status.drop }

/-- An issue attempt (70_reset_and_hazards.md R345). -/
def State.issue (s : State) (w : Word) : State := if s.accepts then s.accept w else s.dropIssue

/-- `HostWrite(off, v)` (00_scope.md R17, 20_memory.md R72, R75, R77): writes to read-only and unmapped words have no
effect, a write to CMD issues, and a write to CTRL with bit 0 = 1 resets. -/
def writeWord (s : State) (off : Nat) (v : Word) : State :=
  match slotOf off with
  | .ctrl => if v.getLsbD 0 then s.resetUnit else s
  | .cmd => s.issue v
  | .arg => { s with arg := v }
  | .opaInt k => { s with opa := { s.opa with int := setWordAt s.opa.int k v } }
  | .opaFrac k => { s with opa := { s.opa with frac := setWordAt s.opa.frac k v } }
  | .opaMeta => { s with opa := s.opa.setMeta v }
  | .opbInt k => { s with opb := { s.opb with int := setWordAt s.opb.int k v } }
  | .opbFrac k => { s with opb := { s.opb with frac := setWordAt s.opb.frac k v } }
  | .opbMeta => { s with opb := s.opb.setMeta v }
  | .ka k => { s with ka := setWordAt s.ka k v }
  | .kb k => { s with kb := setWordAt s.kb k v }
  | .id => s
  | .status => s
  | .resInt _ => s
  | .resFrac _ => s
  | .resMeta => s
  | .kq _ => s
  | .kr _ => s
  | .unmapped => s

/-! ### The host's moves -/

/-- The window offset of a host access, or why the access is not admitted (20_memory.md R70, R71, R74; log 6, 11). -/
def windowOffset (addr size : Nat) : Except Refusal Nat :=
  if size ≠ 4 then .error .accessNotWord
  else if addr < Config.windowBase ∨ Config.windowBase + Config.windowSize ≤ addr then .error .accessOutsideWindow
  else if addr % 4 ≠ 0 then .error .accessMisaligned
  else .ok (addr - Config.windowBase)

/-- The host goes on to its next move, and one host step of the latency has passed (70_reset_and_hazards.md R352). -/
def State.advanceHost (s : State) : State := { s with hostPc := s.hostPc + 1, latency := s.latency - 1 }

/-- What a host write sends. -/
def State.sourceValue (s : State) : HostSource → Word
  | .imm v => v
  | .temp t => s.temps[t]

/-- One move of the host: a window access or its own control flow (00_scope.md R14, 30_encoding.md R112; log 7). -/
def hostMove (op : HostOp) (s : State) : Result :=
  match op with
  | .rd t addr size =>
    match windowOffset addr size with
    | .ok off => .next { s.advanceHost with temps := s.temps.set t (readWord s off) }
    | .error r => .refused r
  | .wr addr size v =>
    match windowOffset addr size with
    | .ok off => .next (writeWord s.advanceHost off (s.sourceValue v))
    | .error r => .refused r
  | .ifGoto t mask value target =>
    .next (if s.temps[t] &&& mask = value then { s.advanceHost with hostPc := target } else s.advanceHost)

/-- Has the host's program made its last move. -/
def State.hostDone (s : State) : Bool := s.prog.length ≤ s.hostPc

/-- Does the unit move next: a command is pending and its latency has passed, or the host has nothing left to do
(70_reset_and_hazards.md R350, R352, R359; log 3). -/
def State.unitMoves (s : State) : Bool := s.pending && (s.latency == 0 || s.hostDone)

end Sys2Proof.Machine
end

