-- ==== Sys2Proof/Machine/Datapath.lean ====
section
/-! DEFINITION. The datapath units as the spec describes them limb by limb (40_kernel.md R140 to R149, 41_arith.md R186,
R187, R189). The architectural result of each is the exact one (10_state.md R52), which the commands use; Safety.lean
says what "exact" means for each, and the certificates compare the two (log 14). -/

namespace Sys2Proof.Machine.Datapath

/-- Limb `i` of `u` at limb width `w` (40_kernel.md R140). -/
def limb (w i u : Nat) : Nat := u / 2 ^ (w * i) % 2 ^ w

/-- `AddL`, the multi-limb adder with a carry in, limb 0 first (40_kernel.md R141): the sum and the carry out. -/
def addLimbs (w : Nat) : Nat → Nat → Nat → Nat → Nat × Nat
  | 0, _, _, c => (0, c)
  | k + 1, a, b, c =>
    let t := a % 2 ^ w + b % 2 ^ w + c
    let rest := addLimbs w k (a / 2 ^ w) (b / 2 ^ w) (t / 2 ^ w)
    (t % 2 ^ w + 2 ^ w * rest.1, rest.2)

/-- `SubL`, the multi-limb subtractor with a borrow in (40_kernel.md R142): the difference and the borrow out. -/
def subLimbs (w : Nat) : Nat → Nat → Nat → Nat → Nat × Nat
  | 0, _, _, c => (0, c)
  | k + 1, a, b, c =>
    let t := a % 2 ^ w + 2 ^ w - b % 2 ^ w - c
    let rest := subLimbs w k (a / 2 ^ w) (b / 2 ^ w) (if t < 2 ^ w then 1 else 0)
    (t % 2 ^ w + 2 ^ w * rest.1, rest.2)

/-- `CmpL`: limbs from the most significant down, ending at the first that differs (40_kernel.md R142). -/
def cmpLimbs (w : Nat) : Nat → Nat → Nat → Ordering
  | 0, _, _ => .eq
  | k + 1, a, b => (compare (limb w k a) (limb w k b)).then (cmpLimbs w k a b)

/-- `MulW`, the double-width multiplier: four partial products of half-width limbs, summed with carry propagation in
four limbs (40_kernel.md R143). -/
def mulW (W a b : Nat) : Nat :=
  let h := W / 2
  let a1 := limb h 1 a
  let a0 := limb h 0 a
  let b1 := limb h 1 b
  let b0 := limb h 0 b
  let s1 := (addLimbs h 4 (a0 * b0) (a0 * b1 * 2 ^ h) 0).1
  let s2 := (addLimbs h 4 s1 (a1 * b0 * 2 ^ h) 0).1
  (addLimbs h 4 s2 (a1 * b1 * 2 ^ W) 0).1

/-- `MulQ`, the quad-width multiplier: four double-width multiplies at W = 128 (40_kernel.md R144). -/
def mulQ (a b : Nat) : Nat :=
  let a1 := limb 128 1 a
  let a0 := limb 128 0 a
  let b1 := limb 128 1 b
  let b0 := limb 128 0 b
  let s1 := (addLimbs 128 4 (mulW 128 a0 b0) (mulW 128 a0 b1 * 2 ^ 128) 0).1
  let s2 := (addLimbs 128 4 s1 (mulW 128 a1 b0 * 2 ^ 128) 0).1
  (addLimbs 128 4 s2 (mulW 128 a1 b1 * 2 ^ 256) 0).1

/-- One correction step of `Div32`: the digit estimate goes down by one while its product is too large (40_kernel.md
R145 step 2). -/
def correctDigit (u v q : Nat) : Nat := if u < q * v then q - 1 else q

/-- `Div32`, the 3-by-2 division primitive at limb width `w` (40_kernel.md R145): estimate capped at the largest digit,
at most two corrections, remainder by `SubL`. `est` is the unit that divides two limbs by one. -/
def div32 (est : Nat → Nat → Nat) (w u2 u1 u0 v1 v0 : Nat) : Nat × Nat :=
  let v := v1 * 2 ^ w + v0
  let u := u2 * 2 ^ (2 * w) + u1 * 2 ^ w + u0
  let q := correctDigit u v (correctDigit u v (min (est (u2 * 2 ^ w + u1) v1) (2 ^ w - 1)))
  (q, (subLimbs w 3 u (q * v) 0).1)

/-- `Div42`, a 4-by-2 division as two 3-by-2 divisions (40_kernel.md R146). -/
def div42 (est : Nat → Nat → Nat) (w u3 u2 u1 u0 v1 v0 : Nat) : Nat × Nat :=
  let first := div32 est w u3 u2 u1 v1 v0
  let second := div32 est w (limb w 1 first.2) (limb w 0 first.2) u0 v1 v0
  (first.1 * 2 ^ w + second.1, second.2)

/-- The number of bits of `n`; 0 has none. -/
def bitLength (n : Nat) : Nat := if n = 0 then 0 else Nat.log2 n + 1

/-- `LongDiv` with normalisation (40_kernel.md R147): `n` of 2·Wd bits by `d` of Wd bits, in limbs of Wd/2 bits. -/
def longDiv (est : Nat → Nat → Nat) (Wd n d : Nat) : Nat × Nat :=
  let w := Wd / 2
  let shift := Wd - bitLength d
  let u := n * 2 ^ shift
  let v := d * 2 ^ shift
  let r := div42 est w (limb w 3 u) (limb w 2 u) (limb w 1 u) (limb w 0 u) (limb w 1 v) (limb w 0 v)
  (r.1, r.2 / 2 ^ shift)

/-- The double-width divider, `LongDiv(·, ·, W)` (40_kernel.md R147): its estimate is a single native division. -/
def divW (W n d : Nat) : Nat × Nat := longDiv (· / ·) W n d

/-- The estimate of the quad-width divider: itself a 256-by-128-bit `LongDiv`, capped where that quotient does not fit
(40_kernel.md R147, 93_implementation_defined.md G4; PRESUMED, log 14). -/
def quadEstimate (n d : Nat) : Nat := if n / 2 ^ 128 < d then (divW 128 n d).1 else 2 ^ 128 - 1

/-- The quad-width divider, `LongDiv(·, ·, 256)` with 128-bit limbs (40_kernel.md R147). -/
def divQ (n d : Nat) : Nat × Nat := longDiv quadEstimate 256 n d

/-- The Newton loop: until the estimate stops decreasing (40_kernel.md R149). The estimate strictly decreases, so a
fuel of its first value always suffices. -/
def newtonLoop (n : Nat) : Nat → Nat → Nat
  | 0, x => x
  | fuel + 1, x => if x ≤ (x + n / x) / 2 then x else newtonLoop n fuel ((x + n / x) / 2)

/-- The bit-length-derived seed, at least the root (40_kernel.md R149; PRESUMED, 93_implementation_defined.md G5, log 14). -/
def newtonSeed (n : Nat) : Nat := 2 ^ ((bitLength n + 1) / 2)

/-- `ISqrt` by Newton iteration with the final correction step (40_kernel.md R149). -/
def newtonSqrt (n : Nat) : Nat :=
  if n = 0 then 0
  else
    let x := newtonLoop n (newtonSeed n) (newtonSeed n)
    if n < x * x then x - 1 else x

/-- ADD of equal signs as the datapath does it (41_arith.md R186): the fraction sum is compared against the limit, and
its carry enters the integer sum. The integer and fractional parts, or nothing when the integer part overflows. -/
def addParts (t : Tier) (a b : Dec) : Option (Nat × Nat) :=
  let s := alignScale a b
  let f := alignFrac a s + alignFrac b s
  let carry := if alignLimit a b ≤ f then 1 else 0
  let i := a.int + b.int + carry
  if 2 ^ Config.width t ≤ i then none else some (i, if alignLimit a b ≤ f then f - alignLimit a b else f)

/-- ADD of different signs as the datapath does it (41_arith.md R187): the smaller aligned magnitude `b` from the larger
`a`, borrowing 1 from the integer part when `a`'s fraction is the smaller. -/
def subParts (a b : Dec) : Nat × Nat :=
  let s := alignScale a b
  if alignFrac a s < alignFrac b s then
    (a.int - b.int - 1, alignFrac a s + alignLimit a b - alignFrac b s)
  else (a.int - b.int, alignFrac a s - alignFrac b s)

/-- MUL's path (b): the four partial products, summed (41_arith.md R189). -/
def mulPartialSum (a b : Dec) : Nat :=
  a.int * b.int * 10 ^ (a.scale + b.scale) + a.int * b.frac * 10 ^ a.scale + a.frac * b.int * 10 ^ b.scale +
    a.frac * b.frac

end Sys2Proof.Machine.Datapath
end

