-- ==== Sys2Proof/Machine/Kernel.lean ====
section
/-! DEFINITION. The kernel commands MULW, MULQ, DIVW, DIVQ and ISQRT (40_kernel.md R160 to R164), on the exact results
of their units (10_state.md R52; log 14). -/

namespace Sys2Proof.Machine

/-- The integer square root by digits in base four, with fuel for the digits. -/
def isqrtDigits : Nat → Nat → Nat
  | 0, _ => 0
  | fuel + 1, n =>
    let r := 2 * isqrtDigits fuel (n / 4)
    if (r + 1) * (r + 1) ≤ n then r + 1 else r

/-- `isqrt(n)`, the largest r with r·r ≤ n (00_scope.md R15, 40_kernel.md R149). -/
def isqrt (n : Nat) : Nat := isqrtDigits (Nat.log2 n / 2 + 1) n

/-- What a division's operands allow, in the order of R162 and R163: zero divisor, then quotient overflow. -/
def divideKernel (W n d : Nat) (s : State) : Result :=
  if d = 0 then .next (s.raiseFault .divByZero)
  else if d ≤ n / 2 ^ W then .next (s.raiseFault .quotientOverflow)
  else .next (s.completeKqKr (n / d) (n % d))

/-- MULW (40_kernel.md R160). -/
def execMulw (t : Tier) (s : State) : Result :=
  .next (s.completeKq (kernelA s (Config.width t) * kernelB s (Config.width t)))

/-- MULQ (40_kernel.md R161). -/
def execMulq (s : State) : Result := .next (s.completeKq (kernelA s 256 * kernelB s 256))

/-- DIVW (40_kernel.md R162). -/
def execDivw (t : Tier) (s : State) : Result :=
  divideKernel (Config.width t) (kernelA s (2 * Config.width t)) (kernelB s (Config.width t)) s

/-- DIVQ (40_kernel.md R163). -/
def execDivq (s : State) : Result := divideKernel 256 (kernelA s 512) (kernelB s 256) s

/-- ISQRT (40_kernel.md R164): the operand is always 512 bits, whatever the TIER bits. -/
def execIsqrt (_ : Tier) (s : State) : Result := .next (s.completeKq (isqrt (kernelA s 512)))

end Sys2Proof.Machine
end

