-- ==== Sys2Proof/Machine/Arith.lean ====
section
/-! DEFINITION. The arithmetic pipeline: ADD, SUB, MUL, DIV, REM, POW and SQRT (41_arith.md). `T` is the model's argument
`TARGET_SCALE` (00_scope.md R10; log 5). -/

namespace Sys2Proof.Machine

/-- `AddCore(t, a, b)` (41_arith.md R185). -/
def addCore (t : Tier) (a b : Dec) (k : Nat) : Computed :=
  let s := alignScale a b
  let A := alignComb a s
  let B := alignComb b s
  if a.neg = b.neg then mkDec t (A + B) s a.neg k
  else if B < A then mkDec t (A - B) s a.neg k
  else if A < B then mkDec t (B - A) s b.neg k
  else mkDec t 0 s false k

/-- `MulCore(t, a, b)` (41_arith.md R188). The sign is the xor of the signs (PRESUMED, 93_implementation_defined.md
G1, log 15). -/
def mulCore (T : Config.TargetScales) (t : Tier) (a b : Dec) (k : Nat) : Computed :=
  let p := a.comb * b.comb
  let s := a.scale + b.scale
  if T.of t < s then
    mkDec t (p / 10 ^ (s - T.of t)) (T.of t) (xor a.neg b.neg) k
  else mkDec t p s (xor a.neg b.neg) k

/-- The quotient at scale T (41_arith.md R190, R191): where the scaling exponent is below zero, the divisor is scaled
instead. -/
def divQuotient (T : Config.TargetScales) (t : Tier) (a b : Dec) : Nat :=
  if a.scale ≤ T.of t + b.scale then
    a.comb * 10 ^ (T.of t + b.scale - a.scale) / b.comb
  else a.comb / (b.comb * 10 ^ (a.scale - (T.of t + b.scale)))

/-- `DivCore(t, a, b)` (41_arith.md R190). The sign is the xor of the signs (PRESUMED, 93_implementation_defined.md
G2, log 15). -/
def divCore (T : Config.TargetScales) (t : Tier) (a b : Dec) (k : Nat) : Computed :=
  if b.comb = 0 then .raise .divByZero
  else mkDec t (divQuotient T t a b) (T.of t) (xor a.neg b.neg) k

/-- The integer part of a quotient as a value at scale 0 (41_arith.md R192). -/
def integerPart (q : Dec) : Dec := { int := q.int, frac := 0, scale := 0, neg := q.neg }

/-- `RemCore(t, a, b)` (41_arith.md R192). -/
def remCore (T : Config.TargetScales) (t : Tier) (a b : Dec) (k : Nat) : Computed :=
  (divCore T t a b k).bind fun q k₁ =>
    (mulCore T t (integerPart q) b k₁).bind fun p k₂ => addCore t a p.negate k₂

/-- The exponentiation loop (41_arith.md R194), right to left: the result first, then the square, and no square after
the last bit. `fuel` bounds its turns, of which there are at most 32 (70_reset_and_hazards.md R361; log 21). -/
def powLoop (T : Config.TargetScales) (t : Tier) : Nat → Nat → Dec → Dec → Nat → Computed
  | 0, _, r, _, k => .value r k
  | fuel + 1, e, r, b, k =>
    if e = 0 then .value r k
    else
      (if e % 2 = 1 then mulCore T t r b k else .value r k).bind fun r₁ k₁ =>
        if e / 2 = 0 then .value r₁ k₁
        else (mulCore T t b b k₁).bind fun b₁ k₂ => powLoop T t fuel (e / 2) r₁ b₁ k₂

/-- `PowCore(t, a, n)` (41_arith.md R194). -/
def powCore (T : Config.TargetScales) (t : Tier) (a : Dec) (n : Int) (k : Nat) : Computed :=
  if n = 0 then .value .one k
  else
    (if n < 0 then divCore T t .one a k else .value a k).bind fun b k₁ => powLoop T t 32 n.natAbs .one b k₁

/-- `SqrtCore(t, a)` (41_arith.md R195). -/
def sqrtCore (t : Tier) (a : Dec) (k : Nat) : Computed :=
  if a.isZero then
    .value { int := 0, frac := 0, scale := Config.sqrt0Scale t k, neg := Config.zsign k } (k + 1)
  else if a.neg then .raise .negativeSqrt
  else
    mkDec t (isqrt (a.comb * 10 ^ (2 * Config.sqrtDigits t - a.scale))) (Config.sqrtDigits t) false k

/-- ADD (41_arith.md R200). -/
def execAdd (t : Tier) (c : Bool) (s : State) : Result :=
  withOperands t s fun a b => deliver (addCore t a b s.draws) c .overflow s

/-- SUB (41_arith.md R201). -/
def execSub (t : Tier) (c : Bool) (s : State) : Result :=
  withOperands t s fun a b => deliver (addCore t a b.negate s.draws) c .overflow s

/-- MUL (41_arith.md R202). -/
def execMul (t : Tier) (c : Bool) (s : State) : Result :=
  withOperands t s fun a b => deliver (mulCore s.target t a b s.draws) c .overflow s

/-- DIV (41_arith.md R203). -/
def execDiv (t : Tier) (s : State) : Result :=
  withOperands t s fun a b => deliver (divCore s.target t a b s.draws) false .quotientOverflow s

/-- REM (41_arith.md R204). -/
def execRem (t : Tier) (s : State) : Result :=
  withOperands t s fun a b => deliver (remCore s.target t a b s.draws) false .quotientOverflow s

/-- POW (41_arith.md R205). -/
def execPow (t : Tier) (c : Bool) (s : State) : Result :=
  withOperandA t s fun a => deliver (powCore s.target t a (exponent s) s.draws) c .overflow s

/-- SQRT (41_arith.md R206). Its core never answers `OVF` (R195), so the cause given here is never raised (log 21). -/
def execSqrt (t : Tier) (s : State) : Result :=
  withOperandA t s fun a => deliver (sqrtCore t a s.draws) false .overflow s

end Sys2Proof.Machine
end

