-- ==== Sys2Proof/Machine/Compare.lean ====
section
/-! DEFINITION. Comparison and canonical form: CMP and CANON (42_compare.md). -/

namespace Sys2Proof.Machine

/-- `CmpCore(a, b)` (42_compare.md R240): zeros are equal, then the signs, then the magnitudes, integer parts before
aligned fractions, reversed for two negative values. -/
def cmpCore (a b : Dec) : Ordering :=
  if a.isZero && b.isZero then .eq
  else if a.neg ≠ b.neg then (if a.neg then .lt else .gt)
  else
    let s := alignScale a b
    let m := (compare a.int b.int).then (compare (alignFrac a s) (alignFrac b s))
    if a.neg then m.swap else m

/-- The largest k in 0..s with `c mod 10^k = 0` (42_compare.md R244). -/
def trailingZeros (c : Nat) : Nat → Nat
  | 0 => 0
  | s + 1 => if c % 10 ^ (s + 1) = 0 then s + 1 else trailingZeros c s

/-- `CanonCore(a)` (42_compare.md R244). -/
def canonCore (a : Dec) : Dec :=
  let k := trailingZeros a.comb a.scale
  let c := a.comb / 10 ^ k
  let s := a.scale - k
  { int := c / 10 ^ s, frac := c % 10 ^ s, scale := s, neg := if c = 0 then false else a.neg }

/-- CMP (42_compare.md R241). -/
def execCmp (t : Tier) (s : State) : Result :=
  withOperands t s fun a b => .next (s.completeCmp (cmpCore a b))

/-- CANON (42_compare.md R245): no draw is taken. -/
def execCanon (t : Tier) (s : State) : Result :=
  withOperandA t s fun a => .next (s.completeValue (canonCore a) s.draws)

end Sys2Proof.Machine
end

