-- ==== Sys2Proof/Machine/Rounding.lean ====
section
/-! DEFINITION. The rounding engine: the seven ROUND commands (43_rounding.md). -/

namespace Sys2Proof.Machine

/-- The round-up predicate `Up(mode, n, q, r, Dv)` (43_rounding.md R263): whether the magnitude goes up by one in its
last kept place. Ceiling's row follows its name (PRESUMED, 93_implementation_defined.md G7, log 15); Fract has none. -/
def roundsUp (mode : RoundMode) (n : Bool) (q r d : Nat) : Bool :=
  match mode with
  | .floor => n && 0 < r
  | .ceiling => !n && 0 < r
  | .truncate => false
  | .halfUp => d ≤ 2 * r
  | .halfDown => d < 2 * r
  | .halfEven => d < 2 * r || (2 * r == d && q % 2 == 1)
  | .fract => false

/-- Rounding to `p` places below the scale (43_rounding.md R261, R264). -/
def roundTo (t : Tier) (a : Dec) (p : Nat) (mode : RoundMode) (k : Nat) : Computed :=
  let d := 10 ^ (a.scale - p)
  let q := a.comb / d
  mkDec t (if roundsUp mode a.neg q (a.comb % d) d then q + 1 else q) p a.neg k

/-- `RoundCore(t, a, p, mode)` (43_rounding.md R261): Fract first (R262), then the unchanged case, a copy that takes no
draw, then rounding. -/
def roundCore (t : Tier) (a : Dec) (p : Nat) (mode : RoundMode) (k : Nat) : Computed :=
  if mode = .fract then mkDec t a.frac a.scale a.neg k
  else if a.scale ≤ p then .value a k
  else roundTo t a p mode k

/-- What the seven ROUND commands share (43_rounding.md, "Shared by rules R270 to R276"). -/
def roundCommand (mode : RoundMode) (t : Tier) (c : Bool) (s : State) : Result :=
  withOperandA t s fun a => deliver (roundCore t a (places s) mode s.draws) c .overflow s

/-- ROUND.FLOOR (43_rounding.md R270). -/
def execRoundFloor (t : Tier) (c : Bool) (s : State) : Result := roundCommand .floor t c s

/-- ROUND.CEIL (43_rounding.md R271). -/
def execRoundCeil (t : Tier) (c : Bool) (s : State) : Result := roundCommand .ceiling t c s

/-- ROUND.TRUNC (43_rounding.md R272). -/
def execRoundTrunc (t : Tier) (c : Bool) (s : State) : Result := roundCommand .truncate t c s

/-- ROUND.HALFUP (43_rounding.md R273). -/
def execRoundHalfUp (t : Tier) (c : Bool) (s : State) : Result := roundCommand .halfUp t c s

/-- ROUND.HALFDOWN (43_rounding.md R274). -/
def execRoundHalfDown (t : Tier) (c : Bool) (s : State) : Result := roundCommand .halfDown t c s

/-- ROUND.HALFEVEN (43_rounding.md R275). -/
def execRoundHalfEven (t : Tier) (c : Bool) (s : State) : Result := roundCommand .halfEven t c s

/-- ROUND.FRACT (43_rounding.md R276). -/
def execRoundFract (t : Tier) (c : Bool) (s : State) : Result := roundCommand .fract t c s

end Sys2Proof.Machine
end

