-- ==== Sys2Proof/Machine/Dispatch.lean ====
section
/-! DEFINITION. The meaning of every command: the completion of one that is legal (70_reset_and_hazards.md R350). -/

namespace Sys2Proof.Machine

def exec (i : Instr) (s : State) : Host.Outcome State Fault Refusal :=
  match i with
  | .add t c => Sys2Proof.Machine.execAdd t c s
  | .sub t c => Sys2Proof.Machine.execSub t c s
  | .mul t c => Sys2Proof.Machine.execMul t c s
  | .pow t c => Sys2Proof.Machine.execPow t c s
  | .div t => Sys2Proof.Machine.execDiv t s
  | .rem t => Sys2Proof.Machine.execRem t s
  | .sqrt t => Sys2Proof.Machine.execSqrt t s
  | .roundFloor t c => Sys2Proof.Machine.execRoundFloor t c s
  | .roundCeil t c => Sys2Proof.Machine.execRoundCeil t c s
  | .roundTrunc t c => Sys2Proof.Machine.execRoundTrunc t c s
  | .roundHalfUp t c => Sys2Proof.Machine.execRoundHalfUp t c s
  | .roundHalfDown t c => Sys2Proof.Machine.execRoundHalfDown t c s
  | .roundHalfEven t c => Sys2Proof.Machine.execRoundHalfEven t c s
  | .roundFract t c => Sys2Proof.Machine.execRoundFract t c s
  | .cmp t => Sys2Proof.Machine.execCmp t s
  | .canon t => Sys2Proof.Machine.execCanon t s
  | .mulw t => Sys2Proof.Machine.execMulw t s
  | .mulq => Sys2Proof.Machine.execMulq s
  | .divw t => Sys2Proof.Machine.execDivw t s
  | .divq => Sys2Proof.Machine.execDivq s
  | .isqrt t => Sys2Proof.Machine.execIsqrt t s

end Sys2Proof.Machine
end

