-- ==== Sys2Proof/Machine/Step.lean ====
section
/-! DEFINITION. One step: the unit's completion, or one move of the host (00_scope.md R14, 20_memory.md R79). -/

namespace Sys2Proof.Machine

/-- The unit's completion step (70_reset_and_hazards.md R350): an illegal word faults before any operand is read
(60_exceptions.md R302), a legal one has its meaning. -/
def unitMove (s : State) : Host.Outcome State Fault Refusal :=
  match decode s.latch.cmd with
  | .ok i => exec i s
  | .error _ => .next (s.raiseFault .illegalCommand)

/-- One step: the unit's where it moves next, else the host's; the run has ended when neither has one
(20_memory.md R79, 70_reset_and_hazards.md R352, R359). -/
def step (s : State) : Host.Outcome State Fault Refusal :=
  if s.unitMoves then unitMove s
  else
    match s.prog[s.hostPc]? with
    | some op => hostMove op s
    | none => .fault .runEnded

/-- The state in which the very next step runs the command word `w`: as after its accepted issue
(70_reset_and_hazards.md R345), with no host step left to wait for (log 8). -/
def State.withFetchWord (s : State) (nbits w : Nat) : State :=
  let cmd := BitVec.ofNat 32 (w % 2 ^ nbits)
  { s with cmd := cmd, latch := { cmd := cmd, a := s.opa, b := s.opb, arg := s.arg, ka := s.ka, kb := s.kb },
           status := s.status.issued, pending := true, latency := 0 }

end Sys2Proof.Machine
end

