-- ==== Sys2Proof/Machine/HostProgram.lean ====
section
/-! DEFINITION. The host program notation and the pseudo-commands (30_encoding.md R111, R112), as moves of the host. -/

namespace Sys2Proof.Machine.HostProgram

/-- The offset of CMD (20_memory.md R72). -/
def cmdOff : Nat := 0x00C

/-- The offset of ARG (20_memory.md R72). -/
def argOff : Nat := 0x010

/-- The offset of STATUS (20_memory.md R72). -/
def statusOff : Nat := 0x008

/-- The offset of CTRL (20_memory.md R72). -/
def ctrlOff : Nat := 0x004

/-- The first offset of OPA (20_memory.md R72). -/
def opaOff : Nat := 0x040

/-- The first offset of OPB (20_memory.md R72). -/
def opbOff : Nat := 0x080

/-- The first offset of RES (20_memory.md R72). -/
def resOff : Nat := 0x0C0

/-- The first offset of KA (20_memory.md R72). -/
def kaOff : Nat := 0x100

/-- The first offset of KB (20_memory.md R72). -/
def kbOff : Nat := 0x140

/-- `HostWrite(off, v)` as a move (00_scope.md R17). -/
def writeOp (off : Nat) (v : HostSource) : HostOp := .wr (Config.windowBase + off) 4 v

/-- `rd t, reg` (30_encoding.md R112). -/
def rd (t : Fin 8) (off : Nat) : HostOp := .rd t (Config.windowBase + off) 4

/-- `wr reg, v` (30_encoding.md R112). -/
def wr (off : Nat) (v : Word) : HostOp := writeOp off (.imm v)

/-- The offsets of a value register's nine words from its first, in offset order (20_memory.md R72). -/
def valueOffsets : List Nat := [0x00, 0x04, 0x08, 0x0C, 0x10, 0x14, 0x18, 0x1C, 0x20]

/-- A value register's nine words, in offset order (20_memory.md R72). -/
def valueWords (r : DecReg) : List Word :=
  [wordAt r.int 0, wordAt r.int 1, wordAt r.int 2, wordAt r.int 3,
   wordAt r.frac 0, wordAt r.frac 1, wordAt r.frac 2, wordAt r.frac 3, r.meta]

/-- `wrval`: nine writes, INT words, FRAC words and META, in offset order (30_encoding.md R112). -/
def wrval (reg : Nat) (v : Dec) : List HostOp :=
  (valueOffsets.zip (valueWords v.toReg)).map fun p => wr (reg + p.1) p.2

/-- `wrk KA`: all its words, lowest offset first (30_encoding.md R112). -/
def wrka (v : Word512) : List HostOp := (List.range 16).map fun k => wr (kaOff + 4 * k) (wordAt v k)

/-- `wrk KB`: all its words, lowest offset first (30_encoding.md R112). -/
def wrkb (v : Word256) : List HostOp := (List.range 8).map fun k => wr (kbOff + 4 * k) (wordAt v k)

/-- `issue` (30_encoding.md R112). -/
def issue (i : Instr) : HostOp := wr cmdOff (encode i)

/-- `wait`, standing at place `at_` of its program: read STATUS, and again while BUSY = 1 (30_encoding.md R112). -/
def wait (at_ : Nat) (t : Fin 8) : List HostOp := [rd t statusOff, .ifGoto t 1 1 at_]

/-- `copy RES -> OPA`, or to OPB: nine reads and nine writes, word by word (30_encoding.md R112). -/
def copyRes (reg : Nat) (t : Fin 8) : List HostOp :=
  valueOffsets.flatMap fun o => [rd t (resOff + o), writeOp (reg + o) (.temp t)]

/-- A pseudo-command's expansion: `ARG <- 0`, then the command (30_encoding.md R111). -/
def withZeroPlaces (i : Instr) : List HostOp := [wr argOff 0, issue i]

/-- `floor[.c].<tier>` (30_encoding.md R111). -/
def floor (t : Tier) (c : Bool) : List HostOp := withZeroPlaces (.roundFloor t c)

/-- `ceil[.c].<tier>` (30_encoding.md R111). -/
def ceil (t : Tier) (c : Bool) : List HostOp := withZeroPlaces (.roundCeil t c)

/-- `trunc[.c].<tier>` (30_encoding.md R111). -/
def trunc (t : Tier) (c : Bool) : List HostOp := withZeroPlaces (.roundTrunc t c)

/-- `fract[.c].<tier>` (30_encoding.md R111). -/
def fract (t : Tier) (c : Bool) : List HostOp := withZeroPlaces (.roundFract t c)

/-- `eq.<tier>` expands to CMP; the host then tests `STATUS.CMP = 10` (30_encoding.md R111, 42_compare.md R242). -/
def eq (t : Tier) : List HostOp := [issue (.cmp t)]

/-- The bits of `STATUS.CMP`, which a host tests after CMP (10_state.md R44, 30_encoding.md R111). -/
def cmpMask : Word := 0x300

/-- What those bits show for each order: 01, 10 and 11 (42_compare.md R241). -/
def cmpShows : Ordering → Word
  | .lt => 0x100
  | .eq => 0x200
  | .gt => 0x300

/-- The tests `eq`, `ne`, `lt`, `le`, `gt` and `ge` of a STATUS read into `t`: one branch to `target` for each order
that meets the test (30_encoding.md R111). -/
def branchOn (t : Fin 8) (orders : List Ordering) (target : Nat) : List HostOp :=
  orders.map fun o => .ifGoto t cmpMask (cmpShows o) target

/-- The platform's load of a host program: from `s`, the program that runs next (log 8). -/
def load (s : State) (p : List HostOp) : State := { s with prog := p, hostPc := 0 }

end Sys2Proof.Machine.HostProgram
end

