-- ==== Sys2Proof/Safety.lean ====
section
/-! DEFINITION. What the statements speak of: the numbers values mean, the invariant, how a command ends, and the end of
a run. Nothing here is used by the machine. -/

namespace Sys2Proof.Machine

/-! ### The numbers values mean -/

/-- `mag(x)`, the magnitude (00_scope.md R19). -/
def Dec.mag (x : Dec) : ℚ := (x.comb : ℚ) / 10 ^ x.scale

/-- `val(x)`, the number a value means (00_scope.md R19). -/
def Dec.val (x : Dec) : ℚ := if x.neg then -x.mag else x.mag

/-- `trunc(q)`: toward zero, as DIV's integer part is (41_arith.md R192). -/
def truncQ (q : ℚ) : ℤ := if q < 0 then ⌈q⌉ else ⌊q⌋

/-- `q` truncated toward zero to `p` decimal places (41_arith.md R211). -/
def truncPlaces (q : ℚ) (p : Nat) : ℚ := truncQ (q * 10 ^ p) / 10 ^ p

/-- Rounding of a number to an integer in each mode: toward negative or positive infinity, toward zero, and to nearest
with halves away from zero, toward zero, or to even (43_rounding.md R270 to R275). Fract does not round (R262). -/
def roundQ (mode : RoundMode) (x : ℚ) : ℤ :=
  match mode with
  | .floor => ⌊x⌋
  | .ceiling => ⌈x⌉
  | .truncate => truncQ x
  | .halfUp => if x < 0 then -⌊-x + 1 / 2⌋ else ⌊x + 1 / 2⌋
  | .halfDown => if x < 0 then -⌈-x - 1 / 2⌉ else ⌈x - 1 / 2⌉
  | .halfEven =>
    if x - ⌊x⌋ < 1 / 2 then ⌊x⌋
    else if 1 / 2 < x - ⌊x⌋ then ⌊x⌋ + 1
    else if Even ⌊x⌋ then ⌊x⌋ else ⌊x⌋ + 1
  | .fract => truncQ x

/-! ### The invariant -/

/-- What every reachable state satisfies. -/
structure State.Inv (s : State) : Prop where
  /-- 10_state.md R51. -/
  pending_busy : s.pending = s.status.busy
  /-- 10_state.md R43, R50: the latch holds the last accepted command word. -/
  latch_cmd : s.latch.cmd = s.cmd
  /-- 10_state.md R44. -/
  absent_done : s.status.absent = true → s.status.done = true
  /-- 10_state.md R44. -/
  fault_not_done : s.status.fault = true → s.status.done = false ∧ s.status.busy = false
  /-- 10_state.md R44: "A zero `CAUSE` means no fault." -/
  cause_fault : s.status.fault = true ↔ s.status.cause ≠ .none
  /-- 70_reset_and_hazards.md R345, R350: a running command has shown no outcome yet. -/
  busy_clear : s.status.busy = true →
    s.status.done = false ∧ s.status.absent = false ∧ s.status.cmp = .none
  /-- 42_compare.md R241: a comparison shows only after its command is done. -/
  cmp_done : s.status.cmp ≠ .none → s.status.done = true
  /-- 10_state.md R34: `RES` holds a value of some tier, so of the widest. -/
  res_valid : s.res.valid .wide = true

/-! ### How a command ends (60_exceptions.md R300) -/

/-- From `s`, a command ended normally in `t` and wrote `RES`; nothing else of the unit changed but STATUS and the
pending flag (10_state.md R34, 70_reset_and_hazards.md R350). -/
def ValueDone (s t : State) : Prop :=
  t = { s with res := t.res, draws := t.draws, status := s.status.completed, pending := false }

/-- From `s`, a kernel command ended normally in `t` and wrote `KQ` and perhaps `KR`, nothing else (10_state.md R42). -/
def KernelDone (s t : State) : Prop :=
  t = { s with kq := t.kq, kr := t.kr, status := s.status.completed, pending := false }

/-- From `s`, CMP ended normally in `t` and wrote STATUS.CMP, no result register (42_compare.md R241). -/
def CmpDone (s t : State) : Prop :=
  t = { s with status := { s.status.completed with cmp := t.status.cmp }, pending := false }

/-- How an overflow ends: absent for a checked command, a fault for an unchecked one (41_arith.md R182). -/
def overflowEnd (s : State) (c : Bool) (cause : Cause) : State := if c then s.absent else s.raiseFault cause

end Sys2Proof.Machine

namespace Sys2Proof

/-! ### Classes of commands -/

/-- The commands that deliver a value to RES (10_state.md R34). -/
def Instr.isValue : Instr → Bool
  | .add _ _ | .sub _ _ | .mul _ _ | .pow _ _ | .div _ | .rem _ | .sqrt _ | .canon _ => true
  | .roundFloor _ _ | .roundCeil _ _ | .roundTrunc _ _ | .roundHalfUp _ _ | .roundHalfDown _ _
  | .roundHalfEven _ _ | .roundFract _ _ => true
  | .cmp _ | .mulw _ | .mulq | .divw _ | .divq | .isqrt _ => false

/-- The kernel commands (40_kernel.md R160 to R164). -/
def Instr.isKernel : Instr → Bool
  | .mulw _ | .mulq | .divw _ | .divq | .isqrt _ => true
  | .add _ _ | .sub _ _ | .mul _ _ | .pow _ _ | .div _ | .rem _ | .sqrt _ | .canon _ | .cmp _ => false
  | .roundFloor _ _ | .roundCeil _ _ | .roundTrunc _ _ | .roundHalfUp _ _ | .roundHalfDown _ _
  | .roundHalfEven _ _ | .roundFract _ _ => false

/-- The tier at which a command reads its value operands (30_encoding.md R101). -/
def Instr.tier : Instr → Tier
  | .add t _ | .sub t _ | .mul t _ | .pow t _ | .div t | .rem t | .sqrt t | .canon t | .cmp t => t
  | .roundFloor t _ | .roundCeil t _ | .roundTrunc t _ | .roundHalfUp t _ | .roundHalfDown t _
  | .roundHalfEven t _ | .roundFract t _ => t
  | .mulw t | .divw t | .isqrt t => t
  | .mulq | .divq => .wide

/-- Does a command read `L.B` as a value operand (10_state.md R33). -/
def Instr.readsB : Instr → Bool
  | .add _ _ | .sub _ _ | .mul _ _ | .div _ | .rem _ | .cmp _ => true
  | .pow _ _ | .sqrt _ | .canon _ | .mulw _ | .mulq | .divw _ | .divq | .isqrt _ => false
  | .roundFloor _ _ | .roundCeil _ _ | .roundTrunc _ _ | .roundHalfUp _ _ | .roundHalfDown _ _
  | .roundHalfEven _ _ | .roundFract _ _ => false

/-- Is a command the checked form (30_encoding.md R104). -/
def Instr.checked : Instr → Bool
  | .add _ c | .sub _ c | .mul _ c | .pow _ c => c
  | .roundFloor _ c | .roundCeil _ c | .roundTrunc _ c | .roundHalfUp _ c | .roundHalfDown _ c
  | .roundHalfEven _ c | .roundFract _ c => c
  | .div _ | .rem _ | .sqrt _ | .canon _ | .cmp _ | .mulw _ | .mulq | .divw _ | .divq | .isqrt _ => false

/-- The ROUND command of a mode (30_encoding.md R103). -/
def roundInstr : RoundMode → Tier → Bool → Instr
  | .floor => .roundFloor
  | .ceiling => .roundCeil
  | .truncate => .roundTrunc
  | .halfUp => .roundHalfUp
  | .halfDown => .roundHalfDown
  | .halfEven => .roundHalfEven
  | .fract => .roundFract

end Sys2Proof

namespace Sys2Proof.Machine

/-! ### Runs -/

/-- The run has ended (70_reset_and_hazards.md R359): the host has made its last move and nothing is pending. -/
def State.ended (s : State) : Bool := s.hostDone && !s.pending

/-- Does a move of the host reset the unit (10_state.md R45). -/
def HostOp.resets (op : HostOp) (s : State) : Bool :=
  match op with
  | .rd _ _ _ => false
  | .ifGoto _ _ _ _ => false
  | .wr addr size v =>
    match windowOffset addr size with
    | .ok off => slotOf off == .ctrl && (s.sourceValue v).getLsbD 0
    | .error _ => false

/-- Is a move of the host admitted (20_memory.md R74). -/
def HostOp.admitted : HostOp → Bool
  | .rd _ addr size => (windowOffset addr size).isOk
  | .wr addr size _ => (windowOffset addr size).isOk
  | .ifGoto _ _ _ _ => true

/-- For the next `n` steps, or until the unit moves, the host makes admitted moves and none resets. -/
def QuietFor : Nat → State → Prop
  | 0, _ => True
  | n + 1, s =>
    s.unitMoves = true ∨
      ∃ op s', s.prog[s.hostPc]? = some op ∧ op.resets s = false ∧ hostMove op s = .next s' ∧ QuietFor n s'

/-! ### The exponentiation loop as the spec writes it -/

/-- The `while` loop of 41_arith.md R194 from exponent `e`, result `r`, base `b` and next draw `k`, with no bound on its
turns: what it ends with. -/
inductive PowRuns (T : Config.TargetScales) (t : Tier) : Nat → Dec → Dec → Nat → Computed → Prop where
  /-- `e = 0`: the loop is left. -/
  | halt (r b : Dec) (k : Nat) : PowRuns T t 0 r b k (.value r k)
  /-- An odd `e`, and the product overflows. -/
  | oddOverflow {e : Nat} {r b : Dec} {k : Nat} (he : e % 2 = 1) (hr : mulCore T t r b k = .ovf) :
      PowRuns T t e r b k .ovf
  /-- An odd `e` that was the last bit: no square is taken. -/
  | oddLast {e : Nat} {r b r' : Dec} {k k' : Nat} (he : e % 2 = 1) (hl : e / 2 = 0)
      (hr : mulCore T t r b k = .value r' k') : PowRuns T t e r b k (.value r' k')
  /-- An odd `e` with bits left, and the square overflows. -/
  | oddSquareOverflow {e : Nat} {r b r' : Dec} {k k' : Nat} (he : e % 2 = 1) (hl : e / 2 ≠ 0)
      (hr : mulCore T t r b k = .value r' k') (hb : mulCore T t b b k' = .ovf) : PowRuns T t e r b k .ovf
  /-- An odd `e` with bits left. -/
  | oddNext {e : Nat} {r b r' b' : Dec} {k k' k'' : Nat} {out : Computed} (he : e % 2 = 1) (hl : e / 2 ≠ 0)
      (hr : mulCore T t r b k = .value r' k') (hb : mulCore T t b b k' = .value b' k'')
      (hn : PowRuns T t (e / 2) r' b' k'' out) : PowRuns T t e r b k out
  /-- An even `e`, and the square overflows. -/
  | evenSquareOverflow {e : Nat} {r b : Dec} {k : Nat} (he : e % 2 = 0) (hl : e / 2 ≠ 0)
      (hb : mulCore T t b b k = .ovf) : PowRuns T t e r b k .ovf
  /-- An even `e`. -/
  | evenNext {e : Nat} {r b b' : Dec} {k k' : Nat} {out : Computed} (he : e % 2 = 0) (hl : e / 2 ≠ 0)
      (hb : mulCore T t b b k = .value b' k') (hn : PowRuns T t (e / 2) r b' k' out) : PowRuns T t e r b k out

/-! ### The register map, by offset (20_memory.md R72) -/

/-- The offsets of the operand registers ARG, OPA, OPB, KA and KB. -/
def operandOffset (off : Nat) : Bool :=
  off == 0x010 || (0x040 ≤ off && off ≤ 0x060) || (0x080 ≤ off && off ≤ 0x0A0) || (0x100 ≤ off && off ≤ 0x15C)

/-- The offsets of the read-only registers ID, STATUS, RES, KQ and KR. -/
def readOnlyOffset (off : Nat) : Bool :=
  off == 0x000 || off == 0x008 || (0x0C0 ≤ off && off ≤ 0x0E0) || (0x180 ≤ off && off ≤ 0x1DC)

/-- The offsets where nothing is mapped: neither CTRL nor CMD nor any other register. -/
def unmappedOffset (off : Nat) : Bool :=
  !(operandOffset off || readOnlyOffset off || off == 0x004 || off == 0x00C)

/-- An offset the host may name: aligned and inside the window (20_memory.md R70, R74). -/
def windowOffsetOk (off : Nat) : Bool := off < 0x200 && off % 4 == 0

end Sys2Proof.Machine
end

