-- ==== Sys2Proof/Certificates/Slice0/Obligations.lean ====
section
/-! DEFINITION. The statements. Each docstring names the rule of the spec it formalises. -/

open Sys2Proof Sys2Proof.Machine

/-! ### Reset and the register window -/

/-- 10_state.md R55: the whole reset table. -/
def Obligations.ResetClearsEveryRegister : Prop :=
  State.reset.opa = ⟨0, 0, 0, false⟩ ∧ State.reset.opb = ⟨0, 0, 0, false⟩ ∧ State.reset.res = ⟨0, 0, 0, false⟩ ∧
  State.reset.arg = 0 ∧ State.reset.ka = 0 ∧ State.reset.kb = 0 ∧ State.reset.kq = 0 ∧ State.reset.kr = 0 ∧
  State.reset.cmd = 0 ∧ State.reset.status = ⟨false, false, false, false, .none, .none, false⟩ ∧
  readWord State.reset 0x008 = 0 ∧ readWord State.reset 0x004 = 0 ∧ readWord State.reset 0x000 = 0x414E4344 ∧
  State.reset.latch = ⟨0, ⟨0, 0, 0, false⟩, ⟨0, 0, 0, false⟩, 0, 0, 0⟩ ∧ State.reset.pending = false

/-- 10_state.md R45 and 70_reset_and_hazards.md R340: a host write to CTRL with bit 0 = 1 is a reset whatever the
state, a write with bit 0 = 0 has no effect, and CTRL reads as 0. That the host's own program and the count of draws
outlive the reset, and the machine's parameter with them, is the model's choice (log 5, log 20). -/
def Obligations.ControlWriteResetsAtOnce : Prop :=
  ∀ (s : State) (v : HostSource), s.unitMoves = false →
    s.prog[s.hostPc]? = some (.wr (Config.windowBase + 0x004) 4 v) →
    readWord s 0x004 = 0 ∧
    ((s.sourceValue v).getLsbD 0 = true → step s = .next
      { State.reset with draws := s.draws, prog := s.prog, hostPc := s.hostPc + 1, temps := s.temps,
                         target := s.target }) ∧
    ((s.sourceValue v).getLsbD 0 = false → step s = .next { s with hostPc := s.hostPc + 1, latency := s.latency - 1 })

/-- 10_state.md R44: the layout of STATUS; bits 31:11 read 0. -/
def Obligations.StatusReadsItsFields : Prop :=
  ∀ s : State, (readWord s 0x008).toNat =
    s.status.busy.toNat + 2 * s.status.done.toNat + 4 * s.status.absent.toNat + 8 * s.status.fault.toNat +
    16 * (match s.status.cause with
      | .none => 0 | .illegalCommand => 1 | .invalidOperand => 2 | .overflow => 3 | .divByZero => 4
      | .negativeSqrt => 5 | .quotientOverflow => 6) +
    256 * (match s.status.cmp with | .none => 0 | .less => 1 | .equal => 2 | .greater => 3) +
    1024 * s.status.dropped.toNat

/-- 20_memory.md R72, R73: the words of every wider register, the least significant at the lowest offset, and the
one-word registers. STATUS reads the word whose layout StatusReadsItsFields states, and CTRL reads 0 (10_state.md R44,
R45). -/
def Obligations.WindowShowsEveryRegister : Prop :=
  ∀ s : State,
    (∑ k ∈ Finset.range 4, (readWord s (0x040 + 4 * k)).toNat * 2 ^ (32 * k)) = s.opa.int.toNat ∧
    (∑ k ∈ Finset.range 4, (readWord s (0x050 + 4 * k)).toNat * 2 ^ (32 * k)) = s.opa.frac.toNat ∧
    (∑ k ∈ Finset.range 4, (readWord s (0x080 + 4 * k)).toNat * 2 ^ (32 * k)) = s.opb.int.toNat ∧
    (∑ k ∈ Finset.range 4, (readWord s (0x090 + 4 * k)).toNat * 2 ^ (32 * k)) = s.opb.frac.toNat ∧
    (∑ k ∈ Finset.range 4, (readWord s (0x0C0 + 4 * k)).toNat * 2 ^ (32 * k)) = s.res.int.toNat ∧
    (∑ k ∈ Finset.range 4, (readWord s (0x0D0 + 4 * k)).toNat * 2 ^ (32 * k)) = s.res.frac.toNat ∧
    (∑ k ∈ Finset.range 16, (readWord s (0x100 + 4 * k)).toNat * 2 ^ (32 * k)) = s.ka.toNat ∧
    (∑ k ∈ Finset.range 8, (readWord s (0x140 + 4 * k)).toNat * 2 ^ (32 * k)) = s.kb.toNat ∧
    (∑ k ∈ Finset.range 16, (readWord s (0x180 + 4 * k)).toNat * 2 ^ (32 * k)) = s.kq.toNat ∧
    (∑ k ∈ Finset.range 8, (readWord s (0x1C0 + 4 * k)).toNat * 2 ^ (32 * k)) = s.kr.toNat ∧
    (readWord s 0x060).toNat = s.opa.scale.toNat + 256 * s.opa.sign.toNat ∧
    (readWord s 0x0A0).toNat = s.opb.scale.toNat + 256 * s.opb.sign.toNat ∧
    (readWord s 0x0E0).toNat = s.res.scale.toNat + 256 * s.res.sign.toNat ∧
    readWord s 0x000 = 0x414E4344 ∧ readWord s 0x004 = 0 ∧ readWord s 0x008 = s.status.word ∧
    readWord s 0x00C = s.cmd ∧ readWord s 0x010 = s.arg

/-- 20_memory.md R75: writes to read-only registers, reserved bits and unmapped offsets have no effect and raise no
fault, and unmapped offsets read 0. -/
def Obligations.IgnoredWritesChangeNothing : Prop :=
  (∀ (s : State) (off : Nat) (v : Word), windowOffsetOk off = true → readOnlyOffset off = true →
    writeWord s off v = s) ∧
  (∀ (s : State) (off : Nat) (v : Word), windowOffsetOk off = true → unmappedOffset off = true →
    writeWord s off v = s ∧ readWord s off = 0) ∧
  (∀ (s : State) (v : Word), writeWord s 0x060 v = writeWord s 0x060 (v &&& 0x1FF) ∧
    writeWord s 0x0A0 v = writeWord s 0x0A0 (v &&& 0x1FF) ∧ writeWord s 0x004 v = writeWord s 0x004 (v &&& 1) ∧
    (writeWord s 0x060 v).status = s.status ∧ (writeWord s 0x0A0 v).status = s.status ∧
    (v.getLsbD 0 = false → writeWord s 0x004 v = s))

/-- 20_memory.md R72, R79 and 10_state.md R31: a word written to an operand register reads back, META without its
reserved bits, and every other word of the window reads as before. -/
def Obligations.OperandWordReadsBack : Prop :=
  ∀ (s : State) (off : Nat) (v : Word), windowOffsetOk off = true → operandOffset off = true →
    readWord (writeWord s off v) off = (if off = 0x060 ∨ off = 0x0A0 then v &&& 0x1FF else v) ∧
    ∀ off', windowOffsetOk off' = true → off' ≠ off → readWord (writeWord s off v) off' = readWord s off'

/-- 20_memory.md R77 and 10_state.md R50: only a write to CMD and a reset write to CTRL have side effects; any other
write can change an operand register and nothing else, the latch and a running command included; a read changes
nothing of the unit and returns the register's contents. -/
def Obligations.OnlyIssueAndResetHaveSideEffects : Prop :=
  (∀ (s : State) (off : Nat) (v : Word), windowOffsetOk off = true → off ≠ 0x00C →
    ¬(off = 0x004 ∧ v.getLsbD 0 = true) →
    ∃ a b g ka kb, writeWord s off v = { s with opa := a, opb := b, arg := g, ka := ka, kb := kb }) ∧
  (∀ (s : State) (t : Fin 8) (off : Nat), windowOffsetOk off = true → s.unitMoves = false →
    s.prog[s.hostPc]? = some (.rd t (Config.windowBase + off) 4) →
    step s = .next { s with temps := s.temps.set t (readWord s off), hostPc := s.hostPc + 1, latency := s.latency - 1 })

/-- 20_memory.md R74 and 70_reset_and_hazards.md R358: exactly the aligned 32-bit accesses inside the window are
admitted, and read or write the word at their offset; any other is refused. That an admitted access moves the host's
place on and the latency count down is the model's choice (log 3, log 7). -/
def Obligations.OnlyAlignedWordAccessesAreAdmitted : Prop :=
  ∀ (s : State) (t : Fin 8) (addr size : Nat) (v : HostSource), s.unitMoves = false →
    (s.prog[s.hostPc]? = some (.rd t addr size) ∨ s.prog[s.hostPc]? = some (.wr addr size v)) →
    ((size = 4 ∧ addr % 4 = 0 ∧ Config.windowBase ≤ addr ∧ addr < Config.windowBase + 0x200) → step s = .next
      (if s.prog[s.hostPc]? = some (.rd t addr size) then
        { s.advanceHost with temps := s.temps.set t (readWord s (addr - Config.windowBase)) }
      else writeWord s.advanceHost (addr - Config.windowBase) (s.sourceValue v))) ∧
    (¬(size = 4 ∧ addr % 4 = 0 ∧ Config.windowBase ≤ addr ∧ addr < Config.windowBase + 0x200) →
      ∃ r, step s = .refused r)

/-- 30_encoding.md R112, 20_memory.md R72, R73: the nine writes of `wrval` leave the value in its register, and change
nothing else of the unit. -/
def Obligations.WrvalWritesTheValue : Prop :=
  ∀ (t : Tier) (v : Dec) (s : State) (before after : List HostOp), v.valid t = true → s.pending = false →
    s.hostPc = before.length →
    (s.prog = before ++ HostProgram.wrval HostProgram.opaOff v ++ after → ∃ r, r.toDec = v ∧
      Sys2Proof.core.run 9 s = .next { s with opa := r, hostPc := s.hostPc + 9, latency := s.latency - 9 }) ∧
    (s.prog = before ++ HostProgram.wrval HostProgram.opbOff v ++ after → ∃ r, r.toDec = v ∧
      Sys2Proof.core.run 9 s = .next { s with opb := r, hostPc := s.hostPc + 9, latency := s.latency - 9 })

/-! ### Issue, completion and the end of a run -/

/-- 70_reset_and_hazards.md R345: an issue attempt, dropped while busy or faulted and accepted otherwise. The number of
host steps to its completion is the draw LATENCY, any number `n`. -/
def Obligations.IssueIsAcceptedOrDropped : Prop :=
  ∀ (s : State) (v : HostSource), s.unitMoves = false →
    s.prog[s.hostPc]? = some (.wr (Config.windowBase + 0x00C) 4 v) →
    ((s.status.busy = true ∨ s.status.fault = true) → step s = .next
      { s with status := { s.status with dropped := true }, hostPc := s.hostPc + 1, latency := s.latency - 1 }) ∧
    (s.status.busy = false → s.status.fault = false → ∃ n, step s = .next
      { s with
        cmd := s.sourceValue v
        latch := { cmd := s.sourceValue v, a := s.opa, b := s.opb, arg := s.arg, ka := s.ka, kb := s.kb }
        status := { busy := true, done := false, absent := false, fault := false, cause := s.status.cause,
                    cmp := .none, dropped := false }
        pending := true
        latency := n
        draws := s.draws + 1
        hostPc := s.hostPc + 1 })

/-- 70_reset_and_hazards.md R350: the unit's step runs the decoded command; where it does not move, the host's next
move is made. -/
def Obligations.StepRunsTheDecodedCommand : Prop :=
  (∀ (s : State) (i : Instr), s.pending = true → (s.latency = 0 ∨ s.prog.length ≤ s.hostPc) →
    decode s.latch.cmd = .ok i → step s = exec i s) ∧
  (∀ (s : State) (op : HostOp), (s.pending = false ∨ 0 < s.latency) → s.prog[s.hostPc]? = some op →
    step s = hostMove op s)

/-- 70_reset_and_hazards.md R359: a run ends, and stops, exactly when the host has made its last move and nothing is
pending; the model faults nowhere else. -/
def Obligations.RunEndsExactlyWhenIdleAndHostDone : Prop :=
  ∀ s : State, (∃ r, step s = .fault r) ↔ (s.prog.length ≤ s.hostPc ∧ s.pending = false)

/-- 60_exceptions.md R302: an illegal word faults at completion before anything else, and only an illegal word raises
ILLEGAL_COMMAND. The word stays in CMD. -/
def Obligations.IllegalWordsFaultAtCompletion : Prop :=
  ∀ s : State, s.unitMoves = true →
    ∃ u, step s = .next u ∧ u.cmd = s.cmd ∧
      (let w := s.latch.cmd.toNat
       let op := w % 64
       let tier := w / 64 % 4
       let mode := w / 256 % 8
       let c := w / 2048 % 2
       (op ∉ [1, 2, 3, 4, 5, 6, 7, 8, 9, 10, 16, 17, 18, 19, 20] ∨ w / 4096 ≠ 0 ∨ (op = 8 ∧ mode = 7) ∨
          (op ≠ 8 ∧ mode ≠ 0) ∨ (c = 1 ∧ op ∉ [1, 2, 3, 6, 8]) ∨ (tier ≠ 3 ∧ op ∈ [17, 19])) ↔
        u = { s with
          status := { s.status with busy := false, done := false, absent := false, fault := true,
                                    cause := .illegalCommand }
          pending := false })

/-- 60_exceptions.md R300 with R310 and R315: every completion step ends normally, absent or in a fault, and there is no
other outcome. An absent result, which only a checked command has, and a fault write no result and change nothing but
what R315 and R310 list. That a normal end keeps ABSENT, FAULT, CAUSE and DROPPED, and an absent end the rest of STATUS,
is read from the lists of R44, R310, R315 and R350 (DEDUCED, log 18). -/
def Obligations.EveryCommandEndsOneOfThreeWays : Prop :=
  ∀ s : State, s.unitMoves = true → ∃ u, step s = .next u ∧
    ((u.status.busy = false ∧ u.status.done = true ∧ u.status.absent = s.status.absent ∧
        u.status.fault = s.status.fault ∧ u.status.cause = s.status.cause ∧ u.status.dropped = s.status.dropped ∧
        u.pending = false) ∨
      ((∃ i, decode s.latch.cmd = .ok i ∧ i.checked = true) ∧
        u = { s with status := { s.status with busy := false, done := true, absent := true }, pending := false }) ∨
      (∃ c, c ≠ .none ∧ u = { s with
        status := { s.status with busy := false, done := false, absent := false, fault := true, cause := c }
        pending := false }))

/-- The frame of every command (10_state.md R33, R34, R36, R41, R42, R44): no command writes an operand register, CMD or
the latch; value commands and CMP leave KQ and KR, kernel commands and CMP leave RES; only CMP writes STATUS.CMP; only
DIVW and DIVQ write KR. -/
def Obligations.CommandsWriteOnlyTheirResults : Prop :=
  ∀ (i : Instr) (s u : State), exec i s = .next u →
    u.opa = s.opa ∧ u.opb = s.opb ∧ u.arg = s.arg ∧ u.ka = s.ka ∧ u.kb = s.kb ∧ u.cmd = s.cmd ∧ u.latch = s.latch ∧
    u.prog = s.prog ∧ u.hostPc = s.hostPc ∧ u.temps = s.temps ∧ u.latency = s.latency ∧ u.target = s.target ∧
    u.status.dropped = s.status.dropped ∧
    (i.isKernel = false → u.kq = s.kq ∧ u.kr = s.kr) ∧
    (i.isValue = false → u.res = s.res ∧ u.draws = s.draws) ∧
    ((∀ t, i ≠ .cmp t) → u.status.cmp = s.status.cmp) ∧
    ((∀ t, i ≠ .divw t) → i ≠ .divq → u.kr = s.kr)

/-- 10_state.md R50, 70_reset_and_hazards.md R350, R357: a completion reads the latch alone. Beside the draws and the
machine's parameter, the latch decides which of RES, KQ, KR and the fields of STATUS the command writes and with what;
the rest keep what they hold, and nothing the registers hold plays a part, the earlier results and STATUS included. -/
def Obligations.CompletionReadsOnlyTheLatch : Prop :=
  ∀ (i : Instr) (l : Latch) (k : Nat) (T : Config.TargetScales),
    ∃ (res : Option DecReg) (kq : Option Word512) (kr : Option Word256) (done : Bool) (absent fault : Option Bool)
      (cause : Option Cause) (cmp : Option CmpField) (k' : Nat),
    ∀ s : State, s.latch = l → s.draws = k → s.target = T → exec i s = .next
      { s with
        res := res.getD s.res
        kq := kq.getD s.kq
        kr := kr.getD s.kr
        status := { busy := false, done := done, absent := absent.getD s.status.absent,
                    fault := fault.getD s.status.fault, cause := cause.getD s.status.cause,
                    cmp := cmp.getD s.status.cmp, dropped := s.status.dropped }
        pending := false
        draws := k' }

/-- 70_reset_and_hazards.md R352: no accepted command waits for ever. From any reachable state with a command pending,
if the host neither resets nor makes an access that is not admitted, the command completes within its latency. That the latency is a count of host moves is the model's choice (log 3). -/
def Obligations.PendingCommandCompletes : Prop :=
  ∀ (n : Nat) (s : State), s.Inv → s.pending = true → s.latency = n → QuietFor n s →
    ∃ k ≤ n, ∃ u, Sys2Proof.core.run (k + 1) s = .next u ∧ u.pending = false ∧ u.status.busy = false ∧
      (u.status.done = true ∨ u.status.fault = true)

/-- 70_reset_and_hazards.md R355, 20_memory.md R82: whatever the host does while a command runs, short of a reset, the
command ends as it would have ended at once; only DROPPED can differ. The bound by State.latency is the model's form of
the draw LATENCY (log 3). -/
def Obligations.HostMovesWhileBusyKeepTheResult : Prop :=
  ∀ (n : Nat) (s : State), s.Inv → s.pending = true → s.latency = n → QuietFor n s →
    ∃ k ≤ n, ∃ u v, Sys2Proof.core.run (k + 1) s = .next u ∧ unitMove s = .next v ∧
      u.res = v.res ∧ u.kq = v.kq ∧ u.kr = v.kr ∧ u.cmd = v.cmd ∧ u.draws = v.draws ∧
      u.status = { v.status with dropped := u.status.dropped }

/-- 60_exceptions.md R311, R324: the fault state is left by a reset write to CTRL and by nothing else. In it nothing
runs, no command is accepted, and no result changes. -/
def Obligations.FaultStateIsLeftOnlyByReset : Prop :=
  ∀ s u : State, s.Inv → s.status.fault = true → step s = .next u →
    (u.status.fault = true ∧ u.status.cause = s.status.cause ∧ u.pending = false ∧ u.cmd = s.cmd ∧
      u.latch = s.latch ∧ u.res = s.res ∧ u.kq = s.kq ∧ u.kr = s.kr) ∨
    (∃ op, s.prog[s.hostPc]? = some op ∧ op.resets s = true ∧ u.status = ⟨false, false, false, false, .none, .none, false⟩ ∧
      u.opa = ⟨0, 0, 0, false⟩ ∧ u.res = ⟨0, 0, 0, false⟩ ∧ u.pending = false)

/-- 10_state.md R34, R43, R44, R51 and 42_compare.md R241: the invariant of `State.Inv` is kept by every step, from every
state that meets it. -/
def Obligations.StepKeepsTheInvariant : Prop := ∀ s u : State, s.Inv → step s = .next u → u.Inv

/-- The invariant holds after reset. -/
def Obligations.ResetMeetsTheInvariant : Prop := State.reset.Inv

/-! ### Encoding -/

/-- Words written out from the table of 30_encoding.md R102 and the examples of R110. -/
def Obligations.WrittenOutWordsDecode : Prop :=
  decode 0x00000081 = .ok (.add .standard false) ∧ decode 0x000008C3 = .ok (.mul .wide true) ∧
  decode 0x00000588 = .ok (.roundHalfEven .standard false) ∧ decode 0x00000014 = .ok (.isqrt .tiny) ∧
  decode 0x00000886 = .ok (.pow .standard true) ∧ decode 0x0000008A = .ok (.canon .standard) ∧
  decode 0x000000D3 = .ok .divq ∧ decode 0x00000053 = .error .tierNotWide

/-- 30_encoding.md R100 to R106: each command has exactly one word, and each word at most one command. -/
def Obligations.DecodeIffEncode : Prop := ∀ (w : Word) (i : Instr), decode w = .ok i ↔ encode i = w

/-- 30_encoding.md R106, the five conditions of legality, on the word as a number: the decoder accepts exactly the legal
words. -/
def Obligations.DecodeAcceptsExactlyLegalWords : Prop :=
  ∀ w : Word, (∃ i, decode w = .ok i) ↔
    (let n := w.toNat
     let op := n % 64
     let mode := n / 256 % 8
     n / 4096 = 0 ∧ op ∈ [1, 2, 3, 4, 5, 6, 7, 8, 9, 10, 16, 17, 18, 19, 20] ∧
       (if op = 8 then mode ≤ 6 else mode = 0) ∧ (op ∉ [1, 2, 3, 6, 8] → n / 2048 % 2 = 0) ∧
       (op ∈ [17, 19] → n / 64 % 4 = 3))

/-- spec/opcode_table.json: a word that decodes matches exactly one row of the table, the row of its command, which is
there; a word that does not decode matches none. -/
def Obligations.OpcodeTableIsUnambiguous : Prop :=
  ∀ w : Word,
    (∀ i, decode w = .ok i → (∃! r, r ∈ opcodeTable ∧ r.matchesWord w = true) ∧
      ∀ r ∈ opcodeTable, r.matchesWord w = true ↔ r.mnemonic = mnemonicOf i) ∧
    (∀ e, decode w = .error e → ∀ r ∈ opcodeTable, r.matchesWord w = false)

/-- 30_encoding.md R110: the assembler reads back every command's name; ISQRT's name stands for TIER = 0. -/
def Obligations.AssemblerReadsBackNames : Prop :=
  ∀ i : Instr, assemble (asmParts i) = some (match i with | .isqrt _ => .isqrt .tiny | j => j)

/-! ### Operands -/

/-- 60_exceptions.md R303 with 10_state.md R32: a value command with an operand that breaks a condition of R32 faults
INVALID_OPERAND whatever else holds, `a` before `b` where it reads `b`; kernel commands never do. -/
def Obligations.InvalidOperandsFault : Prop :=
  (∀ (i : Instr) (s : State), i.isKernel = false →
    (let bad : DecReg → Prop := fun r =>
      2 ^ Config.width i.tier ≤ r.int.toNat ∨ 2 ^ Config.width i.tier ≤ r.frac.toNat ∨
        Config.maxScale i.tier < r.scale.toNat ∨ 10 ^ r.scale.toNat ≤ r.frac.toNat
     (bad s.latch.a ∨ (i.readsB = true ∧ bad s.latch.b)) → exec i s = .next
      { s with
        status := { s.status with busy := false, done := false, absent := false, fault := true,
                                  cause := .invalidOperand }
        pending := false })) ∧
  (∀ (i : Instr) (s u : State), i.isKernel = true → exec i s = .next u → s.status.cause ≠ .invalidOperand →
    u.status.cause ≠ .invalidOperand)

/-! ### ADD, SUB, MUL -/

/-- 41_arith.md R200, R185, R211 (1): ADD is exact, at the larger scale; when the integer part reaches 2^W it is absent
for C = 1 and faults OVERFLOW for C = 0 (R182). -/
def Obligations.AddIsExact : Prop :=
  ∀ (t : Tier) (c : Bool) (s : State), s.latch.a.valid t = true → s.latch.b.valid t = true →
    (let a := s.latch.a.toDec
     let b := s.latch.b.toDec
     (|a.val + b.val| < 2 ^ Config.width t → ∃ u, exec (.add t c) s = .next u ∧ ValueDone s u ∧ u.res.valid t = true ∧
        u.res.toDec.val = a.val + b.val ∧ u.res.toDec.scale = max a.scale b.scale) ∧
     (2 ^ Config.width t ≤ |a.val + b.val| → exec (.add t c) s = .next (overflowEnd s c .overflow)))

/-- 41_arith.md R201, R211 (1), 90_conflicts.md C3: SUB is exact, at the larger scale, and can overflow. -/
def Obligations.SubIsExact : Prop :=
  ∀ (t : Tier) (c : Bool) (s : State), s.latch.a.valid t = true → s.latch.b.valid t = true →
    (let a := s.latch.a.toDec
     let b := s.latch.b.toDec
     (|a.val - b.val| < 2 ^ Config.width t → ∃ u, exec (.sub t c) s = .next u ∧ ValueDone s u ∧ u.res.valid t = true ∧
        u.res.toDec.val = a.val - b.val ∧ u.res.toDec.scale = max a.scale b.scale) ∧
     (2 ^ Config.width t ≤ |a.val - b.val| → exec (.sub t c) s = .next (overflowEnd s c .overflow)))

/-- 41_arith.md R202, R211 (2): MUL is the product truncated toward zero at min(a.s + b.s, T) places; overflow is tested
after truncation. The sign of a product is the spec's general knowledge (log 15). -/
def Obligations.MulTruncatesTheProduct : Prop :=
  ∀ (t : Tier) (c : Bool) (s : State), s.latch.a.valid t = true → s.latch.b.valid t = true →
    (let a := s.latch.a.toDec
     let b := s.latch.b.toDec
     let p := min (a.scale + b.scale) (s.target.of t)
     (|a.val * b.val| < 2 ^ Config.width t → ∃ u, exec (.mul t c) s = .next u ∧ ValueDone s u ∧ u.res.valid t = true ∧
        u.res.toDec.val = truncPlaces (a.val * b.val) p ∧ u.res.toDec.scale = p) ∧
     (2 ^ Config.width t ≤ |a.val * b.val| → exec (.mul t c) s = .next (overflowEnd s c .overflow)))

/-- 41_arith.md R211 (5): ADD and MUL are commutative bit for bit, apart from the drawn sign of a zero result. -/
def Obligations.AddAndMulCommute : Prop :=
  ∀ (t : Tier) (c : Bool) (s : State) (i : Instr), (i = .add t c ∨ i = .mul t c) →
    ∃ u u', exec i s = .next u ∧
      exec i { s with latch := { s.latch with a := s.latch.b, b := s.latch.a } } = .next u' ∧
      u.status = u'.status ∧ u.res.int = u'.res.int ∧ u.res.frac = u'.res.frac ∧ u.res.scale = u'.res.scale ∧
      (u.res.toDec.comb ≠ 0 → u.res.sign = u'.res.sign)

/-! ### DIV and REM -/

/-- 41_arith.md R203, R191, R211 (3), 60_exceptions.md R320: DIV is the quotient truncated toward zero at T places,
always at scale T; a zero divisor faults first, then a quotient that does not fit. -/
def Obligations.DivTruncatesTheQuotient : Prop :=
  ∀ (t : Tier) (s : State), s.latch.a.valid t = true → s.latch.b.valid t = true →
    (let a := s.latch.a.toDec
     let b := s.latch.b.toDec
     (b.val ≠ 0 → |a.val / b.val| < 2 ^ Config.width t → ∃ u, exec (.div t) s = .next u ∧ ValueDone s u ∧
        u.res.valid t = true ∧ u.res.toDec.val = truncPlaces (a.val / b.val) (s.target.of t) ∧
        u.res.toDec.scale = s.target.of t) ∧
     (b.val ≠ 0 → 2 ^ Config.width t ≤ |a.val / b.val| → exec (.div t) s = .next (s.raiseFault .quotientOverflow)) ∧
     (b.val = 0 → exec (.div t) s = .next (s.raiseFault .divByZero)))

/-- 41_arith.md R204, R192: REM multiplies the quotient's integer part back with MUL's truncation and subtracts it; its
scale is max(a.s, min(b.s, T)). -/
def Obligations.RemSubtractsTheWholeMultiple : Prop :=
  ∀ (t : Tier) (s : State), s.latch.a.valid t = true → s.latch.b.valid t = true →
    (let a := s.latch.a.toDec
     let b := s.latch.b.toDec
     let p := min b.scale (s.target.of t)
     (b.val ≠ 0 → |a.val / b.val| < 2 ^ Config.width t → ∃ u, exec (.rem t) s = .next u ∧ ValueDone s u ∧
        u.res.valid t = true ∧ u.res.toDec.val = a.val - truncPlaces (truncQ (a.val / b.val) * b.val) p ∧
        u.res.toDec.scale = max a.scale p) ∧
     (b.val ≠ 0 → 2 ^ Config.width t ≤ |a.val / b.val| → exec (.rem t) s = .next (s.raiseFault .quotientOverflow)) ∧
     (b.val = 0 → exec (.rem t) s = .next (s.raiseFault .divByZero)))

/-- 41_arith.md R193, R204, R211 (7): where b.s ≤ T, the remainder is exact, is smaller than the divisor, and has the
dividend's sign or is zero. -/
def Obligations.RemIsExactUpToTheTargetScale : Prop :=
  ∀ (t : Tier) (s : State), s.latch.a.valid t = true → s.latch.b.valid t = true →
    (let a := s.latch.a.toDec
     let b := s.latch.b.toDec
     b.scale ≤ s.target.of t → b.val ≠ 0 → |a.val / b.val| < 2 ^ Config.width t →
     ∃ u, exec (.rem t) s = .next u ∧ a.val = truncQ (a.val / b.val) * b.val + u.res.toDec.val ∧
       |u.res.toDec.val| < |b.val| ∧ 0 ≤ u.res.toDec.val * a.val)

/-- 60_exceptions.md R304: DIV_BY_ZERO is raised in five cases and in no other; none of them is absent instead, a
checked POW included, and a negative zero counts as zero. Invalid operands come first (R320). -/
def Obligations.ZeroDivisorsAlwaysFault : Prop :=
  ∀ s : State,
    (∀ t, s.latch.a.valid t = true → s.latch.b.valid t = true → s.latch.b.toDec.comb = 0 →
      exec (.div t) s = .next (s.raiseFault .divByZero) ∧ exec (.rem t) s = .next (s.raiseFault .divByZero)) ∧
    (∀ t c, s.latch.a.valid t = true → s.latch.arg.toInt < 0 → s.latch.a.toDec.comb = 0 →
      exec (.pow t c) s = .next (s.raiseFault .divByZero)) ∧
    (∀ t, s.latch.kb.toNat % 2 ^ Config.width t = 0 → exec (.divw t) s = .next (s.raiseFault .divByZero)) ∧
    (s.latch.kb = 0 → exec .divq s = .next (s.raiseFault .divByZero)) ∧
    (∀ i u, exec i s = .next u → s.status.cause ≠ .divByZero → u.status.cause = .divByZero →
      (∃ t, i = .div t ∧ s.latch.b.toDec.comb = 0) ∨ (∃ t, i = .rem t ∧ s.latch.b.toDec.comb = 0) ∨
      (∃ t c, i = .pow t c ∧ s.latch.arg.toInt < 0 ∧ s.latch.a.toDec.comb = 0) ∨
      (∃ t, i = .divw t ∧ s.latch.kb.toNat % 2 ^ Config.width t = 0) ∨ (i = .divq ∧ s.latch.kb = 0))

/-! ### POW -/

/-- 41_arith.md R205, R194: the exponent 0 gives one at scale 0 for every base, and −1 the reciprocal truncated at T
places. -/
def Obligations.PowOfZeroAndMinusOne : Prop :=
  ∀ (t : Tier) (c : Bool) (s : State), s.latch.a.valid t = true →
    (s.latch.arg.toInt = 0 → ∃ u, exec (.pow t c) s = .next u ∧ ValueDone s u ∧ u.res = ⟨1, 0, 0, false⟩) ∧
    (s.latch.arg.toInt = -1 → s.latch.a.toDec.val ≠ 0 → ∃ u, exec (.pow t c) s = .next u ∧ ValueDone s u ∧
      u.res.valid t = true ∧ u.res.toDec.val = truncPlaces (1 / s.latch.a.toDec.val) (s.target.of t) ∧
      u.res.toDec.scale = s.target.of t)

/-- 41_arith.md R194, R205: where the exact power has at most T places, no step truncates: the result is the power
itself, and it overflows exactly when the power does. -/
def Obligations.PowIsExactWhenItsScaleFits : Prop :=
  ∀ (t : Tier) (c : Bool) (s : State) (n : Nat), s.latch.a.valid t = true → s.latch.arg.toInt = n →
    (let a := s.latch.a.toDec
     a.scale * n ≤ s.target.of t →
     (|a.val ^ n| < 2 ^ Config.width t → ∃ u, exec (.pow t c) s = .next u ∧ ValueDone s u ∧ u.res.valid t = true ∧
        u.res.toDec.val = a.val ^ n ∧ u.res.toDec.scale = a.scale * n) ∧
     (2 ^ Config.width t ≤ |a.val ^ n| → exec (.pow t c) s = .next (overflowEnd s c .overflow)))

/-- 41_arith.md R194, 70_reset_and_hazards.md R361: POW ends as the spec's unbounded loop does, from the base for n > 0
and from its reciprocal for n < 0. -/
def Obligations.PowRunsTheLoop : Prop :=
  ∀ (t : Tier) (c : Bool) (s : State), s.latch.a.valid t = true → s.latch.arg.toInt ≠ 0 →
    (0 < s.latch.arg.toInt → ∃ out, PowRuns s.target t s.latch.arg.toInt.natAbs .one s.latch.a.toDec s.draws out ∧
      exec (.pow t c) s = deliver out c .overflow s) ∧
    (s.latch.arg.toInt < 0 → s.latch.a.toDec.comb ≠ 0 → ∃ b k out,
      divCore s.target t .one s.latch.a.toDec s.draws = .value b k ∧ PowRuns s.target t s.latch.arg.toInt.natAbs .one b k out ∧
      exec (.pow t c) s = deliver out c .overflow s) ∧
    (∀ e r b k out out', PowRuns s.target t e r b k out → PowRuns s.target t e r b k out' → out = out')

/-! ### SQRT -/

/-- 41_arith.md R206, R195, R211 (4), 60_exceptions.md R305: the root truncated at D places, its square never above the
operand; zero of either sign gives a zero, at any scale up to M; a negative operand faults. -/
def Obligations.SqrtIsTheTruncatedRoot : Prop :=
  ∀ (t : Tier) (s : State), s.latch.a.valid t = true →
    (let x := s.latch.a.toDec.val
     (0 < x → ∃ u, exec (.sqrt t) s = .next u ∧ ValueDone s u ∧ u.res.valid t = true ∧
        u.res.toDec.scale = Config.sqrtDigits t ∧ 0 < u.res.toDec.val ∧ u.res.toDec.val * u.res.toDec.val ≤ x ∧
        x < (u.res.toDec.val + 1 / 10 ^ Config.sqrtDigits t) ^ 2) ∧
     (x = 0 → ∃ u, exec (.sqrt t) s = .next u ∧ ValueDone s u ∧ u.res.valid t = true ∧ u.res.toDec.val = 0) ∧
     (x < 0 → exec (.sqrt t) s = .next (s.raiseFault .negativeSqrt)))

/-! ### CMP and CANON -/

/-- 42_compare.md R240, R241, R243: CMP sets STATUS.CMP by the order of the numbers, and nothing else but DONE. -/
def Obligations.CmpIsTheOrderOfTheNumbers : Prop :=
  ∀ (t : Tier) (s : State), s.latch.a.valid t = true → s.latch.b.valid t = true →
    ∃ u, exec (.cmp t) s = .next u ∧ CmpDone s u ∧
      (s.latch.a.toDec.val < s.latch.b.toDec.val → u.status.cmp = .less) ∧
      (s.latch.a.toDec.val = s.latch.b.toDec.val → u.status.cmp = .equal) ∧
      (s.latch.b.toDec.val < s.latch.a.toDec.val → u.status.cmp = .greater)

/-- 42_compare.md R244, R245, R246: CANON keeps the number, at the least scale that holds it, and gives zero the sign 0;
no draw is taken. -/
def Obligations.CanonIsTheShortestForm : Prop :=
  ∀ (t : Tier) (s : State), s.latch.a.valid t = true →
    ∃ u, exec (.canon t) s = .next u ∧ ValueDone s u ∧ u.draws = s.draws ∧ u.res.valid t = true ∧
      u.res.toDec.val = s.latch.a.toDec.val ∧
      (∀ p : Nat, (∃ z : ℤ, s.latch.a.toDec.val * 10 ^ p = z) ↔ u.res.toDec.scale ≤ p) ∧
      u.res.sign = decide (s.latch.a.toDec.val < 0)

/-- 42_compare.md R246: CMP says equal exactly when the canonical forms agree bit for bit. -/
def Obligations.EqualValuesHaveOneCanonicalForm : Prop :=
  ∀ (t : Tier) (s : State), s.latch.a.valid t = true → s.latch.b.valid t = true →
    ∃ u v w, exec (.cmp t) s = .next u ∧ exec (.canon t) s = .next v ∧
      exec (.canon t) { s with latch := { s.latch with a := s.latch.b } } = .next w ∧
      (u.status.cmp = .equal ↔ v.res = w.res)

/-! ### ROUND -/

/-- 43_rounding.md R261, R263, R264, R270 to R275: ROUND.FLOOR, CEIL, TRUNC, HALFUP, HALFDOWN and HALFEVEN round the
number at p places in their direction; with p at least the scale the operand is copied bit for bit with no draw; a
carry that reaches 2^W is absent for C = 1 and faults OVERFLOW for C = 0. Ceiling's direction is the spec's general
knowledge (log 15). -/
def Obligations.RoundingFollowsItsMode : Prop :=
  ∀ (mode : RoundMode) (t : Tier) (c : Bool) (s : State), mode ≠ .fract → s.latch.a.valid t = true →
    (let a := s.latch.a.toDec
     let p := s.latch.arg.toNat
     let x : ℚ := roundQ mode (a.val * 10 ^ p) / 10 ^ p
     (a.scale ≤ p → ∃ u, exec (roundInstr mode t c) s = .next u ∧ ValueDone s u ∧ u.res = s.latch.a ∧
        u.draws = s.draws) ∧
     (p < a.scale → |x| < 2 ^ Config.width t → ∃ u, exec (roundInstr mode t c) s = .next u ∧ ValueDone s u ∧
        u.res.valid t = true ∧ u.res.toDec.val = x ∧ u.res.toDec.scale = p) ∧
     (p < a.scale → 2 ^ Config.width t ≤ |x| →
        exec (roundInstr mode t c) s = .next (overflowEnd s c .overflow)))

/-- 43_rounding.md R272: ROUND.TRUNC never overflows, and its result lies between zero and the operand. -/
def Obligations.RoundTruncNeverOverflows : Prop :=
  ∀ (t : Tier) (c : Bool) (s : State), s.latch.a.valid t = true →
    ∃ u, exec (.roundTrunc t c) s = .next u ∧ ValueDone s u ∧
      |u.res.toDec.val| ≤ |s.latch.a.toDec.val| ∧ 0 ≤ u.res.toDec.val * s.latch.a.toDec.val

/-- 43_rounding.md R262, R276: ROUND.FRACT gives the fractional part at the operand's own scale whatever the places, and
never overflows. -/
def Obligations.RoundFractIsTheFractionalPart : Prop :=
  ∀ (t : Tier) (c : Bool) (s : State), s.latch.a.valid t = true →
    ∃ u, exec (.roundFract t c) s = .next u ∧ ValueDone s u ∧ u.res.valid t = true ∧
      u.res.toDec.val = s.latch.a.toDec.val - truncQ s.latch.a.toDec.val ∧
      u.res.scale = s.latch.a.scale ∧ u.res.int = 0 ∧ u.res.frac = s.latch.a.frac

/-! ### The kernel -/

/-- 40_kernel.md R160, R161: MULW and MULQ write the exact product of the low bits; KR is unchanged. -/
def Obligations.MultiplyKernelsAreExact : Prop :=
  ∀ (t : Tier) (s : State),
    (∃ u, exec (.mulw t) s = .next u ∧ KernelDone s u ∧ u.kr = s.kr ∧
      u.kq.toNat = s.latch.ka.toNat % 2 ^ Config.width t * (s.latch.kb.toNat % 2 ^ Config.width t)) ∧
    (∃ u, exec .mulq s = .next u ∧ KernelDone s u ∧ u.kr = s.kr ∧
      u.kq.toNat = s.latch.ka.toNat % 2 ^ 256 * s.latch.kb.toNat)

/-- 40_kernel.md R162, 60_exceptions.md R307 (2), R320: DIVW writes quotient and remainder; a zero divisor faults first,
then a quotient too wide. -/
def Obligations.DivwWritesQuotientAndRemainder : Prop :=
  ∀ (t : Tier) (s : State),
    (let n := s.latch.ka.toNat % 2 ^ (2 * Config.width t)
     let d := s.latch.kb.toNat % 2 ^ Config.width t
     (d ≠ 0 → n < d * 2 ^ Config.width t → ∃ u, exec (.divw t) s = .next u ∧ KernelDone s u ∧
        u.kq.toNat * d + u.kr.toNat = n ∧ u.kr.toNat < d) ∧
     (d ≠ 0 → d * 2 ^ Config.width t ≤ n → exec (.divw t) s = .next (s.raiseFault .quotientOverflow)) ∧
     (d = 0 → exec (.divw t) s = .next (s.raiseFault .divByZero)))

/-- 40_kernel.md R163, 60_exceptions.md R307 (2), R320: DIVQ the same, at 512 by 256 bits. -/
def Obligations.DivqWritesQuotientAndRemainder : Prop :=
  ∀ s : State,
    (let n := s.latch.ka.toNat
     let d := s.latch.kb.toNat
     (d ≠ 0 → n < d * 2 ^ 256 → ∃ u, exec .divq s = .next u ∧ KernelDone s u ∧
        u.kq.toNat * d + u.kr.toNat = n ∧ u.kr.toNat < d) ∧
     (d ≠ 0 → d * 2 ^ 256 ≤ n → exec .divq s = .next (s.raiseFault .quotientOverflow)) ∧
     (d = 0 → exec .divq s = .next (s.raiseFault .divByZero)))

/-- 40_kernel.md R164, R149: ISQRT writes the largest r with r·r at most the operand, whatever its TIER bits; KR is
unchanged. -/
def Obligations.IsqrtIsTheFloorOfTheRoot : Prop :=
  ∀ (t : Tier) (s : State), ∃ u, exec (.isqrt t) s = .next u ∧ KernelDone s u ∧ u.kr = s.kr ∧
    u.kq.toNat * u.kq.toNat ≤ s.latch.ka.toNat ∧ s.latch.ka.toNat < (u.kq.toNat + 1) * (u.kq.toNat + 1)

/-! ### The datapath units against the exact results (10_state.md R52) -/

/-- 40_kernel.md R141: the limb adder's sum and carry, for any number of limbs. -/
def Obligations.LimbAdderIsExact : Prop :=
  ∀ w k a b c : Nat, a < 2 ^ (w * k) → b < 2 ^ (w * k) → c ≤ 1 →
    (Datapath.addLimbs w k a b c).1 + 2 ^ (w * k) * (Datapath.addLimbs w k a b c).2 = a + b + c ∧
      (Datapath.addLimbs w k a b c).1 < 2 ^ (w * k)

/-- 40_kernel.md R142: the limb subtractor's difference and borrow, and the limb comparison. -/
def Obligations.LimbSubtractorAndComparisonAreExact : Prop :=
  ∀ w k a b : Nat, 0 < w → a < 2 ^ (w * k) → b < 2 ^ (w * k) →
    (Datapath.subLimbs w k a b 0).1 = (a + 2 ^ (w * k) - b) % 2 ^ (w * k) ∧
    (Datapath.subLimbs w k a b 0).2 = (if a < b then 1 else 0) ∧
    Datapath.cmpLimbs w k a b = compare a b

/-- 40_kernel.md R143, R144: the multipliers built from partial products lose nothing. -/
def Obligations.MultiplierDatapathsAreExact : Prop :=
  (∀ h a b : Nat, a < 2 ^ (2 * h) → b < 2 ^ (2 * h) → Datapath.mulW (2 * h) a b = a * b) ∧
  (∀ a b : Nat, a < 2 ^ 256 → b < 2 ^ 256 → Datapath.mulQ a b = a * b)

/-- 40_kernel.md R145, R146, R147: Algorithm D with normalisation gives the exact quotient and remainder, at every even
word width and at the quad width, with at most two corrections of a digit. -/
def Obligations.LongDivisionDatapathIsExact : Prop :=
  (∀ w n d : Nat, 0 < w → d < 2 ^ (2 * w) → d ≠ 0 → n / 2 ^ (2 * w) < d →
    Datapath.divW (2 * w) n d = (n / d, n % d)) ∧
  (∀ n d : Nat, d < 2 ^ 256 → d ≠ 0 → n / 2 ^ 256 < d → Datapath.divQ n d = (n / d, n % d))

/-- 40_kernel.md R149: the Newton iteration with its final correction ends at the floor of the root. -/
def Obligations.NewtonIterationIsExact : Prop :=
  ∀ n : Nat, Datapath.newtonSqrt n * Datapath.newtonSqrt n ≤ n ∧
    n < (Datapath.newtonSqrt n + 1) * (Datapath.newtonSqrt n + 1)

/-- 41_arith.md R186, R187: what ADD writes is what the datapath's carry and borrow chains give, for operands of equal
signs and of different signs with the first the larger. -/
def Obligations.AddDatapathAgrees : Prop :=
  ∀ (t : Tier) (c : Bool) (s : State), s.latch.a.valid t = true → s.latch.b.valid t = true →
    (let a := s.latch.a.toDec
     let b := s.latch.b.toDec
     (a.neg = b.neg → Datapath.addParts t a b = none → exec (.add t c) s = .next (overflowEnd s c .overflow)) ∧
     (∀ i f, a.neg = b.neg → Datapath.addParts t a b = some (i, f) →
        ∃ u, exec (.add t c) s = .next u ∧ ValueDone s u ∧ u.res.int.toNat = i ∧ u.res.frac.toNat = f) ∧
     (a.neg ≠ b.neg → |b.val| ≤ |a.val| → ∃ u, exec (.add t c) s = .next u ∧ ValueDone s u ∧
        u.res.int.toNat = (Datapath.subParts a b).1 ∧ u.res.frac.toNat = (Datapath.subParts a b).2))

/-- 41_arith.md R189: the four partial products of MUL's path (b) sum to the product of the combined values. -/
def Obligations.MulPartialProductsSum : Prop :=
  ∀ a b : Dec, Datapath.mulPartialSum a b = a.comb * b.comb

/-! ### The parameter TARGET_SCALE -/

/-- 00_scope.md R8, R10: T is 1/8/18/37 after reset, no scale T(t) is above M(t), and no step changes it, a reset write
included. That the machine carries its parameter in the state is the model's choice (log 5). -/
def Obligations.TargetScaleIsFixedForTheMachine : Prop :=
  (∀ t, State.reset.target.of t = match t with
    | .tiny => 1 | .small => 8 | .standard => 18 | .wide => 37) ∧
  (∀ s u : State, step s = .next u → u.target = s.target) ∧
  (∀ (s : State) (t : Tier), s.target.of t ≤ Config.maxScale t)

/-- 00_scope.md R10: T is "the number of fractional digits that DIV always produces, and the scale that MUL truncates to";
beside them only REM and POW, built from the two, look at it (41_arith.md R188, R190, R192, R194). With any other T every
other command does the same. -/
def Obligations.OnlyFourCommandsUseTheTargetScale : Prop :=
  ∀ (i : Instr) (s : State) (T : Config.TargetScales),
    (∀ t c, i ≠ .mul t c) → (∀ t, i ≠ .div t) → (∀ t, i ≠ .rem t) → (∀ t c, i ≠ .pow t c) →
    ∃ u, exec i s = .next u ∧ exec i { s with target := T } = .next { u with target := T }

/-- 00_scope.md R10, 90_conflicts.md C1, 41_arith.md R191: under T = M, the other reading of the source, the exponent by
which DIV scales the dividend is never below zero, for valid operands; under the spec's T it is below zero exactly for a
dividend at scale M and a divisor at scale 0. -/
def Obligations.NegativeExponentNeedsTBelowM : Prop :=
  ∀ (t : Tier) (a b : Dec), a.valid t = true → b.valid t = true →
    (divQuotient Config.maxTargetScales t a b =
      a.comb * 10 ^ (Config.maxScale t + b.scale - a.scale) / b.comb) ∧
    ((targetScales.of t + b.scale < a.scale) ↔ (a.scale = Config.maxScale t ∧ b.scale = 0))
end

