-- ==== Sys2Proof/Laws/State.lean ====
section
/-! SUPPORT. One lemma for each field of the state under each named update, and of STATUS under each of its updates. -/

namespace Sys2Proof.Machine

/-! ### `raiseFault` -/

@[simp] theorem State.raiseFault_opa (s : State) (c : Cause) : (s.raiseFault c).opa = s.opa := rfl
@[simp] theorem State.raiseFault_opb (s : State) (c : Cause) : (s.raiseFault c).opb = s.opb := rfl
@[simp] theorem State.raiseFault_res (s : State) (c : Cause) : (s.raiseFault c).res = s.res := rfl
@[simp] theorem State.raiseFault_arg (s : State) (c : Cause) : (s.raiseFault c).arg = s.arg := rfl
@[simp] theorem State.raiseFault_ka (s : State) (c : Cause) : (s.raiseFault c).ka = s.ka := rfl
@[simp] theorem State.raiseFault_kb (s : State) (c : Cause) : (s.raiseFault c).kb = s.kb := rfl
@[simp] theorem State.raiseFault_kq (s : State) (c : Cause) : (s.raiseFault c).kq = s.kq := rfl
@[simp] theorem State.raiseFault_kr (s : State) (c : Cause) : (s.raiseFault c).kr = s.kr := rfl
@[simp] theorem State.raiseFault_cmd (s : State) (c : Cause) : (s.raiseFault c).cmd = s.cmd := rfl
@[simp] theorem State.raiseFault_status (s : State) (c : Cause) : (s.raiseFault c).status = s.status.faulted c := rfl
@[simp] theorem State.raiseFault_latch (s : State) (c : Cause) : (s.raiseFault c).latch = s.latch := rfl
@[simp] theorem State.raiseFault_pending (s : State) (c : Cause) : (s.raiseFault c).pending = false := rfl
@[simp] theorem State.raiseFault_latency (s : State) (c : Cause) : (s.raiseFault c).latency = s.latency := rfl
@[simp] theorem State.raiseFault_draws (s : State) (c : Cause) : (s.raiseFault c).draws = s.draws := rfl
@[simp] theorem State.raiseFault_prog (s : State) (c : Cause) : (s.raiseFault c).prog = s.prog := rfl
@[simp] theorem State.raiseFault_hostPc (s : State) (c : Cause) : (s.raiseFault c).hostPc = s.hostPc := rfl
@[simp] theorem State.raiseFault_temps (s : State) (c : Cause) : (s.raiseFault c).temps = s.temps := rfl
@[simp] theorem State.raiseFault_target (s : State) (c : Cause) : (s.raiseFault c).target = s.target := rfl

/-! ### `resetUnit` -/

@[simp] theorem State.resetUnit_opa (s : State) : (s.resetUnit).opa = State.reset.opa := rfl
@[simp] theorem State.resetUnit_opb (s : State) : (s.resetUnit).opb = State.reset.opb := rfl
@[simp] theorem State.resetUnit_res (s : State) : (s.resetUnit).res = State.reset.res := rfl
@[simp] theorem State.resetUnit_arg (s : State) : (s.resetUnit).arg = State.reset.arg := rfl
@[simp] theorem State.resetUnit_ka (s : State) : (s.resetUnit).ka = State.reset.ka := rfl
@[simp] theorem State.resetUnit_kb (s : State) : (s.resetUnit).kb = State.reset.kb := rfl
@[simp] theorem State.resetUnit_kq (s : State) : (s.resetUnit).kq = State.reset.kq := rfl
@[simp] theorem State.resetUnit_kr (s : State) : (s.resetUnit).kr = State.reset.kr := rfl
@[simp] theorem State.resetUnit_cmd (s : State) : (s.resetUnit).cmd = State.reset.cmd := rfl
@[simp] theorem State.resetUnit_status (s : State) : (s.resetUnit).status = State.reset.status := rfl
@[simp] theorem State.resetUnit_latch (s : State) : (s.resetUnit).latch = State.reset.latch := rfl
@[simp] theorem State.resetUnit_pending (s : State) : (s.resetUnit).pending = State.reset.pending := rfl
@[simp] theorem State.resetUnit_latency (s : State) : (s.resetUnit).latency = State.reset.latency := rfl
@[simp] theorem State.resetUnit_draws (s : State) : (s.resetUnit).draws = s.draws := rfl
@[simp] theorem State.resetUnit_prog (s : State) : (s.resetUnit).prog = s.prog := rfl
@[simp] theorem State.resetUnit_hostPc (s : State) : (s.resetUnit).hostPc = s.hostPc := rfl
@[simp] theorem State.resetUnit_temps (s : State) : (s.resetUnit).temps = s.temps := rfl
@[simp] theorem State.resetUnit_target (s : State) : (s.resetUnit).target = s.target := rfl

/-! ### `absent` -/

@[simp] theorem State.absent_opa (s : State) : (s.absent).opa = s.opa := rfl
@[simp] theorem State.absent_opb (s : State) : (s.absent).opb = s.opb := rfl
@[simp] theorem State.absent_res (s : State) : (s.absent).res = s.res := rfl
@[simp] theorem State.absent_arg (s : State) : (s.absent).arg = s.arg := rfl
@[simp] theorem State.absent_ka (s : State) : (s.absent).ka = s.ka := rfl
@[simp] theorem State.absent_kb (s : State) : (s.absent).kb = s.kb := rfl
@[simp] theorem State.absent_kq (s : State) : (s.absent).kq = s.kq := rfl
@[simp] theorem State.absent_kr (s : State) : (s.absent).kr = s.kr := rfl
@[simp] theorem State.absent_cmd (s : State) : (s.absent).cmd = s.cmd := rfl
@[simp] theorem State.absent_status (s : State) : (s.absent).status = s.status.absented := rfl
@[simp] theorem State.absent_latch (s : State) : (s.absent).latch = s.latch := rfl
@[simp] theorem State.absent_pending (s : State) : (s.absent).pending = false := rfl
@[simp] theorem State.absent_latency (s : State) : (s.absent).latency = s.latency := rfl
@[simp] theorem State.absent_draws (s : State) : (s.absent).draws = s.draws := rfl
@[simp] theorem State.absent_prog (s : State) : (s.absent).prog = s.prog := rfl
@[simp] theorem State.absent_hostPc (s : State) : (s.absent).hostPc = s.hostPc := rfl
@[simp] theorem State.absent_temps (s : State) : (s.absent).temps = s.temps := rfl
@[simp] theorem State.absent_target (s : State) : (s.absent).target = s.target := rfl

/-! ### `completeValue` -/

@[simp] theorem State.completeValue_opa (s : State) (v : Dec) (k : Nat) : (s.completeValue v k).opa = s.opa := rfl
@[simp] theorem State.completeValue_opb (s : State) (v : Dec) (k : Nat) : (s.completeValue v k).opb = s.opb := rfl
@[simp] theorem State.completeValue_res (s : State) (v : Dec) (k : Nat) : (s.completeValue v k).res = v.toReg := rfl
@[simp] theorem State.completeValue_arg (s : State) (v : Dec) (k : Nat) : (s.completeValue v k).arg = s.arg := rfl
@[simp] theorem State.completeValue_ka (s : State) (v : Dec) (k : Nat) : (s.completeValue v k).ka = s.ka := rfl
@[simp] theorem State.completeValue_kb (s : State) (v : Dec) (k : Nat) : (s.completeValue v k).kb = s.kb := rfl
@[simp] theorem State.completeValue_kq (s : State) (v : Dec) (k : Nat) : (s.completeValue v k).kq = s.kq := rfl
@[simp] theorem State.completeValue_kr (s : State) (v : Dec) (k : Nat) : (s.completeValue v k).kr = s.kr := rfl
@[simp] theorem State.completeValue_cmd (s : State) (v : Dec) (k : Nat) : (s.completeValue v k).cmd = s.cmd := rfl
@[simp] theorem State.completeValue_status (s : State) (v : Dec) (k : Nat) : (s.completeValue v k).status = s.status.completed := rfl
@[simp] theorem State.completeValue_latch (s : State) (v : Dec) (k : Nat) : (s.completeValue v k).latch = s.latch := rfl
@[simp] theorem State.completeValue_pending (s : State) (v : Dec) (k : Nat) : (s.completeValue v k).pending = false := rfl
@[simp] theorem State.completeValue_latency (s : State) (v : Dec) (k : Nat) : (s.completeValue v k).latency = s.latency := rfl
@[simp] theorem State.completeValue_draws (s : State) (v : Dec) (k : Nat) : (s.completeValue v k).draws = k := rfl
@[simp] theorem State.completeValue_prog (s : State) (v : Dec) (k : Nat) : (s.completeValue v k).prog = s.prog := rfl
@[simp] theorem State.completeValue_hostPc (s : State) (v : Dec) (k : Nat) : (s.completeValue v k).hostPc = s.hostPc := rfl
@[simp] theorem State.completeValue_temps (s : State) (v : Dec) (k : Nat) : (s.completeValue v k).temps = s.temps := rfl
@[simp] theorem State.completeValue_target (s : State) (v : Dec) (k : Nat) : (s.completeValue v k).target = s.target := rfl

/-! ### `completeCmp` -/

@[simp] theorem State.completeCmp_opa (s : State) (o : Ordering) : (s.completeCmp o).opa = s.opa := rfl
@[simp] theorem State.completeCmp_opb (s : State) (o : Ordering) : (s.completeCmp o).opb = s.opb := rfl
@[simp] theorem State.completeCmp_res (s : State) (o : Ordering) : (s.completeCmp o).res = s.res := rfl
@[simp] theorem State.completeCmp_arg (s : State) (o : Ordering) : (s.completeCmp o).arg = s.arg := rfl
@[simp] theorem State.completeCmp_ka (s : State) (o : Ordering) : (s.completeCmp o).ka = s.ka := rfl
@[simp] theorem State.completeCmp_kb (s : State) (o : Ordering) : (s.completeCmp o).kb = s.kb := rfl
@[simp] theorem State.completeCmp_kq (s : State) (o : Ordering) : (s.completeCmp o).kq = s.kq := rfl
@[simp] theorem State.completeCmp_kr (s : State) (o : Ordering) : (s.completeCmp o).kr = s.kr := rfl
@[simp] theorem State.completeCmp_cmd (s : State) (o : Ordering) : (s.completeCmp o).cmd = s.cmd := rfl
@[simp] theorem State.completeCmp_status (s : State) (o : Ordering) : (s.completeCmp o).status = s.status.compared o := rfl
@[simp] theorem State.completeCmp_latch (s : State) (o : Ordering) : (s.completeCmp o).latch = s.latch := rfl
@[simp] theorem State.completeCmp_pending (s : State) (o : Ordering) : (s.completeCmp o).pending = false := rfl
@[simp] theorem State.completeCmp_latency (s : State) (o : Ordering) : (s.completeCmp o).latency = s.latency := rfl
@[simp] theorem State.completeCmp_draws (s : State) (o : Ordering) : (s.completeCmp o).draws = s.draws := rfl
@[simp] theorem State.completeCmp_prog (s : State) (o : Ordering) : (s.completeCmp o).prog = s.prog := rfl
@[simp] theorem State.completeCmp_hostPc (s : State) (o : Ordering) : (s.completeCmp o).hostPc = s.hostPc := rfl
@[simp] theorem State.completeCmp_temps (s : State) (o : Ordering) : (s.completeCmp o).temps = s.temps := rfl
@[simp] theorem State.completeCmp_target (s : State) (o : Ordering) : (s.completeCmp o).target = s.target := rfl

/-! ### `completeKq` -/

@[simp] theorem State.completeKq_opa (s : State) (q : Nat) : (s.completeKq q).opa = s.opa := rfl
@[simp] theorem State.completeKq_opb (s : State) (q : Nat) : (s.completeKq q).opb = s.opb := rfl
@[simp] theorem State.completeKq_res (s : State) (q : Nat) : (s.completeKq q).res = s.res := rfl
@[simp] theorem State.completeKq_arg (s : State) (q : Nat) : (s.completeKq q).arg = s.arg := rfl
@[simp] theorem State.completeKq_ka (s : State) (q : Nat) : (s.completeKq q).ka = s.ka := rfl
@[simp] theorem State.completeKq_kb (s : State) (q : Nat) : (s.completeKq q).kb = s.kb := rfl
@[simp] theorem State.completeKq_kq (s : State) (q : Nat) : (s.completeKq q).kq = BitVec.ofNat 512 q := rfl
@[simp] theorem State.completeKq_kr (s : State) (q : Nat) : (s.completeKq q).kr = s.kr := rfl
@[simp] theorem State.completeKq_cmd (s : State) (q : Nat) : (s.completeKq q).cmd = s.cmd := rfl
@[simp] theorem State.completeKq_status (s : State) (q : Nat) : (s.completeKq q).status = s.status.completed := rfl
@[simp] theorem State.completeKq_latch (s : State) (q : Nat) : (s.completeKq q).latch = s.latch := rfl
@[simp] theorem State.completeKq_pending (s : State) (q : Nat) : (s.completeKq q).pending = false := rfl
@[simp] theorem State.completeKq_latency (s : State) (q : Nat) : (s.completeKq q).latency = s.latency := rfl
@[simp] theorem State.completeKq_draws (s : State) (q : Nat) : (s.completeKq q).draws = s.draws := rfl
@[simp] theorem State.completeKq_prog (s : State) (q : Nat) : (s.completeKq q).prog = s.prog := rfl
@[simp] theorem State.completeKq_hostPc (s : State) (q : Nat) : (s.completeKq q).hostPc = s.hostPc := rfl
@[simp] theorem State.completeKq_temps (s : State) (q : Nat) : (s.completeKq q).temps = s.temps := rfl
@[simp] theorem State.completeKq_target (s : State) (q : Nat) : (s.completeKq q).target = s.target := rfl

/-! ### `completeKqKr` -/

@[simp] theorem State.completeKqKr_opa (s : State) (q r : Nat) : (s.completeKqKr q r).opa = s.opa := rfl
@[simp] theorem State.completeKqKr_opb (s : State) (q r : Nat) : (s.completeKqKr q r).opb = s.opb := rfl
@[simp] theorem State.completeKqKr_res (s : State) (q r : Nat) : (s.completeKqKr q r).res = s.res := rfl
@[simp] theorem State.completeKqKr_arg (s : State) (q r : Nat) : (s.completeKqKr q r).arg = s.arg := rfl
@[simp] theorem State.completeKqKr_ka (s : State) (q r : Nat) : (s.completeKqKr q r).ka = s.ka := rfl
@[simp] theorem State.completeKqKr_kb (s : State) (q r : Nat) : (s.completeKqKr q r).kb = s.kb := rfl
@[simp] theorem State.completeKqKr_kq (s : State) (q r : Nat) : (s.completeKqKr q r).kq = BitVec.ofNat 512 q := rfl
@[simp] theorem State.completeKqKr_kr (s : State) (q r : Nat) : (s.completeKqKr q r).kr = BitVec.ofNat 256 r := rfl
@[simp] theorem State.completeKqKr_cmd (s : State) (q r : Nat) : (s.completeKqKr q r).cmd = s.cmd := rfl
@[simp] theorem State.completeKqKr_status (s : State) (q r : Nat) : (s.completeKqKr q r).status = s.status.completed := rfl
@[simp] theorem State.completeKqKr_latch (s : State) (q r : Nat) : (s.completeKqKr q r).latch = s.latch := rfl
@[simp] theorem State.completeKqKr_pending (s : State) (q r : Nat) : (s.completeKqKr q r).pending = false := rfl
@[simp] theorem State.completeKqKr_latency (s : State) (q r : Nat) : (s.completeKqKr q r).latency = s.latency := rfl
@[simp] theorem State.completeKqKr_draws (s : State) (q r : Nat) : (s.completeKqKr q r).draws = s.draws := rfl
@[simp] theorem State.completeKqKr_prog (s : State) (q r : Nat) : (s.completeKqKr q r).prog = s.prog := rfl
@[simp] theorem State.completeKqKr_hostPc (s : State) (q r : Nat) : (s.completeKqKr q r).hostPc = s.hostPc := rfl
@[simp] theorem State.completeKqKr_temps (s : State) (q r : Nat) : (s.completeKqKr q r).temps = s.temps := rfl
@[simp] theorem State.completeKqKr_target (s : State) (q r : Nat) : (s.completeKqKr q r).target = s.target := rfl

/-! ### `accept` -/

@[simp] theorem State.accept_opa (s : State) (w : Word) : (s.accept w).opa = s.opa := rfl
@[simp] theorem State.accept_opb (s : State) (w : Word) : (s.accept w).opb = s.opb := rfl
@[simp] theorem State.accept_res (s : State) (w : Word) : (s.accept w).res = s.res := rfl
@[simp] theorem State.accept_arg (s : State) (w : Word) : (s.accept w).arg = s.arg := rfl
@[simp] theorem State.accept_ka (s : State) (w : Word) : (s.accept w).ka = s.ka := rfl
@[simp] theorem State.accept_kb (s : State) (w : Word) : (s.accept w).kb = s.kb := rfl
@[simp] theorem State.accept_kq (s : State) (w : Word) : (s.accept w).kq = s.kq := rfl
@[simp] theorem State.accept_kr (s : State) (w : Word) : (s.accept w).kr = s.kr := rfl
@[simp] theorem State.accept_cmd (s : State) (w : Word) : (s.accept w).cmd = w := rfl
@[simp] theorem State.accept_status (s : State) (w : Word) : (s.accept w).status = s.status.issued := rfl
@[simp] theorem State.accept_latch (s : State) (w : Word) : (s.accept w).latch = { cmd := w, a := s.opa, b := s.opb, arg := s.arg, ka := s.ka, kb := s.kb } := rfl
@[simp] theorem State.accept_pending (s : State) (w : Word) : (s.accept w).pending = true := rfl
@[simp] theorem State.accept_latency (s : State) (w : Word) : (s.accept w).latency = Config.latency s.draws := rfl
@[simp] theorem State.accept_draws (s : State) (w : Word) : (s.accept w).draws = s.draws + 1 := rfl
@[simp] theorem State.accept_prog (s : State) (w : Word) : (s.accept w).prog = s.prog := rfl
@[simp] theorem State.accept_hostPc (s : State) (w : Word) : (s.accept w).hostPc = s.hostPc := rfl
@[simp] theorem State.accept_temps (s : State) (w : Word) : (s.accept w).temps = s.temps := rfl
@[simp] theorem State.accept_target (s : State) (w : Word) : (s.accept w).target = s.target := rfl

/-! ### `dropIssue` -/

@[simp] theorem State.dropIssue_opa (s : State) : (s.dropIssue).opa = s.opa := rfl
@[simp] theorem State.dropIssue_opb (s : State) : (s.dropIssue).opb = s.opb := rfl
@[simp] theorem State.dropIssue_res (s : State) : (s.dropIssue).res = s.res := rfl
@[simp] theorem State.dropIssue_arg (s : State) : (s.dropIssue).arg = s.arg := rfl
@[simp] theorem State.dropIssue_ka (s : State) : (s.dropIssue).ka = s.ka := rfl
@[simp] theorem State.dropIssue_kb (s : State) : (s.dropIssue).kb = s.kb := rfl
@[simp] theorem State.dropIssue_kq (s : State) : (s.dropIssue).kq = s.kq := rfl
@[simp] theorem State.dropIssue_kr (s : State) : (s.dropIssue).kr = s.kr := rfl
@[simp] theorem State.dropIssue_cmd (s : State) : (s.dropIssue).cmd = s.cmd := rfl
@[simp] theorem State.dropIssue_status (s : State) : (s.dropIssue).status = s.status.drop := rfl
@[simp] theorem State.dropIssue_latch (s : State) : (s.dropIssue).latch = s.latch := rfl
@[simp] theorem State.dropIssue_pending (s : State) : (s.dropIssue).pending = s.pending := rfl
@[simp] theorem State.dropIssue_latency (s : State) : (s.dropIssue).latency = s.latency := rfl
@[simp] theorem State.dropIssue_draws (s : State) : (s.dropIssue).draws = s.draws := rfl
@[simp] theorem State.dropIssue_prog (s : State) : (s.dropIssue).prog = s.prog := rfl
@[simp] theorem State.dropIssue_hostPc (s : State) : (s.dropIssue).hostPc = s.hostPc := rfl
@[simp] theorem State.dropIssue_temps (s : State) : (s.dropIssue).temps = s.temps := rfl
@[simp] theorem State.dropIssue_target (s : State) : (s.dropIssue).target = s.target := rfl

/-! ### `advanceHost` -/

@[simp] theorem State.advanceHost_opa (s : State) : (s.advanceHost).opa = s.opa := rfl
@[simp] theorem State.advanceHost_opb (s : State) : (s.advanceHost).opb = s.opb := rfl
@[simp] theorem State.advanceHost_res (s : State) : (s.advanceHost).res = s.res := rfl
@[simp] theorem State.advanceHost_arg (s : State) : (s.advanceHost).arg = s.arg := rfl
@[simp] theorem State.advanceHost_ka (s : State) : (s.advanceHost).ka = s.ka := rfl
@[simp] theorem State.advanceHost_kb (s : State) : (s.advanceHost).kb = s.kb := rfl
@[simp] theorem State.advanceHost_kq (s : State) : (s.advanceHost).kq = s.kq := rfl
@[simp] theorem State.advanceHost_kr (s : State) : (s.advanceHost).kr = s.kr := rfl
@[simp] theorem State.advanceHost_cmd (s : State) : (s.advanceHost).cmd = s.cmd := rfl
@[simp] theorem State.advanceHost_status (s : State) : (s.advanceHost).status = s.status := rfl
@[simp] theorem State.advanceHost_latch (s : State) : (s.advanceHost).latch = s.latch := rfl
@[simp] theorem State.advanceHost_pending (s : State) : (s.advanceHost).pending = s.pending := rfl
@[simp] theorem State.advanceHost_latency (s : State) : (s.advanceHost).latency = s.latency - 1 := rfl
@[simp] theorem State.advanceHost_draws (s : State) : (s.advanceHost).draws = s.draws := rfl
@[simp] theorem State.advanceHost_prog (s : State) : (s.advanceHost).prog = s.prog := rfl
@[simp] theorem State.advanceHost_hostPc (s : State) : (s.advanceHost).hostPc = s.hostPc + 1 := rfl
@[simp] theorem State.advanceHost_temps (s : State) : (s.advanceHost).temps = s.temps := rfl
@[simp] theorem State.advanceHost_target (s : State) : (s.advanceHost).target = s.target := rfl

/-! ### `withFetchWord` -/

@[simp] theorem State.withFetchWord_opa (s : State) (nbits w : Nat) : (s.withFetchWord nbits w).opa = s.opa := rfl
@[simp] theorem State.withFetchWord_opb (s : State) (nbits w : Nat) : (s.withFetchWord nbits w).opb = s.opb := rfl
@[simp] theorem State.withFetchWord_res (s : State) (nbits w : Nat) : (s.withFetchWord nbits w).res = s.res := rfl
@[simp] theorem State.withFetchWord_arg (s : State) (nbits w : Nat) : (s.withFetchWord nbits w).arg = s.arg := rfl
@[simp] theorem State.withFetchWord_ka (s : State) (nbits w : Nat) : (s.withFetchWord nbits w).ka = s.ka := rfl
@[simp] theorem State.withFetchWord_kb (s : State) (nbits w : Nat) : (s.withFetchWord nbits w).kb = s.kb := rfl
@[simp] theorem State.withFetchWord_kq (s : State) (nbits w : Nat) : (s.withFetchWord nbits w).kq = s.kq := rfl
@[simp] theorem State.withFetchWord_kr (s : State) (nbits w : Nat) : (s.withFetchWord nbits w).kr = s.kr := rfl
@[simp] theorem State.withFetchWord_cmd (s : State) (nbits w : Nat) : (s.withFetchWord nbits w).cmd = BitVec.ofNat 32 (w % 2 ^ nbits) := rfl
@[simp] theorem State.withFetchWord_status (s : State) (nbits w : Nat) : (s.withFetchWord nbits w).status = s.status.issued := rfl
@[simp] theorem State.withFetchWord_latch (s : State) (nbits w : Nat) : (s.withFetchWord nbits w).latch = { cmd := BitVec.ofNat 32 (w % 2 ^ nbits), a := s.opa, b := s.opb, arg := s.arg, ka := s.ka, kb := s.kb } := rfl
@[simp] theorem State.withFetchWord_pending (s : State) (nbits w : Nat) : (s.withFetchWord nbits w).pending = true := rfl
@[simp] theorem State.withFetchWord_latency (s : State) (nbits w : Nat) : (s.withFetchWord nbits w).latency = 0 := rfl
@[simp] theorem State.withFetchWord_draws (s : State) (nbits w : Nat) : (s.withFetchWord nbits w).draws = s.draws := rfl
@[simp] theorem State.withFetchWord_prog (s : State) (nbits w : Nat) : (s.withFetchWord nbits w).prog = s.prog := rfl
@[simp] theorem State.withFetchWord_hostPc (s : State) (nbits w : Nat) : (s.withFetchWord nbits w).hostPc = s.hostPc := rfl
@[simp] theorem State.withFetchWord_temps (s : State) (nbits w : Nat) : (s.withFetchWord nbits w).temps = s.temps := rfl
@[simp] theorem State.withFetchWord_target (s : State) (nbits w : Nat) : (s.withFetchWord nbits w).target = s.target := rfl

/-! ### `Status.issued` -/

@[simp] theorem Status.issued_busy (s : Status) : (s.issued).busy = true := rfl
@[simp] theorem Status.issued_done (s : Status) : (s.issued).done = false := rfl
@[simp] theorem Status.issued_absent (s : Status) : (s.issued).absent = false := rfl
@[simp] theorem Status.issued_fault (s : Status) : (s.issued).fault = s.fault := rfl
@[simp] theorem Status.issued_cause (s : Status) : (s.issued).cause = s.cause := rfl
@[simp] theorem Status.issued_cmp (s : Status) : (s.issued).cmp = .none := rfl
@[simp] theorem Status.issued_dropped (s : Status) : (s.issued).dropped = false := rfl

/-! ### `Status.drop` -/

@[simp] theorem Status.drop_busy (s : Status) : (s.drop).busy = s.busy := rfl
@[simp] theorem Status.drop_done (s : Status) : (s.drop).done = s.done := rfl
@[simp] theorem Status.drop_absent (s : Status) : (s.drop).absent = s.absent := rfl
@[simp] theorem Status.drop_fault (s : Status) : (s.drop).fault = s.fault := rfl
@[simp] theorem Status.drop_cause (s : Status) : (s.drop).cause = s.cause := rfl
@[simp] theorem Status.drop_cmp (s : Status) : (s.drop).cmp = s.cmp := rfl
@[simp] theorem Status.drop_dropped (s : Status) : (s.drop).dropped = true := rfl

/-! ### `Status.completed` -/

@[simp] theorem Status.completed_busy (s : Status) : (s.completed).busy = false := rfl
@[simp] theorem Status.completed_done (s : Status) : (s.completed).done = true := rfl
@[simp] theorem Status.completed_absent (s : Status) : (s.completed).absent = s.absent := rfl
@[simp] theorem Status.completed_fault (s : Status) : (s.completed).fault = s.fault := rfl
@[simp] theorem Status.completed_cause (s : Status) : (s.completed).cause = s.cause := rfl
@[simp] theorem Status.completed_cmp (s : Status) : (s.completed).cmp = s.cmp := rfl
@[simp] theorem Status.completed_dropped (s : Status) : (s.completed).dropped = s.dropped := rfl

/-! ### `Status.compared` -/

@[simp] theorem Status.compared_busy (s : Status) (o : Ordering) : (s.compared o).busy = false := rfl
@[simp] theorem Status.compared_done (s : Status) (o : Ordering) : (s.compared o).done = true := rfl
@[simp] theorem Status.compared_absent (s : Status) (o : Ordering) : (s.compared o).absent = s.absent := rfl
@[simp] theorem Status.compared_fault (s : Status) (o : Ordering) : (s.compared o).fault = s.fault := rfl
@[simp] theorem Status.compared_cause (s : Status) (o : Ordering) : (s.compared o).cause = s.cause := rfl
@[simp] theorem Status.compared_cmp (s : Status) (o : Ordering) : (s.compared o).cmp = cmpFieldOf o := rfl
@[simp] theorem Status.compared_dropped (s : Status) (o : Ordering) : (s.compared o).dropped = s.dropped := rfl

/-! ### `Status.absented` -/

@[simp] theorem Status.absented_busy (s : Status) : (s.absented).busy = false := rfl
@[simp] theorem Status.absented_done (s : Status) : (s.absented).done = true := rfl
@[simp] theorem Status.absented_absent (s : Status) : (s.absented).absent = true := rfl
@[simp] theorem Status.absented_fault (s : Status) : (s.absented).fault = s.fault := rfl
@[simp] theorem Status.absented_cause (s : Status) : (s.absented).cause = s.cause := rfl
@[simp] theorem Status.absented_cmp (s : Status) : (s.absented).cmp = s.cmp := rfl
@[simp] theorem Status.absented_dropped (s : Status) : (s.absented).dropped = s.dropped := rfl

/-! ### `Status.faulted` -/

@[simp] theorem Status.faulted_busy (s : Status) (c : Cause) : (s.faulted c).busy = false := rfl
@[simp] theorem Status.faulted_done (s : Status) (c : Cause) : (s.faulted c).done = false := rfl
@[simp] theorem Status.faulted_absent (s : Status) (c : Cause) : (s.faulted c).absent = false := rfl
@[simp] theorem Status.faulted_fault (s : Status) (c : Cause) : (s.faulted c).fault = true := rfl
@[simp] theorem Status.faulted_cause (s : Status) (c : Cause) : (s.faulted c).cause = c := rfl
@[simp] theorem Status.faulted_cmp (s : Status) (c : Cause) : (s.faulted c).cmp = s.cmp := rfl
@[simp] theorem Status.faulted_dropped (s : Status) (c : Cause) : (s.faulted c).dropped = s.dropped := rfl

end Sys2Proof.Machine
end

