-- ==== Sys2Proof/Laws/Decimal.lean ====
section
/-! SUPPORT. The tiers' numbers, values as numbers, and the one thing `mkDec` can do. -/

namespace Sys2Proof

/-! ### The tiers' numbers (00_scope.md R8, R9) -/

theorem Config.width_le (t : Tier) : Config.width t ≤ 128 := by cases t <;> decide

theorem Config.maxScale_le (t : Tier) : Config.maxScale t ≤ 38 := by cases t <;> decide

/-- T(t) is at most M(t), whatever T (00_scope.md R10). -/
theorem Config.TargetScales.of_le (T : Config.TargetScales) (t : Tier) : T.of t ≤ Config.maxScale t := by
  cases t <;> exact Nat.lt_succ_iff.1 (Fin.isLt _)

theorem Config.sqrtDigits_le (t : Tier) : Config.sqrtDigits t ≤ Config.maxScale t := by cases t <;> decide

theorem Config.maxScale_le_sqrtDigits (t : Tier) : Config.maxScale t ≤ 2 * Config.sqrtDigits t := by
  cases t <;> decide

theorem Config.sqrt0Scale_le (t : Tier) (k : Nat) : Config.sqrt0Scale t k ≤ Config.maxScale t :=
  Nat.le_of_lt_succ (Nat.mod_lt _ (Nat.succ_pos _))

theorem Config.pow_maxScale_lt (t : Tier) : 10 ^ Config.maxScale t < 2 ^ Config.width t := by
  cases t <;> norm_num [Config.maxScale, Config.width]

theorem Config.pow_scale_lt {t : Tier} {s : Nat} (h : s ≤ Config.maxScale t) : 10 ^ s < 2 ^ Config.width t :=
  lt_of_le_of_lt (Nat.pow_le_pow_right (by norm_num) h) (Config.pow_maxScale_lt t)

end Sys2Proof

namespace Sys2Proof.Machine

/-! ### Validity (10_state.md R32) -/

theorem Dec.valid_iff {t : Tier} {x : Dec} :
    x.valid t = true ↔ x.int < 2 ^ Config.width t ∧ x.scale ≤ Config.maxScale t ∧ x.frac < 10 ^ x.scale := by
  simp only [Dec.valid, Bool.and_eq_true, decide_eq_true_eq]
  constructor
  · rintro ⟨⟨⟨h1, -⟩, h3⟩, h4⟩
    exact ⟨h1, h3, h4⟩
  · rintro ⟨h1, h3, h4⟩
    exact ⟨⟨⟨h1, h4.trans (Config.pow_scale_lt h3)⟩, h3⟩, h4⟩

theorem Dec.valid_wide {t : Tier} {x : Dec} (h : x.valid t = true) : x.valid .wide = true := by
  obtain ⟨h1, h2, h3⟩ := Dec.valid_iff.1 h
  exact Dec.valid_iff.2
    ⟨h1.trans_le (Nat.pow_le_pow_right (by norm_num) (Config.width_le t)), h2.trans (Config.maxScale_le t), h3⟩

/-- A valid value stands in a register without loss. -/
theorem Dec.toReg_toDec {t : Tier} {x : Dec} (h : x.valid t = true) : x.toReg.toDec = x := by
  obtain ⟨h1, h2, h3⟩ := Dec.valid_iff.1 (Dec.valid_wide h)
  have h4 := h3.trans (Config.pow_scale_lt h2)
  simp only [Config.width, Config.maxScale] at h1 h2 h4
  cases x
  simp only [Dec.toReg, DecReg.toDec, BitVec.toNat_ofNat, Dec.mk.injEq, and_true]
  exact ⟨Nat.mod_eq_of_lt h1, Nat.mod_eq_of_lt h4, Nat.mod_eq_of_lt (by norm_num at h2 ⊢; omega)⟩

theorem DecReg.toDec_toReg (r : DecReg) : r.toDec.toReg = r := by
  cases r
  simp [DecReg.toDec, Dec.toReg]

theorem Dec.toReg_valid {t : Tier} {x : Dec} (h : x.valid t = true) : x.toReg.valid t = true := by
  rw [DecReg.valid, Dec.toReg_toDec h, h]

/-! ### Values as numbers (00_scope.md R19) -/

/-- The factor a sign bit stands for. -/
def signFactor (n : Bool) : ℚ := if n then -1 else 1

@[simp] theorem signFactor_true : signFactor true = -1 := rfl
@[simp] theorem signFactor_false : signFactor false = 1 := rfl
@[simp] theorem signFactor_not (n : Bool) : signFactor (!n) = -signFactor n := by cases n <;> simp
@[simp] theorem signFactor_xor (m n : Bool) : signFactor (xor m n) = signFactor m * signFactor n := by
  cases m <;> cases n <;> simp
@[simp] theorem signFactor_mul_self (n : Bool) : signFactor n * signFactor n = 1 := by cases n <;> simp
@[simp] theorem abs_signFactor (n : Bool) : |signFactor n| = 1 := by cases n <;> simp

theorem pow10_pos (s : Nat) : (0 : ℚ) < 10 ^ s := by positivity
theorem pow10_ne (s : Nat) : (10 : ℚ) ^ s ≠ 0 := (pow10_pos s).ne'

theorem Dec.val_eq (x : Dec) : x.val = signFactor x.neg * (x.comb / 10 ^ x.scale) := by
  unfold Dec.val Dec.mag signFactor
  split <;> ring

theorem Dec.mag_nonneg (x : Dec) : 0 ≤ x.mag := by unfold Dec.mag; positivity

theorem Dec.abs_val (x : Dec) : |x.val| = x.mag := by
  rw [Dec.val_eq, abs_mul, abs_signFactor, one_mul, abs_of_nonneg (by positivity)]; rfl

theorem Dec.val_negate (x : Dec) : x.negate.val = -x.val := by
  simp only [Dec.val_eq, Dec.negate, Dec.comb, signFactor_not]; ring

theorem Dec.val_eq_zero {x : Dec} : x.val = 0 ↔ x.comb = 0 := by
  rw [← abs_eq_zero, Dec.abs_val, Dec.mag, div_eq_zero_iff]
  simp

theorem Dec.isZero_iff {x : Dec} : x.isZero = true ↔ x.comb = 0 := by simp [Dec.isZero]

/-- A valid value's integer part, split off its combined value. -/
theorem Dec.comb_div {x : Dec} (h : x.frac < 10 ^ x.scale) : x.comb / 10 ^ x.scale = x.int := by
  rw [Dec.comb, Nat.add_comm, Nat.add_mul_div_right _ _ (by positivity), Nat.div_eq_of_lt h, Nat.zero_add]

theorem Dec.comb_mod {x : Dec} (h : x.frac < 10 ^ x.scale) : x.comb % 10 ^ x.scale = x.frac := by
  rw [Dec.comb, Nat.add_comm, Nat.add_mul_mod_self_right, Nat.mod_eq_of_lt h]

theorem Dec.comb_lt {t : Tier} {x : Dec} (h : x.valid t = true) : x.comb < 2 ^ Config.width t * 10 ^ x.scale := by
  obtain ⟨h1, -, h3⟩ := Dec.valid_iff.1 h
  rw [← Nat.div_lt_iff_lt_mul (by positivity), Dec.comb_div h3]
  exact h1

theorem Dec.mag_lt {t : Tier} {x : Dec} (h : x.valid t = true) : x.mag < 2 ^ Config.width t := by
  rw [Dec.mag, div_lt_iff₀ (pow10_pos _)]
  exact_mod_cast Dec.comb_lt h

/-- Two values with the same scale, magnitude and sign are the same. -/
theorem Dec.ext_of_comb {x y : Dec} (hx : x.frac < 10 ^ x.scale) (hy : y.frac < 10 ^ y.scale)
    (hs : x.scale = y.scale) (hc : x.comb = y.comb) (hn : x.neg = y.neg) : x = y := by
  have h1 := Dec.comb_div hx
  have h2 := Dec.comb_mod hx
  rw [hc, hs, Dec.comb_div hy] at h1
  rw [hc, hs, Dec.comb_mod hy] at h2
  cases x; cases y; simp_all

/-! ### `mkDec` (41_arith.md R181) -/

/-- Everything `mkDec` can do: overflow, or the value with the given combined value, scale and (unless it is zero)
sign. -/
theorem mkDec_cases (t : Tier) (q s : Nat) (n : Bool) (k : Nat) :
    (2 ^ Config.width t * 10 ^ s ≤ q ∧ mkDec t q s n k = .ovf) ∨
    (q < 2 ^ Config.width t * 10 ^ s ∧ ∃ v k', mkDec t q s n k = .value v k' ∧ v.comb = q ∧ v.scale = s ∧
      v.frac < 10 ^ s ∧ v.int < 2 ^ Config.width t ∧ (q ≠ 0 → v.neg = n ∧ k' = k)) := by
  have hp : 0 < 10 ^ s := by positivity
  unfold mkDec
  split
  · exact .inl ⟨(Nat.le_div_iff_mul_le hp).1 ‹_›, rfl⟩
  · rename_i h
    refine .inr ⟨(Nat.div_lt_iff_lt_mul hp).1 (not_le.1 h), ?_⟩
    split
    · exact ⟨_, _, rfl, by simp_all [Dec.comb], rfl, hp, by simp, by simp_all⟩
    · refine ⟨_, _, rfl, ?_, rfl, Nat.mod_lt _ hp, not_le.1 h, fun _ => ⟨rfl, rfl⟩⟩
      simp only [Dec.comb]
      rw [mul_comm]; exact Nat.div_add_mod q _

theorem mkDec_ne_raise (t : Tier) (q s : Nat) (n : Bool) (k : Nat) (c : Cause) : mkDec t q s n k ≠ .raise c := by
  rcases mkDec_cases t q s n k with ⟨-, h⟩ | ⟨-, v, k', h, -⟩ <;> simp [h]

/-- What a value of `mkDec` is: valid, at scale `s`, and the number `±q / 10^s`. -/
theorem mkDec_value {t : Tier} {q s : Nat} {n : Bool} {k : Nat} {v : Dec} {k' : Nat} (hs : s ≤ Config.maxScale t)
    (h : mkDec t q s n k = .value v k') :
    v.valid t = true ∧ v.comb = q ∧ v.scale = s ∧ (q ≠ 0 → v.neg = n) ∧ v.val = signFactor n * (q / 10 ^ s) := by
  rcases mkDec_cases t q s n k with ⟨-, h'⟩ | ⟨-, w, l, h', h1, h2, h3, h4, h5⟩
  · simp [h'] at h
  · rw [h'] at h
    obtain ⟨rfl, rfl⟩ : w = v ∧ l = k' := by simpa using h
    refine ⟨Dec.valid_iff.2 ⟨h4, h2 ▸ hs, h2 ▸ h3⟩, h1, h2, fun hq => (h5 hq).1, ?_⟩
    rw [Dec.val_eq, h1, h2]
    by_cases hq : q = 0
    · simp [hq]
    · rw [(h5 hq).1]

/-- `mkDec` overflows exactly when the number it is given reaches `2^W`. -/
theorem mkDec_value_or_ovf (t : Tier) (q s : Nat) (n : Bool) (k : Nat) :
    ((q : ℚ) / 10 ^ s < 2 ^ Config.width t ∧ ∃ v k', mkDec t q s n k = .value v k') ∨
    (2 ^ Config.width t ≤ (q : ℚ) / 10 ^ s ∧ mkDec t q s n k = .ovf) := by
  rcases mkDec_cases t q s n k with ⟨hq, h⟩ | ⟨hq, v, k', h, -⟩
  · exact .inr ⟨by rw [le_div_iff₀ (pow10_pos s)]; exact_mod_cast hq, h⟩
  · exact .inl ⟨by rw [div_lt_iff₀ (pow10_pos s)]; exact_mod_cast hq, v, k', h⟩

end Sys2Proof.Machine
end

