-- ==== Sys2Proof/Laws/Arith.lean ====
section
/-! SUPPORT. What each core computes, as a number: one lemma for each core of 41_arith.md, 42_compare.md and
43_rounding.md. -/

namespace Sys2Proof.Machine

/-! ### The integer square root (40_kernel.md R149) -/

theorem isqrtDigits_spec (fuel n : Nat) (h : n < 4 ^ fuel) :
    isqrtDigits fuel n * isqrtDigits fuel n ≤ n ∧ n < (isqrtDigits fuel n + 1) * (isqrtDigits fuel n + 1) := by
  induction fuel generalizing n with
  | zero => simp_all [isqrtDigits]
  | succ fuel ih =>
    obtain ⟨h1, h2⟩ := ih (n / 4) (by rw [pow_succ] at h; omega)
    simp only [isqrtDigits]
    generalize isqrtDigits fuel (n / 4) = r at *
    split
    · exact ⟨‹_›, by
        have := Nat.div_add_mod n 4
        have := Nat.mod_lt n (show 0 < 4 by norm_num)
        nlinarith⟩
    · exact ⟨by nlinarith [Nat.div_mul_le_self n 4], by omega⟩

/-- `isqrt(n)` is the largest r with r·r ≤ n (00_scope.md R15). -/
theorem isqrt_spec (n : Nat) : isqrt n * isqrt n ≤ n ∧ n < (isqrt n + 1) * (isqrt n + 1) := by
  apply isqrtDigits_spec
  calc n < 2 ^ (Nat.log2 n + 1) := Nat.lt_log2_self
    _ ≤ 2 ^ (2 * (Nat.log2 n / 2 + 1)) := Nat.pow_le_pow_right (by norm_num) (by omega)
    _ = 4 ^ (Nat.log2 n / 2 + 1) := by rw [pow_mul]; norm_num

/-! ### Truncation -/

theorem truncQ_signFactor_mul (n : Bool) {m : ℚ} (hm : 0 ≤ m) : (truncQ (signFactor n * m) : ℚ) = signFactor n * ⌊m⌋ := by
  unfold truncQ
  cases n
  · simp [not_lt.2 hm]
  · rcases hm.eq_or_lt with rfl | h
    · simp
    · simp [h, Int.ceil_neg]

theorem truncPlaces_signFactor_mul (n : Bool) {m : ℚ} (hm : 0 ≤ m) (p : Nat) :
    truncPlaces (signFactor n * m) p = signFactor n * (⌊m * 10 ^ p⌋ / 10 ^ p) := by
  rw [truncPlaces, mul_assoc, truncQ_signFactor_mul n (by positivity), mul_div_assoc]

theorem floor_nat_div (a b : Nat) : (⌊(a : ℚ) / b⌋ : ℚ) = (a / b : Nat) := by
  have : ⌊(a : ℚ) / b⌋ = ((a / b : Nat) : ℤ) := by
    rw [Rat.floor_natCast_div_natCast]; rfl
  rw [this, Int.cast_natCast]

/-- Truncation to decimal places does not cross a natural bound. -/
theorem floor_places_lt_iff {m : ℚ} (N p : Nat) : (⌊m * 10 ^ p⌋ : ℚ) / 10 ^ p < N ↔ m < N := by
  rw [div_lt_iff₀ (pow10_pos p)]
  have h : (⌊m * 10 ^ p⌋ : ℚ) < N * 10 ^ p ↔ ⌊m * 10 ^ p⌋ < ((N * 10 ^ p : Nat) : ℤ) := by
    rw [← Int.cast_lt (R := ℚ)]; push_cast; rfl
  rw [h, Int.floor_lt]; push_cast
  exact mul_lt_mul_iff_left₀ (pow10_pos p)

/-! ### What a core answers -/

/-- The core answers the number `x`, as a valid value of tier `t` at scale `s`. -/
def Computed.Yields (r : Computed) (t : Tier) (x : ℚ) (s : Nat) : Prop :=
  ∃ v k, r = .value v k ∧ v.valid t = true ∧ v.val = x ∧ v.scale = s

/-- The core answers `x` when its integer part fits the tier, and `OVF` when it does not. -/
def Computed.Fits (r : Computed) (t : Tier) (x : ℚ) (s : Nat) : Prop :=
  (|x| < 2 ^ Config.width t ∧ r.Yields t x s) ∨ (2 ^ Config.width t ≤ |x| ∧ r = .ovf)

theorem mkDec_fits {t : Tier} {s : Nat} (q : Nat) (n : Bool) (k : Nat) (hs : s ≤ Config.maxScale t) :
    (mkDec t q s n k).Fits t (signFactor n * (q / 10 ^ s)) s := by
  have habs : |signFactor n * ((q : ℚ) / 10 ^ s)| = q / 10 ^ s := by
    rw [abs_mul, abs_signFactor, one_mul, abs_of_nonneg (by positivity)]
  rw [Computed.Fits, habs]
  rcases mkDec_value_or_ovf t q s n k with ⟨h, v, k', hv⟩ | h
  · obtain ⟨h1, -, h2, -, h3⟩ := mkDec_value hs hv
    exact .inl ⟨h, v, k', hv, h1, h3, h2⟩
  · exact .inr h

theorem alignComb_eq {x : Dec} {s : Nat} (h : x.scale ≤ s) : (alignComb x s : ℚ) = x.mag * 10 ^ s := by
  have : (10 : ℚ) ^ s = 10 ^ x.scale * 10 ^ (s - x.scale) := by rw [← pow_add]; congr 1; omega
  simp only [alignComb, alignFrac, Dec.mag, Dec.comb]
  push_cast
  rw [this]
  field_simp [pow10_ne]

theorem Dec.val_eq_mag (x : Dec) : x.val = signFactor x.neg * x.mag := Dec.val_eq x

/-- ADD's core (41_arith.md R185): the exact sum, at the larger scale. -/
theorem addCore_fits {t : Tier} {a b : Dec} (ha : a.valid t = true) (hb : b.valid t = true) (k : Nat) :
    (addCore t a b k).Fits t (a.val + b.val) (max a.scale b.scale) := by
  have hs : alignScale a b ≤ Config.maxScale t := max_le (Dec.valid_iff.1 ha).2.1 (Dec.valid_iff.1 hb).2.1
  have hA := alignComb_eq (x := a) (s := alignScale a b) (le_max_left _ _)
  have hB := alignComb_eq (x := b) (s := alignScale a b) (le_max_right _ _)
  have hp := pow10_pos (alignScale a b)
  have conv : ∀ {n : Bool} {q : Nat}, signFactor n * ((q : ℚ) / 10 ^ alignScale a b) = a.val + b.val →
      (mkDec t q (alignScale a b) n k).Fits t (a.val + b.val) (max a.scale b.scale) :=
    fun {n q} h => h ▸ mkDec_fits q n k hs
  unfold addCore
  dsimp only
  rw [Dec.val_eq_mag, Dec.val_eq_mag] at conv
  rw [Dec.val_eq_mag, Dec.val_eq_mag]
  split
  · rename_i hn
    apply conv; push_cast; rw [hA, hB, hn]; field_simp
  · rename_i hn
    have hn' : signFactor b.neg = -signFactor a.neg := by
      rw [← signFactor_not]; congr 1; revert hn; cases a.neg <;> cases b.neg <;> simp
    split
    · rename_i h
      apply conv; rw [Nat.cast_sub h.le, hA, hB, hn']; field_simp; ring
    · split
      · rename_i h
        apply conv; rw [Nat.cast_sub h.le, hA, hB, hn']; field_simp; ring
      · have : alignComb a (alignScale a b) = alignComb b (alignScale a b) := by omega
        have hm : a.mag = b.mag := by
          have h2 : (alignComb a (alignScale a b) : ℚ) = alignComb b (alignScale a b) := by rw [this]
          rw [hA, hB] at h2
          exact mul_right_cancel₀ hp.ne' h2
        apply conv; rw [hm, hn']; simp

/-- MUL's core (41_arith.md R188): the product truncated at the target scale, and the combined scale where that is
smaller. -/
theorem mulCore_fits {T : Config.TargetScales} {t : Tier} (a b : Dec) (k : Nat) :
    (mulCore T t a b k).Fits t (truncPlaces (a.val * b.val) (min (a.scale + b.scale) (T.of t)))
      (min (a.scale + b.scale) (T.of t)) := by
  have hT := T.of_le t
  have hv : a.val * b.val = signFactor (xor a.neg b.neg) * (((a.comb * b.comb : Nat) : ℚ) / 10 ^ (a.scale + b.scale)) := by
    rw [Dec.val_eq, Dec.val_eq, signFactor_xor, pow_add]; push_cast
    rw [mul_mul_mul_comm, div_mul_div_comm]
  rw [hv, truncPlaces_signFactor_mul _ (by positivity)]
  have key : ∀ (e s : Nat), a.scale + b.scale = s + e →
      (⌊((a.comb * b.comb : Nat) : ℚ) / 10 ^ (a.scale + b.scale) * 10 ^ s⌋ : ℚ) = (a.comb * b.comb / 10 ^ e : Nat) := by
    intro e s h
    rw [← floor_nat_div, h, pow_add]
    congr 2
    push_cast
    field_simp [pow10_ne]
  unfold mulCore
  dsimp only
  split
  · rename_i h
    rw [min_eq_right h.le, key (a.scale + b.scale - T.of t) _ (by omega)]
    exact mkDec_fits _ _ _ hT
  · rename_i h
    rw [min_eq_left (not_lt.1 h), key 0 _ (by omega), pow_zero, Nat.div_one]
    exact mkDec_fits _ _ _ (by omega)

theorem Computed.Fits.of_yields_or_ovf {r : Computed} {t : Tier} {x : ℚ} {s : Nat} (h : r.Fits t x s) :
    r.Yields t x s ∨ r = .ovf := h.elim (fun h => .inl h.2) (fun h => .inr h.2)

theorem Computed.Yields.of_fits {r : Computed} {t : Tier} {x : ℚ} {s : Nat} (h : r.Fits t x s)
    (hx : |x| < 2 ^ Config.width t) : r.Yields t x s := h.elim (·.2) fun h' => absurd hx (not_lt.2 h'.1)

theorem two_pow_cast (t : Tier) : (2 : ℚ) ^ Config.width t = ((2 ^ Config.width t : Nat) : ℚ) := by push_cast; rfl

/-- Truncation to decimal places does not cross the tier's bound. -/
theorem abs_truncPlaces_lt_iff (t : Tier) (x : ℚ) (p : Nat) :
    |truncPlaces x p| < 2 ^ Config.width t ↔ |x| < 2 ^ Config.width t := by
  obtain ⟨n, m, hm, rfl⟩ : ∃ n m, 0 ≤ m ∧ x = signFactor n * m := by
    rcases le_total 0 x with h | h
    · exact ⟨false, x, h, by simp⟩
    · exact ⟨true, -x, by simpa using h, by simp⟩
  rw [truncPlaces_signFactor_mul n hm, abs_mul, abs_mul, abs_signFactor, one_mul, one_mul, abs_of_nonneg hm,
    abs_of_nonneg, two_pow_cast, floor_places_lt_iff]
  exact div_nonneg (by exact_mod_cast Int.floor_nonneg.2 (by positivity)) (pow10_pos p).le

theorem floor_floor_places (m : ℚ) (p : Nat) : ⌊(⌊m * 10 ^ p⌋ : ℚ) / 10 ^ p⌋ = ⌊m⌋ := by
  refine eq_of_forall_le_iff fun z => ?_
  have : (z : ℚ) * 10 ^ p = ((z * 10 ^ p : ℤ) : ℚ) := by push_cast; rfl
  rw [Int.le_floor, Int.le_floor, le_div_iff₀ (pow10_pos p), this, Int.cast_le, Int.le_floor, ← this,
    mul_le_mul_iff_left₀ (pow10_pos p)]

/-- The quotient of magnitudes, floored at the target scale (41_arith.md R190, R191). -/
theorem divQuotient_eq {T : Config.TargetScales} (t : Tier) (a b : Dec) (hb : b.comb ≠ 0) :
    (⌊a.mag / b.mag * 10 ^ T.of t⌋ : ℚ) = (divQuotient T t a b : ℚ) := by
  have hb' : (b.comb : ℚ) ≠ 0 := by exact_mod_cast hb
  unfold divQuotient Dec.mag
  split
  · rename_i h
    rw [← floor_nat_div]
    congr 2
    push_cast
    rw [div_div_div_eq, div_mul_eq_mul_div, div_eq_div_iff (by positivity) hb']
    have : (10 : ℚ) ^ b.scale * 10 ^ T.of t = 10 ^ a.scale * 10 ^ (T.of t + b.scale - a.scale) := by
      rw [← pow_add, ← pow_add]; congr 1; omega
    linear_combination (a.comb : ℚ) * b.comb * this
  · rename_i h
    rw [← floor_nat_div]
    congr 2
    push_cast
    rw [div_div_div_eq, div_mul_eq_mul_div, div_eq_div_iff (by positivity) (by positivity)]
    have : (10 : ℚ) ^ b.scale * 10 ^ T.of t * 10 ^ (a.scale - (T.of t + b.scale)) = 10 ^ a.scale := by
      rw [← pow_add, ← pow_add]; congr 1; omega
    linear_combination (a.comb : ℚ) * b.comb * this

theorem Dec.val_div_val (a b : Dec) : a.val / b.val = signFactor (xor a.neg b.neg) * (a.mag / b.mag) := by
  rw [Dec.val_eq_mag, Dec.val_eq_mag, signFactor_xor]
  cases b.neg <;> simp [div_neg, mul_div_assoc]

theorem divCore_zero {T : Config.TargetScales} {b : Dec} (t : Tier) (a : Dec) (k : Nat) (hb : b.comb = 0) :
    divCore T t a b k = .raise .divByZero := by simp [divCore, hb]

/-- DIV's core (41_arith.md R190): the quotient truncated at the target scale. -/
theorem divCore_fits {T : Config.TargetScales} {t : Tier} {b : Dec} (a : Dec) (k : Nat) (hb : b.comb ≠ 0) :
    (divCore T t a b k).Fits t (truncPlaces (a.val / b.val) (T.of t)) (T.of t) := by
  rw [divCore, if_neg hb, Dec.val_div_val, truncPlaces_signFactor_mul _ (div_nonneg a.mag_nonneg b.mag_nonneg),
    divQuotient_eq t a b hb]
  exact mkDec_fits _ _ _ (T.of_le t)

/-- The integer part of a truncated quotient is the truncated quotient of the numbers (41_arith.md R192). -/
theorem integerPart_val {T : Config.TargetScales} {t : Tier} {q a b : Dec} (hq : q.valid t = true)
    (h : q.val = truncPlaces (a.val / b.val) (T.of t)) : (integerPart q).val = truncQ (a.val / b.val) := by
  have hm := div_nonneg a.mag_nonneg b.mag_nonneg
  rw [Dec.val_div_val, truncPlaces_signFactor_mul _ hm] at h
  rw [Dec.val_div_val, truncQ_signFactor_mul _ hm]
  have hqm : q.mag = (⌊a.mag / b.mag * 10 ^ T.of t⌋ : ℚ) / 10 ^ T.of t := by
    rw [← Dec.abs_val, h, abs_mul, abs_signFactor, one_mul, abs_of_nonneg]
    exact div_nonneg (by exact_mod_cast Int.floor_nonneg.2 (by positivity)) (pow10_pos _).le
  have hint : (q.int : ℚ) = ⌊a.mag / b.mag⌋ := by
    rw [← floor_floor_places _ (T.of t), ← hqm, Dec.mag]
    rw [← Dec.comb_div (Dec.valid_iff.1 hq).2.2]
    exact_mod_cast (floor_nat_div q.comb (10 ^ q.scale)).symm
  have : (integerPart q).val = signFactor q.neg * q.int := by simp [Dec.val_eq, integerPart, Dec.comb]
  rw [this, ← hint]
  by_cases h0 : q.int = 0
  · simp [h0]
  · have hne : q.mag ≠ 0 := by
      intro h1
      have := Dec.comb_div (Dec.valid_iff.1 hq).2.2
      rw [Dec.val_eq_zero.1 (by rw [Dec.val_eq_mag, h1, mul_zero]), Nat.zero_div] at this
      exact h0 this.symm
    rw [Dec.val_eq_mag, ← hqm] at h
    rw [mul_right_cancel₀ hne h]

/-- REM's core (41_arith.md R192): the dividend less the multiplied-back integer part, which MUL truncates. -/
theorem remCore_cases {T : Config.TargetScales} {t : Tier} {a b : Dec} (ha : a.valid t = true) (hz : b.comb ≠ 0) (k : Nat) :
    (|a.val / b.val| < 2 ^ Config.width t ∧ (remCore T t a b k).Yields t
      (a.val - truncPlaces (truncQ (a.val / b.val) * b.val) (min b.scale (T.of t)))
      (max a.scale (min b.scale (T.of t)))) ∨
    (2 ^ Config.width t ≤ |a.val / b.val| ∧ remCore T t a b k = .ovf) := by
  rcases divCore_fits (t := t) a k hz with ⟨h, q, k₁, hq, hqv, hqx, -⟩ | ⟨h, hq⟩
  swap
  · refine .inr ⟨?_, by rw [remCore, hq]; rfl⟩
    rw [← not_lt] at h ⊢
    rwa [← abs_truncPlaces_lt_iff]
  refine .inl ⟨(abs_truncPlaces_lt_iff _ _ _).1 h, ?_⟩
  rw [remCore, hq, Computed.bind]
  have hm := div_nonneg a.mag_nonneg b.mag_nonneg
  have hip := integerPart_val hqv hqx
  -- the multiplied-back part, with the dividend's sign
  have hprod : (truncQ (a.val / b.val) : ℚ) * b.val = signFactor a.neg * (⌊a.mag / b.mag⌋ * b.mag) := by
    rw [Dec.val_div_val, truncQ_signFactor_mul _ hm, signFactor_xor, Dec.val_eq_mag]
    linear_combination signFactor a.neg * ⌊a.mag / b.mag⌋ * b.mag * signFactor_mul_self b.neg
  have hbm : 0 < b.mag := lt_of_le_of_ne b.mag_nonneg fun h0 =>
    hz (Dec.val_eq_zero.1 (by rw [Dec.val_eq_mag, ← h0, mul_zero]))
  set p := min b.scale (T.of t) with hp
  have hback : (⌊a.mag / b.mag⌋ : ℚ) * b.mag ≤ a.mag := by
    have := Int.floor_le (a.mag / b.mag)
    rwa [le_div_iff₀ hbm] at this
  have hnn : 0 ≤ (⌊a.mag / b.mag⌋ : ℚ) * b.mag :=
    mul_nonneg (by exact_mod_cast Int.floor_nonneg.2 hm) hbm.le
  set m := (⌊a.mag / b.mag⌋ : ℚ) * b.mag with hmdef
  have htr : truncPlaces (truncQ (a.val / b.val) * b.val) p = signFactor a.neg * (⌊m * 10 ^ p⌋ / 10 ^ p) := by
    rw [hprod, truncPlaces_signFactor_mul _ hnn]
  have hle : (⌊m * 10 ^ p⌋ : ℚ) / 10 ^ p ≤ m := by
    rw [div_le_iff₀ (pow10_pos p)]; exact Int.floor_le _
  have hge : 0 ≤ (⌊m * 10 ^ p⌋ : ℚ) / 10 ^ p :=
    div_nonneg (by exact_mod_cast Int.floor_nonneg.2 (by positivity)) (pow10_pos p).le
  have hmul := mulCore_fits (T := T) (t := t) (integerPart q) b k₁
  rw [hip] at hmul
  have hsc : (integerPart q).scale + b.scale = b.scale := Nat.zero_add _
  rw [hsc, ← hp, htr] at hmul
  obtain ⟨v, k₂, hv, hvv, hvx, hvs⟩ := Computed.Yields.of_fits hmul (by
    rw [abs_mul, abs_signFactor, one_mul, abs_of_nonneg hge]
    exact (hle.trans hback).trans_lt (Dec.mag_lt ha))
  simp only [hv]
  have hvn : v.negate.valid t = true := hvv
  have hadd := addCore_fits ha hvn k₂
  rw [Dec.val_negate, hvx, ← htr, ← sub_eq_add_neg] at hadd
  have hscale : v.negate.scale = p := hvs
  rw [hscale] at hadd
  refine Computed.Yields.of_fits hadd ?_
  rw [htr, Dec.val_eq_mag, ← mul_sub, abs_mul, abs_signFactor, one_mul, abs_of_nonneg (by linarith)]
  exact (sub_le_self _ hge).trans_lt (Dec.mag_lt ha)

/-! ### SQRT (41_arith.md R195) -/

theorem sqrtCore_zero {t : Tier} {a : Dec} (k : Nat) (h : a.comb = 0) :
    ∃ v k', sqrtCore t a k = .value v k' ∧ v.valid t = true ∧ v.val = 0 := by
  refine ⟨_, _, by rw [sqrtCore, if_pos (Dec.isZero_iff.2 h)], ?_, by simp [Dec.val_eq, Dec.comb]⟩
  exact Dec.valid_iff.2 ⟨by positivity, Config.sqrt0Scale_le t k, by positivity⟩

theorem sqrtCore_negative {t : Tier} {a : Dec} (k : Nat) (h : a.comb ≠ 0) (hn : a.neg = true) :
    sqrtCore t a k = .raise .negativeSqrt := by
  rw [sqrtCore, if_neg (by rwa [Dec.isZero_iff]), if_pos hn]

/-- SQRT's core on a positive value: the root truncated at scale D, positive; never `OVF`. -/
theorem sqrtCore_positive {t : Tier} {a : Dec} (ha : a.valid t = true) (k : Nat) (h : a.comb ≠ 0) (hn : a.neg = false) :
    ∃ v k', sqrtCore t a k = .value v k' ∧ v.valid t = true ∧ v.scale = Config.sqrtDigits t ∧ v.neg = false ∧
      0 < v.val ∧ v.val * v.val ≤ a.val ∧ a.val < (v.val + 1 / 10 ^ Config.sqrtDigits t) ^ 2 := by
  obtain ⟨-, hs, -⟩ := Dec.valid_iff.1 ha
  have hD := Config.maxScale_le_sqrtDigits t
  set D := Config.sqrtDigits t with hDdef
  obtain ⟨h1, h2⟩ := isqrt_spec (a.comb * 10 ^ (2 * D - a.scale))
  set N := a.comb * 10 ^ (2 * D - a.scale) with hN
  set r := isqrt N with hr
  have hNpos : 1 ≤ N := Nat.mul_pos (by omega) (by positivity)
  have hr0 : r ≠ 0 := by rintro h0; rw [h0] at h2; omega
  have hlt : r < 2 ^ Config.width t * 10 ^ D := by
    by_contra hc
    rw [not_lt] at hc
    have hNlt : N < 2 ^ Config.width t * 10 ^ (2 * D) := by
      have := Dec.comb_lt ha
      calc N < 2 ^ Config.width t * 10 ^ a.scale * 10 ^ (2 * D - a.scale) :=
            Nat.mul_lt_mul_of_pos_right this (by positivity)
        _ = _ := by rw [mul_assoc, ← pow_add]; congr 2; omega
    have hsq := Nat.mul_le_mul hc hc
    have hW : 2 ^ Config.width t * 10 ^ (2 * D) ≤ 2 ^ Config.width t * 10 ^ D * (2 ^ Config.width t * 10 ^ D) := by
      rw [two_mul, pow_add]
      have : 1 ≤ 2 ^ Config.width t := Nat.one_le_two_pow
      calc _ = 1 * (2 ^ Config.width t * (10 ^ D * 10 ^ D)) := by ring
        _ ≤ 2 ^ Config.width t * (2 ^ Config.width t * (10 ^ D * 10 ^ D)) := Nat.mul_le_mul_right _ this
        _ = _ := by ring
    omega
  have hmk := mkDec_value_or_ovf t r D false k
  have hcore : sqrtCore t a k = mkDec t r D false k := by
    rw [sqrtCore, if_neg (by rwa [Dec.isZero_iff]), hn]; rfl
  rcases hmk with ⟨-, v, k', hv⟩ | ⟨hge, -⟩
  swap
  · rw [le_div_iff₀ (pow10_pos D)] at hge
    exact absurd hlt (not_lt.2 (by exact_mod_cast hge))
  obtain ⟨hvv, -, hvs, hvn, hvx⟩ := mkDec_value (Config.sqrtDigits_le t) hv
  rw [signFactor_false, one_mul] at hvx
  refine ⟨v, k', hcore.trans hv, hvv, hvs, hvn hr0, ?_⟩
  have haval : a.val = (N : ℚ) / 10 ^ (2 * D) := by
    rw [Dec.val_eq, hn, signFactor_false, one_mul, hN]
    have : (10 : ℚ) ^ (2 * D) = 10 ^ a.scale * 10 ^ (2 * D - a.scale) := by rw [← pow_add]; congr 1; omega
    rw [this]; push_cast; field_simp
  have hp2 : (10 : ℚ) ^ (2 * D) = 10 ^ D * 10 ^ D := by rw [← pow_add]; congr 1; omega
  rw [hvx, haval, hp2]
  refine ⟨by positivity, ?_, ?_⟩
  · rw [div_mul_div_comm, div_le_div_iff_of_pos_right (by positivity)]
    exact_mod_cast h1
  · rw [← add_div, div_pow, sq (10 ^ D : ℚ), div_lt_div_iff_of_pos_right (by positivity), sq]
    exact_mod_cast h2

/-! ### CMP (42_compare.md R240) -/

theorem compare_lex {i j f g L : Nat} (hf : f < L) (hg : g < L) :
    (compare i j).then (compare f g) = compare (i * L + f) (j * L + g) := by
  rcases lt_trichotomy i j with h | rfl | h
  · have := Nat.mul_le_mul_right L h
    rw [Nat.succ_mul] at this
    rw [compare_lt_iff_lt.2 h, compare_lt_iff_lt.2 (show i * L + f < j * L + g by omega), Ordering.lt_then]
  · rw [compare_eq_iff_eq.2 (rfl : i = i), Ordering.then]
    rcases lt_trichotomy f g with h | rfl | h
    · rw [compare_lt_iff_lt.2 h, compare_lt_iff_lt.2 (show i * L + f < i * L + g by omega)]
    · rw [compare_eq_iff_eq.2 (rfl : f = f), compare_eq_iff_eq.2 rfl]
    · rw [compare_gt_iff_gt.2 h, compare_gt_iff_gt.2 (show i * L + f > i * L + g by omega)]
  · have := Nat.mul_le_mul_right L h
    rw [Nat.succ_mul] at this
    rw [compare_gt_iff_gt.2 h, compare_gt_iff_gt.2 (show i * L + f > j * L + g by omega), Ordering.gt_then]

theorem alignFrac_lt {x : Dec} {s : Nat} (h : x.frac < 10 ^ x.scale) (hs : x.scale ≤ s) : alignFrac x s < 10 ^ s := by
  calc alignFrac x s < 10 ^ x.scale * 10 ^ (s - x.scale) := Nat.mul_lt_mul_of_pos_right h (by positivity)
    _ = 10 ^ s := by rw [← pow_add]; congr 1; omega

/-- CMP's core is the order of the numbers. -/
theorem cmpCore_eq {t : Tier} {a b : Dec} (ha : a.valid t = true) (hb : b.valid t = true) :
    cmpCore a b = compare a.val b.val := by
  have hna := a.mag_nonneg
  have hnb := b.mag_nonneg
  have h0 : ∀ x : Dec, x.isZero = true ↔ x.mag = 0 := fun x => by
    rw [Dec.isZero_iff, ← Dec.val_eq_zero, ← abs_eq_zero, Dec.abs_val]
  have hz : (a.isZero && b.isZero) = true ↔ a.mag = 0 ∧ b.mag = 0 := by
    rw [Bool.and_eq_true, h0, h0]
  have hmag : (compare a.int b.int).then (compare (alignFrac a (alignScale a b)) (alignFrac b (alignScale a b))) =
      compare a.mag b.mag := by
    have hA := alignComb_eq (x := a) (s := alignScale a b) (le_max_left _ _)
    have hB := alignComb_eq (x := b) (s := alignScale a b) (le_max_right _ _)
    have hfa : alignFrac a (alignScale a b) < 10 ^ alignScale a b :=
      alignFrac_lt (Dec.valid_iff.1 ha).2.2 (le_max_left _ _)
    have hfb : alignFrac b (alignScale a b) < 10 ^ alignScale a b :=
      alignFrac_lt (Dec.valid_iff.1 hb).2.2 (le_max_right _ _)
    rw [compare_lex hfa hfb]
    change compare (alignComb a (alignScale a b)) (alignComb b (alignScale a b)) = _
    have hp := pow10_pos (alignScale a b)
    rcases lt_trichotomy a.mag b.mag with h | h | h
    · rw [compare_lt_iff_lt.2 h, compare_lt_iff_lt]
      have : (alignComb a (alignScale a b) : ℚ) < alignComb b (alignScale a b) := by rw [hA, hB]; nlinarith
      exact_mod_cast this
    · rw [compare_eq_iff_eq.2 h, compare_eq_iff_eq]
      have : (alignComb a (alignScale a b) : ℚ) = alignComb b (alignScale a b) := by rw [hA, hB, h]
      exact_mod_cast this
    · rw [compare_gt_iff_gt.2 h, compare_gt_iff_gt]
      have : (alignComb b (alignScale a b) : ℚ) < alignComb a (alignScale a b) := by rw [hA, hB]; nlinarith
      exact_mod_cast this
  have hsw : compare (-a.mag) (-b.mag) = (compare a.mag b.mag).swap := by
    rcases lt_trichotomy a.mag b.mag with h | h | h
    · rw [compare_lt_iff_lt.2 h, compare_gt_iff_gt.2 (neg_lt_neg h)]; rfl
    · rw [compare_eq_iff_eq.2 h, compare_eq_iff_eq.2 (by rw [h])]; rfl
    · rw [compare_gt_iff_gt.2 h, compare_lt_iff_lt.2 (neg_lt_neg h)]; rfl
  unfold cmpCore
  by_cases hzz : a.mag = 0 ∧ b.mag = 0
  · rw [if_pos (hz.2 hzz), Dec.val_eq_mag, Dec.val_eq_mag, hzz.1, hzz.2]
    exact (compare_eq_iff_eq.2 (by simp)).symm
  · rw [if_neg (fun h => hzz (hz.1 h))]
    have hsum : 0 < a.mag + b.mag := by
      rcases hna.eq_or_lt with h | h
      · rcases hnb.eq_or_lt with h' | h'
        · exact absurd ⟨h.symm, h'.symm⟩ hzz
        · linarith
      · linarith
    simp only [hmag, Dec.val_eq_mag]
    cases hsa : a.neg <;> cases hsb : b.neg
    · simp
    · simp only [ne_eq, Bool.false_eq_true, not_false_eq_true, if_true, if_false, signFactor_true, signFactor_false]
      exact (compare_gt_iff_gt.2 (by linarith)).symm
    · simp only [ne_eq, Bool.true_eq_false, not_false_eq_true, if_true, signFactor_true, signFactor_false]
      exact (compare_lt_iff_lt.2 (by linarith)).symm
    · simp [hsw]

/-! ### CANON (42_compare.md R244) -/

theorem trailingZeros_spec (c s : Nat) :
    trailingZeros c s ≤ s ∧ 10 ^ trailingZeros c s ∣ c ∧ ∀ j ≤ s, 10 ^ j ∣ c → j ≤ trailingZeros c s := by
  induction s with
  | zero => simp [trailingZeros]
  | succ s ih =>
    simp only [trailingZeros]
    split
    · exact ⟨le_rfl, Nat.dvd_of_mod_eq_zero ‹_›, fun j hj _ => hj⟩
    · rename_i h
      refine ⟨by omega, ih.2.1, fun j hj hd => ih.2.2 j ?_ hd⟩
      rcases hj.eq_or_lt with rfl | h'
      · exact absurd (Nat.mod_eq_zero_of_dvd hd) h
      · omega

theorem pow_mul_div_pow {s k c : Nat} (h : k ≤ s) : 10 ^ k * c / 10 ^ s = c / 10 ^ (s - k) := by
  have : 10 ^ s = 10 ^ k * 10 ^ (s - k) := by rw [← pow_add]; congr 1; omega
  rw [this, Nat.mul_div_mul_left _ _ (by positivity)]

/-- CANON's core: the same number, at the smallest scale that holds it, zero being positive. -/
theorem canonCore_spec {t : Tier} {a : Dec} (ha : a.valid t = true) :
    (canonCore a).valid t = true ∧ (canonCore a).val = a.val ∧
      (∀ p : Nat, (∃ z : ℤ, a.val * 10 ^ p = z) ↔ (canonCore a).scale ≤ p) ∧
      (canonCore a).neg = decide (a.val < 0) := by
  obtain ⟨hi, hs, hf⟩ := Dec.valid_iff.1 ha
  obtain ⟨hk, ⟨c, hc⟩, hmax⟩ := trailingZeros_spec a.comb a.scale
  set k := trailingZeros a.comb a.scale with hkdef
  have hcd : a.comb / 10 ^ k = c := by rw [hc, Nat.mul_div_cancel_left _ (by positivity)]
  have hcanon : canonCore a = ⟨c / 10 ^ (a.scale - k), c % 10 ^ (a.scale - k), a.scale - k,
      if c = 0 then false else a.neg⟩ := by
    simp only [canonCore, ← hkdef, hcd]
  have hcomb : (canonCore a).comb = c := by
    rw [hcanon]; simp only [Dec.comb]; rw [mul_comm]; exact Nat.div_add_mod c _
  have hsc : (canonCore a).scale = a.scale - k := by rw [hcanon]
  have hpk : (10 : ℚ) ^ a.scale = 10 ^ k * 10 ^ (a.scale - k) := by rw [← pow_add]; congr 1; omega
  have hmag : a.mag = c / 10 ^ (a.scale - k) := by
    rw [Dec.mag, hc, hpk]; push_cast; field_simp
  have hval : (canonCore a).val = a.val := by
    rw [Dec.val_eq_mag, Dec.val_eq_mag, hmag, Dec.mag, hcomb, hsc]
    by_cases h0 : c = 0
    · simp [h0]
    · rw [hcanon]; simp [h0]
  have hint : c / 10 ^ (a.scale - k) = a.int := by
    rw [← Dec.comb_div hf, hc, pow_mul_div_pow hk]
  refine ⟨?_, hval, fun p => ?_, ?_⟩
  · rw [hcanon]
    exact Dec.valid_iff.2 ⟨by simpa [hint] using hi, (Nat.sub_le _ _).trans hs, Nat.mod_lt _ (by positivity)⟩
  · rw [hsc]
    constructor
    · rintro ⟨z, hz⟩
      by_contra hlt
      rw [not_le] at hlt
      have hz' : (c : ℚ) = (signFactor a.neg * z) * 10 ^ (a.scale - k - p) := by
        have h1 : a.mag * 10 ^ p = signFactor a.neg * z := by
          rw [← hz, Dec.val_eq_mag, ← mul_assoc, ← mul_assoc, signFactor_mul_self, one_mul]
        have h2 : (10 : ℚ) ^ (a.scale - k) = 10 ^ p * 10 ^ (a.scale - k - p) := by rw [← pow_add]; congr 1; omega
        rw [← h1, hmag, h2]; field_simp
      have hdvd : (10 : ℤ) ^ (a.scale - k - p) ∣ c := by
        refine ⟨if a.neg then -z else z, ?_⟩
        have : (c : ℚ) = ((10 ^ (a.scale - k - p) * (if a.neg then -z else z) : ℤ) : ℚ) := by
          rw [hz']; push_cast; cases a.neg <;> simp [mul_comm]
        exact_mod_cast this
      have hdvd' : 10 ^ (a.scale - k - p) ∣ c := by exact_mod_cast hdvd
      have := hmax (k + (a.scale - k - p)) (by omega) (by rw [hc, pow_add]; exact Nat.mul_dvd_mul_left _ hdvd')
      omega
    · intro h
      refine ⟨(if a.neg then -1 else 1) * (c * 10 ^ (p - (a.scale - k)) : ℕ), ?_⟩
      have h2 : (10 : ℚ) ^ p = 10 ^ (a.scale - k) * 10 ^ (p - (a.scale - k)) := by rw [← pow_add]; congr 1; omega
      rw [Dec.val_eq_mag, hmag, h2]; push_cast
      cases a.neg <;> simp <;> field_simp
  · have hpos : (0 : ℚ) < 10 ^ (a.scale - k) := pow10_pos _
    rw [hcanon, Dec.val_eq_mag, hmag]
    by_cases h0 : c = 0
    · simp [h0]
    · have : (0 : ℚ) < c / 10 ^ (a.scale - k) := div_pos (by exact_mod_cast Nat.pos_of_ne_zero h0) hpos
      cases a.neg <;> simp [h0, this, this.le]

end Sys2Proof.Machine
end

