-- ==== Sys2Proof/Laws/Rounding.lean ====
section
/-! SUPPORT. What the rounding core computes, as a number (43_rounding.md R261 to R264). -/

namespace Sys2Proof.Machine

theorem floor_nat_add (q : Nat) {f : ℚ} (h0 : 0 ≤ f) (h1 : f < 1) : ⌊(q : ℚ) + f⌋ = q := by
  rw [Int.floor_eq_iff]; push_cast; constructor <;> linarith

theorem ceil_nat_add (q : Nat) {f : ℚ} (h0 : 0 ≤ f) (h1 : f < 1) :
    ⌈(q : ℚ) + f⌉ = if 0 < f then (q : ℤ) + 1 else q := by
  rw [Int.ceil_eq_iff]
  split <;> push_cast <;> constructor <;> linarith

/-- The round-up predicate in terms of the fraction dropped, `f = r / Dv`. -/
theorem roundsUp_iff {mode : RoundMode} {n : Bool} {q r d : Nat} (hd : 0 < d) :
    roundsUp mode n q r d = true ↔
      match mode with
      | .floor => n = true ∧ 0 < (r : ℚ) / d
      | .ceiling => n = false ∧ 0 < (r : ℚ) / d
      | .truncate => False
      | .halfUp => 1 / 2 ≤ (r : ℚ) / d
      | .halfDown => 1 / 2 < (r : ℚ) / d
      | .halfEven => 1 / 2 < (r : ℚ) / d ∨ ((r : ℚ) / d = 1 / 2 ∧ q % 2 = 1)
      | .fract => False := by
  have hd' : (0 : ℚ) < d := by exact_mod_cast hd
  have hlt : d < 2 * r ↔ 1 / 2 < (r : ℚ) / d := by
    rw [div_lt_div_iff₀ (by norm_num) hd', ← Nat.cast_lt (α := ℚ)]; push_cast; rw [one_mul, mul_comm]
  have hle : d ≤ 2 * r ↔ 1 / 2 ≤ (r : ℚ) / d := by
    rw [div_le_div_iff₀ (by norm_num) hd', ← Nat.cast_le (α := ℚ)]; push_cast; rw [one_mul, mul_comm]
  have heq : 2 * r = d ↔ (r : ℚ) / d = 1 / 2 := by
    rw [div_eq_div_iff hd'.ne' (by norm_num), ← Nat.cast_inj (R := ℚ)]; push_cast; rw [one_mul, mul_comm]
  have hpos : 0 < r ↔ 0 < (r : ℚ) / d := by rw [div_pos_iff_of_pos_right hd', Nat.cast_pos]
  cases mode <;> simp only [roundsUp]
  · simp [hpos]
  · simp [hpos]
  · simp
  · rw [decide_eq_true_iff, hle]
  · rw [decide_eq_true_iff, hlt]
  · simp [hlt, heq]
  · simp

/-- Rounding the magnitude with the sign kept is rounding the number. -/
theorem roundQ_eq {mode : RoundMode} (hm : mode ≠ .fract) (n : Bool) (q r d : Nat) (hr : r < d) :
    (roundQ mode (signFactor n * (q + (r : ℚ) / d)) : ℚ) =
      signFactor n * ((if roundsUp mode n q r d then q + 1 else q : Nat) : ℚ) := by
  have hd : 0 < d := by omega
  have hiff := roundsUp_iff (mode := mode) (n := n) (q := q) (r := r) hd
  have h0 : (0 : ℚ) ≤ (r : ℚ) / d := by positivity
  have h1 : (r : ℚ) / d < 1 := by rw [div_lt_one (by exact_mod_cast hd)]; exact_mod_cast hr
  generalize hup : roundsUp mode n q r d = up at hiff ⊢
  generalize (r : ℚ) / d = f at hiff h0 h1 ⊢
  have hfl := floor_nat_add q h0 h1
  have hce := ceil_nat_add q h0 h1
  have hq : (0 : ℚ) ≤ q := Nat.cast_nonneg q
  have hnf : ⌊-((q : ℚ) + f)⌋ = -⌈(q : ℚ) + f⌉ := Int.floor_neg
  have hnc : ⌈-((q : ℚ) + f)⌉ = -⌊(q : ℚ) + f⌋ := Int.ceil_neg
  have hcast : ∀ z : ℤ, z = (if up then ((q : ℤ) + 1) else q) →
      (z : ℚ) = ((if up then q + 1 else q : Nat) : ℚ) := by
    rintro z rfl; cases up <;> simp
  have hzero : -((q : ℚ) + f) < 0 ∨ (q = 0 ∧ f = 0) := by
    rcases h0.eq_or_lt with h | h
    · rcases Nat.eq_zero_or_pos q with h' | h'
      · exact .inr ⟨h', h.symm⟩
      · left; have : (0 : ℚ) < q := by exact_mod_cast h'
        linarith
    · left; linarith
  have hnn : ¬((q : ℚ) + f < 0) := not_lt.2 (by linarith)
  cases n
  · rw [signFactor_false, one_mul, one_mul]
    apply hcast
    cases mode <;> simp only [roundQ, truncQ, if_neg hnn] at hiff ⊢
    · rw [hfl]; cases up <;> simp at hiff ⊢
    · rw [hce]; cases up <;> simp_all
    · rw [hfl]; cases up <;> simp at hiff ⊢
    · rw [Int.floor_eq_iff]; cases up <;> simp at hiff ⊢ <;> constructor <;> linarith
    · rw [Int.ceil_eq_iff]; cases up <;> simp at hiff ⊢ <;> constructor <;> linarith
    · rw [hfl]
      have e1 : (q : ℚ) + f - ((q : ℤ) : ℚ) = f := by push_cast; ring
      rw [e1]
      have hev : Even (q : ℤ) ↔ q % 2 = 0 := by rw [Int.even_coe_nat, Nat.even_iff]
      split
      · cases up
        · simp
        · exfalso
          rcases (hiff.1 rfl : 1 / 2 < f ∨ f = 1 / 2 ∧ q % 2 = 1) with h | h
          · linarith
          · linarith [h.1]
      · split
        · cases up
          · exfalso; exact Bool.false_ne_true (hiff.2 (.inl ‹_›))
          · simp
        · have hf : f = 1 / 2 := by linarith
          split <;> rename_i h <;> rw [hev] at h
          · cases up
            · simp
            · exfalso
              rcases (hiff.1 rfl : 1 / 2 < f ∨ f = 1 / 2 ∧ q % 2 = 1) with h' | h'
              · linarith
              · omega
          · cases up
            · exfalso; exact Bool.false_ne_true (hiff.2 (.inr ⟨hf, by omega⟩))
            · simp
    · exact absurd rfl hm
  · rw [signFactor_true, neg_one_mul, neg_one_mul]
    have hcastn : ∀ z : ℤ, -z = (if up then ((q : ℤ) + 1) else q) →
        (z : ℚ) = -((if up then q + 1 else q : Nat) : ℚ) := by
      intro z hz; rw [← hcast _ hz]; push_cast; ring
    apply hcastn
    rcases hzero with hneg | ⟨rfl, rfl⟩
    · cases mode <;> simp only [roundQ, truncQ, if_pos hneg, neg_neg] at hiff ⊢
      · rw [hnf, neg_neg, hce]; cases up <;> simp_all
      · rw [hnc, neg_neg, hfl]; cases up <;> simp_all
      · rw [hnc, neg_neg, hfl]; cases up <;> simp at hiff ⊢
      · rw [Int.floor_eq_iff]; cases up <;> simp at hiff ⊢ <;> constructor <;> linarith
      · rw [Int.ceil_eq_iff]; cases up <;> simp at hiff ⊢ <;> constructor <;> linarith
      · rw [hnf, hce]
        rcases h0.eq_or_lt with h | h
        · subst h
          have : up = false := by
            cases up
            · rfl
            · exfalso
              rcases (hiff.1 rfl : (1 : ℚ) / 2 < 0 ∨ (0 : ℚ) = 1 / 2 ∧ q % 2 = 1) with h | h
              · linarith
              · linarith [h.1]
          simp [this]
        · rw [if_pos h]
          have e1 : -((q : ℚ) + f) - ((-((q : ℤ) + 1) : ℤ) : ℚ) = 1 - f := by push_cast; ring
          have hev : Even (-((q : ℤ) + 1)) ↔ q % 2 = 1 := by
            rw [even_neg, Int.even_add_one, Int.even_coe_nat, Nat.even_iff]; omega
          rw [e1]
          split
          · cases up
            · exfalso; exact Bool.false_ne_true (hiff.2 (.inl (by linarith)))
            · simp
          · split
            · cases up
              · simp
              · exfalso
                rcases (hiff.1 rfl : 1 / 2 < f ∨ f = 1 / 2 ∧ q % 2 = 1) with h' | h'
                · linarith
                · linarith [h'.1]
            · have hf : f = 1 / 2 := by linarith
              split <;> rename_i h <;> rw [hev] at h
              · cases up
                · exfalso; exact Bool.false_ne_true (hiff.2 (.inr ⟨hf, h⟩))
                · simp
              · cases up
                · simp
                · exfalso
                  rcases (hiff.1 rfl : 1 / 2 < f ∨ f = 1 / 2 ∧ q % 2 = 1) with h' | h'
                  · linarith
                  · exact h h'.2
      · exact absurd rfl hm
    · have hup : up = false := by
        cases up
        · rfl
        · exfalso; cases mode <;> norm_num at hiff
      subst hup
      cases mode <;> norm_num [roundQ, truncQ, Int.floor_eq_iff, Int.ceil_eq_iff]

theorem roundCore_copy {t : Tier} {a : Dec} {p : Nat} {mode : RoundMode} (k : Nat) (hm : mode ≠ .fract)
    (h : a.scale ≤ p) : roundCore t a p mode k = .value a k := by
  rw [roundCore, if_neg hm, if_pos h]

/-- Rounding below the scale: the number rounded at `p` places, or `OVF` when that reaches `2^W`. -/
theorem roundCore_fits {t : Tier} {a : Dec} {p : Nat} {mode : RoundMode} (ha : a.valid t = true) (k : Nat)
    (hm : mode ≠ .fract) (h : p < a.scale) :
    (roundCore t a p mode k).Fits t (roundQ mode (a.val * 10 ^ p) / 10 ^ p) p := by
  have hs := (Dec.valid_iff.1 ha).2.1
  rw [roundCore, if_neg hm, if_neg (not_le.2 h), roundTo]
  have hd : 0 < 10 ^ (a.scale - p) := by positivity
  have hval : a.val * 10 ^ p = signFactor a.neg *
      ((a.comb / 10 ^ (a.scale - p) : Nat) + ((a.comb % 10 ^ (a.scale - p) : Nat) : ℚ) / (10 ^ (a.scale - p) : Nat)) := by
    have h1 : (a.comb : ℚ) = (10 ^ (a.scale - p) : Nat) * (a.comb / 10 ^ (a.scale - p) : Nat) +
        (a.comb % 10 ^ (a.scale - p) : Nat) := by exact_mod_cast (Nat.div_add_mod _ _).symm
    have h2 : (10 : ℚ) ^ a.scale = 10 ^ p * ((10 ^ (a.scale - p) : Nat) : ℚ) := by
      push_cast; rw [← pow_add]; congr 1; omega
    have h3 : ((10 ^ (a.scale - p) : Nat) : ℚ) ≠ 0 := by exact_mod_cast hd.ne'
    rw [Dec.val_eq, h2, mul_assoc]
    congr 1
    generalize ((10 ^ (a.scale - p) : Nat) : ℚ) = d at *
    rw [h1, div_mul_eq_mul_div, div_eq_iff (mul_ne_zero (pow10_ne p) h3)]
    field_simp
  rw [hval, roundQ_eq hm _ _ _ _ (Nat.mod_lt _ hd), mul_div_assoc]
  exact mkDec_fits _ _ _ (by omega)

/-- Fract: the value less its integer part, at its own scale (43_rounding.md R262). -/
theorem roundCore_fract {t : Tier} {a : Dec} (ha : a.valid t = true) (p k : Nat) :
    (roundCore t a p .fract k).Yields t (a.val - truncQ a.val) a.scale := by
  obtain ⟨-, hs, hf⟩ := Dec.valid_iff.1 ha
  rw [roundCore, if_pos rfl]
  have hfl : (⌊a.mag⌋ : ℚ) = a.int := by
    rw [Dec.mag, ← Dec.comb_div hf]; exact_mod_cast floor_nat_div a.comb (10 ^ a.scale)
  have hx : a.val - truncQ a.val = signFactor a.neg * ((a.frac : ℚ) / 10 ^ a.scale) := by
    rw [Dec.val_eq_mag, truncQ_signFactor_mul _ a.mag_nonneg, hfl, ← mul_sub, Dec.mag, Dec.comb]
    congr 1
    push_cast
    rw [add_div, mul_div_cancel_right₀ _ (pow10_ne _)]; ring
  rw [hx]
  refine Computed.Yields.of_fits (mkDec_fits _ _ _ hs) ?_
  rw [abs_mul, abs_signFactor, one_mul, abs_of_nonneg (by positivity), div_lt_iff₀ (pow10_pos _)]
  have : a.frac < 2 ^ Config.width t * 10 ^ a.scale := by
    calc a.frac < 10 ^ a.scale := hf
      _ ≤ 2 ^ Config.width t * 10 ^ a.scale := Nat.le_mul_of_pos_left _ (by positivity)
  exact_mod_cast this

end Sys2Proof.Machine
end

