-- ==== Sys2Proof/Laws/Ops.lean ====
section
/-! SUPPORT. What the shared operations can do: delivering results, reading operands, the window, issue, and every
command (one inversion lemma for `exec`). -/

namespace Sys2Proof.Machine

/-! ### What a core may answer -/

/-- The core's causes are real ones of its own, and its value is valid. -/
def Computed.Sound (r : Computed) (t : Tier) : Prop :=
  match r with
  | .value v _ => v.valid t = true
  | .ovf => True
  | .raise c => c ≠ .none ∧ c ≠ .illegalCommand ∧ c ≠ .invalidOperand

theorem Computed.Sound.of_yields {r : Computed} {t : Tier} {x : ℚ} {s : Nat} (h : r.Yields t x s) : r.Sound t := by
  obtain ⟨v, k, rfl, hv, -⟩ := h; exact hv

theorem Computed.Sound.of_fits {r : Computed} {t : Tier} {x : ℚ} {s : Nat} (h : r.Fits t x s) : r.Sound t := by
  rcases h with ⟨-, h⟩ | ⟨-, rfl⟩
  · exact .of_yields h
  · trivial

theorem Computed.Sound.bind {r : Computed} {t : Tier} {f : Dec → Nat → Computed} (hr : r.Sound t)
    (hf : ∀ v k, v.valid t = true → (f v k).Sound t) : (r.bind f).Sound t := by
  cases r with
  | value v k => exact hf v k hr
  | ovf => trivial
  | raise c => exact hr

theorem addCore_sound {t : Tier} {a b : Dec} (ha : a.valid t = true) (hb : b.valid t = true) (k : Nat) :
    (addCore t a b k).Sound t := .of_fits (addCore_fits ha hb k)

theorem mulCore_sound {T : Config.TargetScales} (t : Tier) (a b : Dec) (k : Nat) : (mulCore T t a b k).Sound t := .of_fits (mulCore_fits a b k)

theorem divCore_sound {T : Config.TargetScales} (t : Tier) (a b : Dec) (k : Nat) : (divCore T t a b k).Sound t := by
  by_cases h : b.comb = 0
  · rw [divCore_zero t a k h]; exact ⟨by decide, by decide, by decide⟩
  · exact .of_fits (divCore_fits a k h)

theorem remCore_sound {T : Config.TargetScales} {t : Tier} {a : Dec} (b : Dec) (ha : a.valid t = true) (k : Nat) :
    (remCore T t a b k).Sound t := by
  by_cases h : b.comb = 0
  · rw [remCore, divCore_zero t a k h]; exact ⟨by decide, by decide, by decide⟩
  · rcases remCore_cases ha h k with ⟨-, h⟩ | ⟨-, h⟩
    · exact .of_yields h
    · rw [h]; trivial

theorem powLoop_sound {T : Config.TargetScales} {t : Tier} (fuel e : Nat) {r : Dec} (b : Dec) (hr : r.valid t = true) (k : Nat) :
    (powLoop T t fuel e r b k).Sound t := by
  induction fuel generalizing e r b k with
  | zero => exact hr
  | succ fuel ih =>
    rw [powLoop]
    split
    · exact hr
    · refine Computed.Sound.bind ?_ fun r₁ k₁ h₁ => ?_
      · split
        · exact mulCore_sound t r b k
        · exact hr
      · split
        · exact h₁
        · exact Computed.Sound.bind (mulCore_sound t b b k₁) fun b₁ k₂ _ => ih _ _ h₁ k₂

theorem Dec.one_valid (t : Tier) : Dec.one.valid t = true := by cases t <;> decide

theorem powCore_sound {T : Config.TargetScales} {t : Tier} {a : Dec} (ha : a.valid t = true) (n : Int) (k : Nat) : (powCore T t a n k).Sound t := by
  rw [powCore]
  split
  · exact Dec.one_valid t
  · refine Computed.Sound.bind ?_ fun b k₁ _ => powLoop_sound _ _ b (Dec.one_valid t) k₁
    split
    · exact divCore_sound t .one a k
    · exact ha

theorem sqrtCore_sound {t : Tier} {a : Dec} (ha : a.valid t = true) (k : Nat) : (sqrtCore t a k).Sound t := by
  by_cases h : a.comb = 0
  · obtain ⟨v, k', hv, h, -⟩ := sqrtCore_zero (t := t) k h
    rw [hv]; exact h
  · cases hn : a.neg
    · obtain ⟨v, k', hv, h, -⟩ := sqrtCore_positive ha k h hn
      rw [hv]; exact h
    · rw [sqrtCore_negative k h hn]; exact ⟨by decide, by decide, by decide⟩

theorem roundCore_sound {t : Tier} {a : Dec} (ha : a.valid t = true) (p : Nat) (mode : RoundMode) (k : Nat) :
    (roundCore t a p mode k).Sound t := by
  by_cases hm : mode = .fract
  · subst hm; exact .of_yields (roundCore_fract ha p k)
  · rcases le_or_gt a.scale p with h | h
    · rw [roundCore_copy k hm h]; exact ha
    · exact .of_fits (roundCore_fits ha k hm h)

/-! ### Every command (60_exceptions.md R300) -/

/-- The ways a command can leave the state `s`. -/
inductive Ending (i : Instr) (s : State) : State → Prop where
  /-- RES took a valid value. -/
  | value (v : Dec) (k : Nat) (hi : i.isValue = true) (hv : v.valid i.tier = true) : Ending i s (s.completeValue v k)
  /-- STATUS.CMP took a comparison. -/
  | cmp (t : Tier) (o : Ordering) (hi : i = .cmp t) : Ending i s (s.completeCmp o)
  /-- KQ took a product or a root. -/
  | kq (q : Nat) (hi : i.isKernel = true) : Ending i s (s.completeKq q)
  /-- KQ and KR took a quotient and a remainder. -/
  | kqkr (q r : Nat) (hi : (∃ t, i = .divw t) ∨ i = .divq) : Ending i s (s.completeKqKr q r)
  /-- A checked command overflowed. -/
  | absent (hi : i.checked = true) : Ending i s s.absent
  /-- A fault was raised. -/
  | fault (c : Cause) (hc : c ≠ .none) (hl : c ≠ .illegalCommand) (hk : i.isKernel = true → c ≠ .invalidOperand) :
      Ending i s (s.raiseFault c)

/-- `exec i s` is a next state that one of the endings gives. -/
def Ends (i : Instr) (s : State) (r : Result) : Prop := ∃ t, r = .next t ∧ Ending i s t

theorem ends_deliver {i : Instr} {s : State} {r : Computed} {cause : Cause} {c : Bool} (hi : i.isValue = true)
    (hc : c = true → i.checked = true) (hr : r.Sound i.tier) (h1 : cause ≠ .none) (h2 : cause ≠ .illegalCommand)
    (hk : i.isKernel = false) : Ends i s (deliver r c cause s) := by
  cases r with
  | value v k => exact ⟨_, rfl, .value v k hi hr⟩
  | ovf =>
    cases c
    · exact ⟨_, rfl, .fault cause h1 h2 (by simp [hk])⟩
    · exact ⟨_, rfl, .absent (hc rfl)⟩
  | raise e => exact ⟨_, rfl, .fault e hr.1 hr.2.1 fun _ => hr.2.2⟩

theorem ends_withOperandA {i : Instr} {s : State} {t : Tier} {f : Dec → Result} (hk : i.isKernel = false)
    (hf : s.latch.a.toDec.valid t = true → Ends i s (f s.latch.a.toDec)) : Ends i s (withOperandA t s f) := by
  unfold withOperandA
  split
  · exact hf ‹_›
  · exact ⟨_, rfl, .fault _ (by decide) (by decide) (by simp [hk])⟩

theorem ends_withOperands {i : Instr} {s : State} {t : Tier} {f : Dec → Dec → Result} (hk : i.isKernel = false)
    (hf : s.latch.a.toDec.valid t = true → s.latch.b.toDec.valid t = true →
      Ends i s (f s.latch.a.toDec s.latch.b.toDec)) : Ends i s (withOperands t s f) := by
  refine ends_withOperandA hk fun ha => ?_
  split
  · exact hf ha ‹_›
  · exact ⟨_, rfl, .fault _ (by decide) (by decide) (by simp [hk])⟩

theorem ends_divideKernel {i : Instr} {s : State} (hi : (∃ t, i = .divw t) ∨ i = .divq) (W n d : Nat) :
    Ends i s (divideKernel W n d s) := by
  unfold divideKernel
  split
  · exact ⟨_, rfl, .fault _ (by decide) (by decide) fun _ => by decide⟩
  · split
    · exact ⟨_, rfl, .fault _ (by decide) (by decide) fun _ => by decide⟩
    · exact ⟨_, rfl, .kqkr _ _ hi⟩

theorem ends_round {i : Instr} {s : State} {mode : RoundMode} {t : Tier} {c : Bool} (hi : i = roundInstr mode t c) :
    Ends i s (roundCommand mode t c s) := by
  have hs : i.isValue = true ∧ i.isKernel = false ∧ i.tier = t ∧ i.checked = c := by
    subst hi; cases mode <;> exact ⟨rfl, rfl, rfl, rfl⟩
  obtain ⟨h1, h2, rfl, rfl⟩ := hs
  exact ends_withOperandA h2 fun ha => ends_deliver h1 id (roundCore_sound ha _ _ _) (by decide) (by decide) h2

/-- Every command answers a next state, by one of the six endings. -/
theorem exec_ends (i : Instr) (s : State) : Ends i s (exec i s) := by
  cases i with
  | add t c =>
    unfold exec execAdd
    exact ends_withOperands rfl fun ha hb => ends_deliver rfl id (addCore_sound ha hb _) (by decide) (by decide) rfl
  | sub t c =>
    unfold exec execSub
    exact ends_withOperands rfl fun ha hb =>
      ends_deliver rfl id (addCore_sound (b := s.latch.b.toDec.negate) ha hb _) (by decide) (by decide) rfl
  | mul t c =>
    unfold exec execMul
    exact ends_withOperands rfl fun _ _ => ends_deliver rfl id (mulCore_sound t _ _ _) (by decide) (by decide) rfl
  | pow t c =>
    unfold exec execPow
    exact ends_withOperandA rfl fun ha => ends_deliver rfl id (powCore_sound ha _ _) (by decide) (by decide) rfl
  | div t =>
    unfold exec execDiv
    exact ends_withOperands rfl fun _ _ =>
      ends_deliver rfl (by simp) (divCore_sound t _ _ _) (by decide) (by decide) rfl
  | rem t =>
    unfold exec execRem
    exact ends_withOperands rfl fun ha _ =>
      ends_deliver rfl (by simp) (remCore_sound _ ha _) (by decide) (by decide) rfl
  | sqrt t =>
    unfold exec execSqrt
    exact ends_withOperandA rfl fun ha =>
      ends_deliver rfl (by simp) (sqrtCore_sound ha _) (by decide) (by decide) rfl
  | roundFloor t c => exact ends_round (mode := .floor) rfl
  | roundCeil t c => exact ends_round (mode := .ceiling) rfl
  | roundTrunc t c => exact ends_round (mode := .truncate) rfl
  | roundHalfUp t c => exact ends_round (mode := .halfUp) rfl
  | roundHalfDown t c => exact ends_round (mode := .halfDown) rfl
  | roundHalfEven t c => exact ends_round (mode := .halfEven) rfl
  | roundFract t c => exact ends_round (mode := .fract) rfl
  | cmp t =>
    unfold exec execCmp
    exact ends_withOperands rfl fun _ _ => ⟨_, rfl, .cmp t _ rfl⟩
  | canon t =>
    unfold exec execCanon
    exact ends_withOperandA rfl fun ha => ⟨_, rfl, .value _ _ rfl (canonCore_spec ha).1⟩
  | mulw t => exact ⟨_, rfl, .kq _ rfl⟩
  | mulq => exact ⟨_, rfl, .kq _ rfl⟩
  | divw t => exact ends_divideKernel (.inl ⟨t, rfl⟩) _ _ _
  | divq => exact ends_divideKernel (.inr rfl) _ _ _
  | isqrt t => exact ⟨_, rfl, .kq _ rfl⟩

/-! ### The window (20_memory.md R72 to R75) -/

theorem wordAt_setWordAt_same {n : Nat} (x : BitVec n) {k : Nat} (v : Word) (h : 32 * k + 32 ≤ n) :
    wordAt (setWordAt x k v) k = v := by
  ext i hi
  simp only [wordAt, setWordAt, BitVec.getElem_extractLsb', BitVec.getLsbD_or, BitVec.getLsbD_and, BitVec.getLsbD_not,
    BitVec.getLsbD_shiftLeft, BitVec.getLsbD_setWidth, BitVec.getLsbD_allOnes]
  have h1 : 32 * k + i < n := by omega
  have h2 : ¬(32 * k + i < 32 * k) := by omega
  have h3 : 32 * k + i - 32 * k = i := by omega
  have h4 : i < n := by omega
  simp [h1, h2, h3, h4, hi]

theorem wordAt_setWordAt_other {n : Nat} (x : BitVec n) {j k : Nat} (v : Word) (h : j ≠ k) :
    wordAt (setWordAt x k v) j = wordAt x j := by
  ext i hi
  simp only [wordAt, setWordAt, BitVec.getElem_extractLsb', BitVec.getLsbD_or, BitVec.getLsbD_and, BitVec.getLsbD_not,
    BitVec.getLsbD_shiftLeft, BitVec.getLsbD_setWidth, BitVec.getLsbD_allOnes]
  by_cases hn : 32 * j + i < n
  · by_cases hlt : 32 * j + i < 32 * k
    · simp [hn, hlt]
    · have h5 : ¬(32 * j + i - 32 * k < 32) := by omega
      have h6 : v.getLsbD (32 * j + i - 32 * k) = false := BitVec.getLsbD_of_ge _ _ (by omega)
      simp [hlt, h5, h6, hn]
  · have h7 : x.getLsbD (32 * j + i) = false := BitVec.getLsbD_of_ge _ _ (by omega)
    simp [hn, h7]

theorem windowOffset_ok {addr size off : Nat} :
    windowOffset addr size = .ok off ↔
      size = 4 ∧ addr % 4 = 0 ∧ addr = Config.windowBase + off ∧ off < Config.windowSize := by
  unfold windowOffset
  split
  · simp_all
  · split
    · constructor
      · simp
      · rintro ⟨-, -, h, h'⟩; omega
    · split
      · constructor
        · simp
        · rintro ⟨-, h, -⟩; omega
      · rw [Except.ok.injEq]; omega

/-- An aligned offset inside the window is reached by its address. -/
theorem windowOffset_base {off : Nat} (h : off < Config.windowSize) (h4 : off % 4 = 0) :
    windowOffset (Config.windowBase + off) 4 = .ok off :=
  windowOffset_ok.2 ⟨rfl, by unfold Config.windowBase; omega, rfl, h⟩

/-- An issue attempt is accepted or dropped (70_reset_and_hazards.md R345). -/
theorem State.issue_cases (s : State) (w : Word) :
    (s.status.busy = false ∧ s.status.fault = false ∧ s.issue w = s.accept w) ∨
    ((s.status.busy = true ∨ s.status.fault = true) ∧ s.issue w = s.dropIssue) := by
  unfold State.issue State.accepts
  cases s.status.busy <;> cases s.status.fault <;> simp

/-- Everything a host write can do: reset, issue, write an operand register, or nothing. -/
theorem writeWord_cases (s : State) (off : Nat) (v : Word) :
    (slotOf off = .ctrl ∧ v.getLsbD 0 = true ∧ writeWord s off v = s.resetUnit) ∨
    (slotOf off = .cmd ∧ writeWord s off v = s.issue v) ∨
    ∃ a b g ka kb, writeWord s off v = { s with opa := a, opb := b, arg := g, ka := ka, kb := kb } := by
  unfold writeWord
  split
  · split
    · exact .inl ⟨‹_›, ‹_›, rfl⟩
    · exact .inr (.inr ⟨_, _, _, _, _, rfl⟩)
  · exact .inr (.inl ⟨‹_›, rfl⟩)
  all_goals exact .inr (.inr ⟨_, _, _, _, _, rfl⟩)

end Sys2Proof.Machine
end

