-- ==== Sys2Proof/Laws/Step.lean ====
section
/-! SUPPORT. What one step can do, and the induction over a run packaged once. -/

namespace Sys2Proof.Machine

/-- Everything a move of the host that takes a next state can do. -/
theorem hostMove_next {op : HostOp} {s s' : State} (h : hostMove op s = .next s') :
    (∃ t w, s' = { s.advanceHost with temps := s.temps.set (t : Fin 8) w }) ∨
    (∃ pc, s' = { s.advanceHost with hostPc := pc }) ∨
    (∃ addr size v off, op = .wr addr size v ∧ windowOffset addr size = .ok off ∧
      s' = writeWord s.advanceHost off (s.sourceValue v)) := by
  cases op with
  | rd t addr size =>
    simp only [hostMove] at h
    split at h
    · exact .inl ⟨t, _, (Host.Outcome.next.inj h).symm⟩
    · simp at h
  | wr addr size v =>
    simp only [hostMove] at h
    split at h
    · exact .inr (.inr ⟨addr, size, v, _, rfl, ‹_›, (Host.Outcome.next.inj h).symm⟩)
    · simp at h
  | ifGoto t mask value target =>
    simp only [hostMove] at h
    split at h <;> exact .inr (.inl ⟨_, (Host.Outcome.next.inj h).symm⟩)

/-- A move of the host never faults: it takes a next state or is refused (20_memory.md R75). -/
theorem hostMove_ne_fault (op : HostOp) (s : State) (r : Fault) : hostMove op s ≠ .fault r := by
  cases op <;> simp only [hostMove] <;> split <;> simp

/-- A host move is admitted exactly when it takes a next state. -/
theorem hostMove_admitted {op : HostOp} {s : State} : op.admitted = true ↔ ∃ s', hostMove op s = .next s' := by
  cases op with
  | rd t addr size => simp only [hostMove, HostOp.admitted]; cases windowOffset addr size <;> simp [Except.isOk, Except.toBool]
  | wr addr size v => simp only [hostMove, HostOp.admitted]; cases windowOffset addr size <;> simp [Except.isOk, Except.toBool]
  | ifGoto t mask value target => simp [hostMove, HostOp.admitted]

/-- Everything the unit's move can do. -/
theorem unitMove_cases (s : State) :
    (∃ i t, decode s.latch.cmd = .ok i ∧ unitMove s = .next t ∧ Ending i s t) ∨
    (∃ e, decode s.latch.cmd = .error e ∧ unitMove s = .next (s.raiseFault .illegalCommand)) := by
  unfold unitMove
  cases h : decode s.latch.cmd with
  | ok i =>
    obtain ⟨t, ht, he⟩ := exec_ends i s
    exact .inl ⟨i, t, rfl, ht, he⟩
  | error e => exact .inr ⟨e, rfl, rfl⟩

theorem step_unit {s : State} (h : s.unitMoves = true) : step s = unitMove s := by rw [step, if_pos h]

theorem step_host {s : State} {op : HostOp} (h : s.unitMoves = false) (hop : s.prog[s.hostPc]? = some op) :
    step s = hostMove op s := by rw [step, if_neg (by simp [h]), hop]

theorem step_ended {s : State} (h : s.unitMoves = false) (hop : s.prog[s.hostPc]? = none) :
    step s = .fault .runEnded := by rw [step, if_neg (by simp [h]), hop]

/-- Everything a step that takes a next state can do. -/
theorem step_next {s s' : State} (h : step s = .next s') :
    (s.unitMoves = true ∧ ∃ i, decode s.latch.cmd = .ok i ∧ Ending i s s') ∨
    (s.unitMoves = true ∧ s' = s.raiseFault .illegalCommand) ∨
    (s.unitMoves = false ∧ ∃ op, s.prog[s.hostPc]? = some op ∧ hostMove op s = .next s') := by
  cases hu : s.unitMoves
  · refine .inr (.inr ⟨rfl, ?_⟩)
    cases hop : s.prog[s.hostPc]? with
    | none => rw [step_ended hu hop] at h; simp at h
    | some op => exact ⟨op, rfl, step_host hu hop ▸ h⟩
  · rw [step_unit hu] at h
    rcases unitMove_cases s with ⟨i, t, hd, ht, he⟩ | ⟨e, -, ht⟩
    · rw [ht] at h
      obtain rfl := Host.Outcome.next.inj h
      exact .inl ⟨rfl, i, hd, he⟩
    · rw [ht] at h
      exact .inr (.inl ⟨rfl, (Host.Outcome.next.inj h).symm⟩)

theorem State.pending_of_unitMoves {s : State} (h : s.unitMoves = true) : s.pending = true := by
  simp only [State.unitMoves, Bool.and_eq_true] at h
  exact h.1

theorem State.not_unitMoves_of_idle {s : State} (h : s.pending = false) : s.unitMoves = false := by
  simp [State.unitMoves, h]

theorem run_succ_next {n : Nat} {s t : State} (h : step s = .next t) :
    Sys2Proof.core.run (n + 1) s = Sys2Proof.core.run n t := by
  have h' : Sys2Proof.core.step s = .next t := h
  simp only [Host.Core.run, h']

theorem run_succ_fault {n : Nat} {s : State} {r : Fault} (h : step s = .fault r) :
    Sys2Proof.core.run (n + 1) s = .fault r := by
  have h' : Sys2Proof.core.step s = .fault r := h
  simp only [Host.Core.run, h']

theorem run_succ_refused {n : Nat} {s : State} {r : Refusal} (h : step s = .refused r) :
    Sys2Proof.core.run (n + 1) s = .refused r := by
  have h' : Sys2Proof.core.step s = .refused r := h
  simp only [Host.Core.run, h']

/-- What every step keeps holds along every run. -/
theorem run_keeps {P : State → Prop} (hP : ∀ s s', P s → step s = .next s' → P s') (n : Nat) {s s' : State}
    (hs : P s) (h : Sys2Proof.core.run n s = .next s') : P s' := by
  induction n generalizing s with
  | zero => obtain rfl := Host.Outcome.next.inj h; exact hs
  | succ n ih =>
    cases hstep : step s with
    | next t => rw [run_succ_next hstep] at h; exact ih (hP s t hs hstep) h
    | fault r => rw [run_succ_fault hstep] at h; cases h
    | refused r => rw [run_succ_refused hstep] at h; cases h

end Sys2Proof.Machine
end

