-- ==== Sys2Proof/Laws/PerInstr.lean ====
section
/-! SUPPORT. What holds of every command as syntax, one lemma for each constructor. -/

namespace Sys2Proof.Laws.LegalEncoding

/-- The command's own word is legal (30_encoding.md R106). -/
def Statement (i : Instr) : Prop := legal (encode i) = true

theorem add (t : Tier) (c : Bool) : Statement (.add t c) := by cases t <;> cases c <;> rfl
theorem sub (t : Tier) (c : Bool) : Statement (.sub t c) := by cases t <;> cases c <;> rfl
theorem mul (t : Tier) (c : Bool) : Statement (.mul t c) := by cases t <;> cases c <;> rfl
theorem pow (t : Tier) (c : Bool) : Statement (.pow t c) := by cases t <;> cases c <;> rfl
theorem roundFloor (t : Tier) (c : Bool) : Statement (.roundFloor t c) := by cases t <;> cases c <;> rfl
theorem roundCeil (t : Tier) (c : Bool) : Statement (.roundCeil t c) := by cases t <;> cases c <;> rfl
theorem roundTrunc (t : Tier) (c : Bool) : Statement (.roundTrunc t c) := by cases t <;> cases c <;> rfl
theorem roundHalfUp (t : Tier) (c : Bool) : Statement (.roundHalfUp t c) := by cases t <;> cases c <;> rfl
theorem roundHalfDown (t : Tier) (c : Bool) : Statement (.roundHalfDown t c) := by cases t <;> cases c <;> rfl
theorem roundHalfEven (t : Tier) (c : Bool) : Statement (.roundHalfEven t c) := by cases t <;> cases c <;> rfl
theorem roundFract (t : Tier) (c : Bool) : Statement (.roundFract t c) := by cases t <;> cases c <;> rfl
theorem div (t : Tier) : Statement (.div t) := by cases t <;> rfl
theorem rem (t : Tier) : Statement (.rem t) := by cases t <;> rfl
theorem sqrt (t : Tier) : Statement (.sqrt t) := by cases t <;> rfl
theorem cmp (t : Tier) : Statement (.cmp t) := by cases t <;> rfl
theorem canon (t : Tier) : Statement (.canon t) := by cases t <;> rfl
theorem mulw (t : Tier) : Statement (.mulw t) := by cases t <;> rfl
theorem divw (t : Tier) : Statement (.divw t) := by cases t <;> rfl
theorem isqrt (t : Tier) : Statement (.isqrt t) := by cases t <;> rfl
theorem mulq : Statement .mulq := rfl
theorem divq : Statement .divq := rfl

end Sys2Proof.Laws.LegalEncoding
end

