-- ==== Sys2Proof/Tests/Slice0.lean ====
section
/-! SUPPORT. Tests: well-formedness, decoding by words written out from the spec, one step of each command from
spec/95_test_vectors.md, the window and the host's moves, and a witness for the hypotheses of every statement. -/

namespace Sys2Proof.Machine.Tests

set_option Elab.async false

/-! ### States -/

/-- The state whose next step runs the word `w` on `a`, `b` and ARG. -/
def ready (w : Nat) (a b : DecReg) (arg : Word) : State :=
  { State.reset with opa := a, opb := b, arg := arg }.withFetchWord 32 w

/-- The state whose next step runs the word `w` on KA and KB. -/
def readyK (w : Nat) (ka : Word512) (kb : Word256) : State :=
  { State.reset with ka := ka, kb := kb }.withFetchWord 32 w

/-- The next step takes a next state with these RES and STATUS. -/
def gives (s : State) (res : DecReg) (status : Word) : Bool :=
  match step s with
  | .next t => t.res == res && t.status.word == status
  | .fault _ => false
  | .refused _ => false

/-- The next step takes a next state with a zero of scale `scale` in RES, of either sign, and this STATUS. -/
def givesZero (s : State) (scale : BitVec 8) (status : Word) : Bool :=
  match step s with
  | .next t => t.res.int == 0 && t.res.frac == 0 && t.res.scale == scale && t.status.word == status
  | .fault _ => false
  | .refused _ => false

/-- The next step takes a next state with these KQ, KR and STATUS. -/
def givesK (s : State) (kq : Word512) (kr : Word256) (status : Word) : Bool :=
  match step s with
  | .next t => t.kq == kq && t.kr == kr && t.status.word == status
  | .fault _ => false
  | .refused _ => false

/-- The operands `a`, `b` and ARG in the latch of a reset unit. -/
def latched (a b : DecReg) (arg : Word) : State :=
  { State.reset with latch := { Latch.zero with a := a, b := b, arg := arg } }

/-- The operands KA and KB in the latch of a reset unit. -/
def latchedK (ka : Word512) (kb : Word256) : State :=
  { State.reset with latch := { Latch.zero with ka := ka, kb := kb } }

/-- A reset unit whose host makes one move. -/
def hostAt (op : HostOp) : State := { State.reset with prog := [op] }

/-- A unit that runs the word `w` for `n` more host steps, while its host makes one move. -/
def busyAt (op : HostOp) (w : Word) (n : Nat) : State :=
  { State.reset with
    cmd := w, latch := { Latch.zero with cmd := w }, status := { Status.zero with busy := true },
    pending := true, latency := n, prog := [op] }

/-- A unit in its fault state, while its host makes one move. -/
def faultedAt (op : HostOp) : State :=
  { State.reset with status := { Status.zero with fault := true, cause := .overflow }, prog := [op] }

/-- A write of a constant to an offset of the window. -/
def writeAt (off : Nat) (v : Word) : HostOp := .wr (Config.windowBase + off) 4 (.imm v)

/-! ### Well-formedness: each check refuses an ill-formed word (30_encoding.md R106) -/

theorem test_illformed_reserved :
    let f : CmdFields := { op := 0x01, tier := 2, mode := 0, c := false, reserved := 1 }
    f.reservedOk = false ∧ f.legal = false := by decide

theorem test_illformed_op :
    let f : CmdFields := { op := 0x0B, tier := 2, mode := 0, c := false, reserved := 0 }
    f.opOk = false ∧ f.legal = false := by decide

theorem test_illformed_round_mode :
    let f : CmdFields := { op := 0x08, tier := 2, mode := 7, c := false, reserved := 0 }
    f.modeOk = false ∧ f.legal = false := by decide

theorem test_illformed_mode :
    let f : CmdFields := { op := 0x01, tier := 2, mode := 1, c := false, reserved := 0 }
    f.modeOk = false ∧ f.legal = false := by decide

theorem test_illformed_checked :
    let f : CmdFields := { op := 0x04, tier := 2, mode := 0, c := true, reserved := 0 }
    f.checkedOk = false ∧ f.legal = false := by decide

theorem test_illformed_tier :
    let f : CmdFields := { op := 0x11, tier := 2, mode := 0, c := false, reserved := 0 }
    f.tierOk = false ∧ f.legal = false := by decide

theorem test_wellformed :
    ({ op := 0x08, tier := 3, mode := 6, c := true, reserved := 0 } : CmdFields).legal = true := by decide

/-! ### Decoding: reserved bits, C, MODE, TIER and OP, written out bit by bit (30_encoding.md R100 to R103) -/

theorem test_decode_arith :
    decode (0#20 ++ 0b0#1 ++ 0b000#3 ++ 0b10#2 ++ 0b000001#6) = .ok (.add .standard false) ∧
    decode (0#20 ++ 0b1#1 ++ 0b000#3 ++ 0b01#2 ++ 0b000010#6) = .ok (.sub .small true) ∧
    decode (0#20 ++ 0b1#1 ++ 0b000#3 ++ 0b11#2 ++ 0b000011#6) = .ok (.mul .wide true) ∧
    decode (0#20 ++ 0b0#1 ++ 0b000#3 ++ 0b00#2 ++ 0b000100#6) = .ok (.div .tiny) ∧
    decode (0#20 ++ 0b0#1 ++ 0b000#3 ++ 0b01#2 ++ 0b000101#6) = .ok (.rem .small) ∧
    decode (0#20 ++ 0b1#1 ++ 0b000#3 ++ 0b10#2 ++ 0b000110#6) = .ok (.pow .standard true) ∧
    decode (0#20 ++ 0b0#1 ++ 0b000#3 ++ 0b11#2 ++ 0b000111#6) = .ok (.sqrt .wide) :=
  ⟨rfl, rfl, rfl, rfl, rfl, rfl, rfl⟩

theorem test_decode_compare :
    decode (0#20 ++ 0b0#1 ++ 0b000#3 ++ 0b00#2 ++ 0b001001#6) = .ok (.cmp .tiny) ∧
    decode (0#20 ++ 0b0#1 ++ 0b000#3 ++ 0b01#2 ++ 0b001010#6) = .ok (.canon .small) :=
  ⟨rfl, rfl⟩

theorem test_decode_kernel :
    decode (0#20 ++ 0b0#1 ++ 0b000#3 ++ 0b10#2 ++ 0b010000#6) = .ok (.mulw .standard) ∧
    decode (0#20 ++ 0b0#1 ++ 0b000#3 ++ 0b00#2 ++ 0b010010#6) = .ok (.divw .tiny) ∧
    decode (0#20 ++ 0b0#1 ++ 0b000#3 ++ 0b11#2 ++ 0b010100#6) = .ok (.isqrt .wide) ∧
    decode (0#20 ++ 0b0#1 ++ 0b000#3 ++ 0b11#2 ++ 0b010001#6) = .ok .mulq ∧
    decode (0#20 ++ 0b0#1 ++ 0b000#3 ++ 0b11#2 ++ 0b010011#6) = .ok .divq :=
  ⟨rfl, rfl, rfl, rfl, rfl⟩

theorem test_decode_round :
    decode (0#20 ++ 0b0#1 ++ 0b000#3 ++ 0b00#2 ++ 0b001000#6) = .ok (.roundFloor .tiny false) ∧
    decode (0#20 ++ 0b1#1 ++ 0b001#3 ++ 0b01#2 ++ 0b001000#6) = .ok (.roundCeil .small true) ∧
    decode (0#20 ++ 0b0#1 ++ 0b010#3 ++ 0b10#2 ++ 0b001000#6) = .ok (.roundTrunc .standard false) ∧
    decode (0#20 ++ 0b1#1 ++ 0b011#3 ++ 0b11#2 ++ 0b001000#6) = .ok (.roundHalfUp .wide true) ∧
    decode (0#20 ++ 0b1#1 ++ 0b100#3 ++ 0b00#2 ++ 0b001000#6) = .ok (.roundHalfDown .tiny true) ∧
    decode (0#20 ++ 0b0#1 ++ 0b101#3 ++ 0b10#2 ++ 0b001000#6) = .ok (.roundHalfEven .standard false) ∧
    decode (0#20 ++ 0b1#1 ++ 0b110#3 ++ 0b11#2 ++ 0b001000#6) = .ok (.roundFract .wide true) :=
  ⟨rfl, rfl, rfl, rfl, rfl, rfl, rfl⟩

theorem test_decode_refuses :
    decode 0x00000000 = .error .reservedOp ∧ decode 0x00001001 = .error .reservedBits ∧
    decode 0x00000788 = .error .reservedMode ∧ decode 0x00000101 = .error .modeNotZero ∧
    decode 0x00000804 = .error .checkedNotAllowed ∧ decode 0x00000091 = .error .tierNotWide :=
  ⟨rfl, rfl, rfl, rfl, rfl, rfl⟩

theorem test_assemble_examples :
    (assemble ["add", "t64"]).map encode = some 0x00000081 ∧ (assemble ["mul", "c", "t128"]).map encode = some 0x000008C3 ∧
    (assemble ["round", "halfeven", "t64"]).map encode = some 0x00000588 ∧
    (assemble ["isqrt"]).map encode = some 0x00000014 ∧ assemble ["mulq", "t64"] = none := by decide +kernel

/-! ### One step of each command (spec/95_test_vectors.md) -/

theorem test_add :
    gives (ready 0x81 ⟨0, 9999999999999999999, 19, false⟩ ⟨0, 9999999999999999999, 19, false⟩ 0) ⟨1, 9999999999999999998, 19, false⟩ 0x002 = true ∧
    gives (ready 0x801 ⟨200, 5, 1, false⟩ ⟨55, 5, 1, false⟩ 0) .zero 0x006 = true :=
  ⟨rfl, rfl⟩

theorem test_sub :
    gives (ready 0x82 ⟨1, 2, 1, false⟩ ⟨12, 345, 3, false⟩ 0) ⟨11, 145, 3, true⟩ 0x002 = true ∧
    gives (ready 0x82 ⟨18446744073709551615, 0, 0, false⟩ ⟨1, 0, 0, true⟩ 0) .zero 0x038 = true :=
  ⟨rfl, rfl⟩

theorem test_mul :
    gives (ready 0x03 ⟨0, 5, 1, true⟩ ⟨0, 5, 1, false⟩ 0) ⟨0, 2, 1, true⟩ 0x002 = true ∧
    gives (ready 0x803 ⟨16, 0, 0, false⟩ ⟨16, 0, 0, false⟩ 0) .zero 0x006 = true :=
  ⟨rfl, rfl⟩

theorem test_div :
    gives (ready 0x04 ⟨0, 25, 2, false⟩ ⟨1, 0, 0, false⟩ 0) ⟨0, 2, 1, false⟩ 0x002 = true ∧
    gives (ready 0x84 ⟨1, 0, 0, false⟩ ⟨0, 0, 5, true⟩ 0) .zero 0x048 = true :=
  ⟨rfl, rfl⟩

theorem test_rem :
    gives (ready 0x85 ⟨1, 0, 0, false⟩ ⟨0, 3, 19, false⟩ 0) ⟨0, 1, 18, false⟩ 0x002 = true ∧
    gives (ready 0x05 ⟨200, 0, 0, false⟩ ⟨0, 5, 1, false⟩ 0) .zero 0x068 = true :=
  ⟨rfl, rfl⟩

theorem test_pow :
    gives (ready 0x06 ⟨1, 2, 1, false⟩ ⟨0, 0, 0, false⟩ 6) ⟨2, 6, 1, false⟩ 0x002 = true ∧
    gives (ready 0x886 ⟨0, 0, 0, false⟩ ⟨0, 0, 0, false⟩ 0xFFFFFFFF) .zero 0x048 = true :=
  ⟨rfl, rfl⟩

theorem test_sqrt :
    gives (ready 0x87 ⟨2, 0, 0, false⟩ ⟨0, 0, 0, false⟩ 0) ⟨1, 414213562373095048, 18, false⟩ 0x002 = true ∧
    gives (ready 0x87 ⟨4, 0, 0, true⟩ ⟨0, 0, 0, false⟩ 0) .zero 0x058 = true := by decide +kernel

theorem test_round_floor :
    gives (ready 0x88 ⟨3, 14159, 5, true⟩ ⟨0, 0, 0, false⟩ 2) ⟨3, 15, 2, true⟩ 0x002 = true ∧
    gives (ready 0x08 ⟨255, 5, 1, true⟩ ⟨0, 0, 0, false⟩ 0) .zero 0x038 = true :=
  ⟨rfl, rfl⟩

theorem test_round_ceil :
    gives (ready 0x188 ⟨3, 14159, 5, false⟩ ⟨0, 0, 0, false⟩ 2) ⟨3, 15, 2, false⟩ 0x002 = true ∧
    gives (ready 0x908 ⟨255, 1, 2, false⟩ ⟨0, 0, 0, false⟩ 0) .zero 0x006 = true :=
  ⟨rfl, rfl⟩

theorem test_round_trunc :
    gives (ready 0x288 ⟨3, 14159, 5, true⟩ ⟨0, 0, 0, false⟩ 3) ⟨3, 141, 3, true⟩ 0x002 = true ∧
    givesZero (ready 0x288 ⟨0, 9, 1, true⟩ ⟨0, 0, 0, false⟩ 0) 0 0x002 = true :=
  ⟨rfl, rfl⟩

theorem test_round_halfup :
    gives (ready 0x388 ⟨2, 5, 1, true⟩ ⟨0, 0, 0, false⟩ 0) ⟨3, 0, 0, true⟩ 0x002 = true ∧
    gives (ready 0x388 ⟨3, 14159, 5, false⟩ ⟨0, 0, 0, false⟩ 3) ⟨3, 142, 3, false⟩ 0x002 = true :=
  ⟨rfl, rfl⟩

theorem test_round_halfdown :
    gives (ready 0x488 ⟨2, 5, 1, false⟩ ⟨0, 0, 0, false⟩ 0) ⟨2, 0, 0, false⟩ 0x002 = true ∧
    gives (ready 0x488 ⟨2, 51, 2, false⟩ ⟨0, 0, 0, false⟩ 0) ⟨3, 0, 0, false⟩ 0x002 = true :=
  ⟨rfl, rfl⟩

theorem test_round_halfeven :
    gives (ready 0x588 ⟨1, 235, 3, false⟩ ⟨0, 0, 0, false⟩ 2) ⟨1, 24, 2, false⟩ 0x002 = true ∧
    gives (ready 0x588 ⟨3, 5, 1, false⟩ ⟨0, 0, 0, false⟩ 0) ⟨4, 0, 0, false⟩ 0x002 = true :=
  ⟨rfl, rfl⟩

theorem test_round_fract :
    gives (ready 0x688 ⟨3, 25, 2, true⟩ ⟨0, 0, 0, false⟩ 9) ⟨0, 25, 2, true⟩ 0x002 = true ∧
    givesZero (ready 0x688 ⟨5, 0, 0, false⟩ ⟨0, 0, 0, false⟩ 0) 0 0x002 = true :=
  ⟨rfl, rfl⟩

theorem test_cmp :
    gives (ready 0x89 ⟨1, 2, 1, false⟩ ⟨1, 20, 2, false⟩ 0) .zero 0x202 = true ∧
    gives (ready 0x89 ⟨1, 5, 1, true⟩ ⟨1, 25, 2, true⟩ 0) .zero 0x102 = true :=
  ⟨rfl, rfl⟩

theorem test_canon :
    gives (ready 0x8A ⟨12, 3400, 4, false⟩ ⟨0, 0, 0, false⟩ 0) ⟨12, 34, 2, false⟩ 0x002 = true ∧
    gives (ready 0x8A ⟨0, 0, 0, true⟩ ⟨0, 0, 0, false⟩ 0) ⟨0, 0, 0, false⟩ 0x002 = true :=
  ⟨rfl, rfl⟩

theorem test_mulw :
    givesK (readyK 0x90 0xFFFFFFFFFFFFFFFF 0xFFFFFFFFFFFFFFFF) 0xFFFFFFFFFFFFFFFE0000000000000001 0 0x002 = true := by decide +kernel

theorem test_mulq :
    givesK (readyK 0xD1 (BitVec.ofNat 512 (2 ^ 128)) (BitVec.ofNat 256 (2 ^ 128))) (BitVec.ofNat 512 (2 ^ 256)) 0 0x002 = true := by decide +kernel

theorem test_divw :
    givesK (readyK 0x12 0x1234 0x56) 0x36 0x10 0x002 = true ∧
    givesK (readyK 0x12 0x5600 0x56) 0 0 0x068 = true := by decide +kernel

theorem test_divq :
    givesK (readyK 0xD3 (BitVec.ofNat 512 (10 ^ 76)) (BitVec.ofNat 256 (10 ^ 38))) (BitVec.ofNat 512 (10 ^ 38)) 0 0x002 = true ∧
    givesK (readyK 0xD3 5 0) 0 0 0x048 = true := by decide +kernel

theorem test_isqrt :
    givesK (readyK 0x14 (BitVec.ofNat 512 (2 ^ 512 - 1)) 0) (BitVec.ofNat 512 (2 ^ 256 - 1)) 0 0x002 = true ∧
    givesK (readyK 0xD4 0x56BC75E2D630FFFFF 0) 0x2540BE3FF 0 0x002 = true := by decide +kernel

/-- Illegal words fault before the operands are looked at (60_exceptions.md R302, R320). -/
theorem test_illegal_before_invalid :
    gives (ready 0x784 ⟨300, 0, 0, false⟩ ⟨0, 0, 0, false⟩ 0) .zero 0x018 = true := rfl

/-- An invalid operand faults before the zero divisor is seen (60_exceptions.md R320). -/
theorem test_invalid_before_zero_divisor :
    gives (ready 0x04 ⟨1, 10, 1, false⟩ ⟨0, 0, 0, false⟩ 0) .zero 0x028 = true := rfl

/-- The decoder and `step` on a row's word, as the host asks for them. -/
theorem test_table_word : decodeTableWord 32 0x81 = some (.add .standard false) ∧ decodeTableWord 32 0x91 = none :=
  ⟨rfl, rfl⟩

/-! ### The window (20_memory.md R72, R73, R75) -/

theorem test_window_words :
    let s := { State.reset with opb := ⟨0, 0x00000004000000030000000200000001, 3, true⟩ }
    readWord s 0x090 = 1 ∧ readWord s 0x09C = 4 ∧ readWord s 0x0A0 = 0x103 ∧ readWord s 0x000 = 0x414E4344 := by
  decide +kernel

theorem test_window_write_word :
    (writeWord State.reset 0x104 0xDEADBEEF).ka = 0xDEADBEEF00000000 ∧
    (writeWord State.reset 0x060 0xFFFFFFFF).opa = ⟨0, 0, 0xFF, true⟩ ∧
    (writeWord State.reset 0x0C0 7).res = .zero := by decide +kernel

theorem test_status_word :
    Status.word ⟨false, false, false, true, .divByZero, .none, true⟩ = 0x448 ∧
    Status.word ⟨false, true, false, false, .none, .equal, false⟩ = 0x202 := by decide

/-- A dropped issue keeps CMD and the latch (70_reset_and_hazards.md R345). -/
theorem test_issue_dropped :
    let s := (busyAt (writeAt 0 0) 0x83 3).issue 0x81
    s.cmd = 0x83 ∧ s.latch.cmd = 0x83 ∧ s.status.dropped = true := by decide

/-- An accepted issue latches the operands (70_reset_and_hazards.md R345). -/
theorem test_issue_accepted :
    let s := State.issue { State.reset with opa := ⟨1, 5, 1, false⟩, arg := 9 } 0x81
    s.cmd = 0x81 ∧ s.latch.a = ⟨1, 5, 1, false⟩ ∧ s.latch.arg = 9 ∧ s.status.word = 1 ∧ s.pending = true :=
  ⟨rfl, rfl, rfl, by decide, rfl⟩

/-- The datapath units on the spec's examples (40_kernel.md R143, R147, R149). -/
theorem test_datapath_units :
    Datapath.mulW 64 (2 ^ 64 - 1) (2 ^ 64 - 1) = 0xFFFFFFFFFFFFFFFE0000000000000001 ∧
    Datapath.divW 8 0x1234 0x56 = (0x36, 0x10) ∧ Datapath.divQ (10 ^ 76) (10 ^ 38) = (10 ^ 38, 0) ∧
    Datapath.newtonSqrt (99 * 99 - 1) = 98 := by decide +kernel

/-! ### Witnesses: for every statement with hypotheses, a state and operands that meet them -/

/-! ### Witnesses: for every statement with hypotheses, a state and operands that meet them, a witness a clause -/

theorem hostAt_idle (op : HostOp) : (hostAt op).unitMoves = false ∧ (hostAt op).prog[(hostAt op).hostPc]? = some op :=
  ⟨rfl, rfl⟩

theorem busyAt_waits (op : HostOp) (w : Word) (n : Nat) :
    (busyAt op w (n + 1)).unitMoves = false ∧ (busyAt op w (n + 1)).prog[(busyAt op w (n + 1)).hostPc]? = some op :=
  ⟨rfl, rfl⟩

theorem busyAt_inv (op : HostOp) (w : Word) (n : Nat) : (busyAt op w n).Inv := by
  constructor <;> simp [busyAt, Status.zero, State.reset, DecReg.valid, Dec.valid, DecReg.toDec, DecReg.zero]

theorem faultedAt_inv (op : HostOp) : (faultedAt op).Inv := by
  constructor <;> simp [faultedAt, Status.zero, State.reset, Latch.zero, DecReg.valid, Dec.valid, DecReg.toDec,
    DecReg.zero]

theorem witness_reset_inv : State.reset.Inv := by
  constructor <;> simp [Status.zero, State.reset, Latch.zero, DecReg.valid, Dec.valid, DecReg.toDec, DecReg.zero]

/-- ControlWriteResetsAtOnce: both clauses, idle and busy; 2 sets only a reserved bit. -/
theorem witness_control_write :
    let r := hostAt (writeAt 0x004 1)
    let b := busyAt (writeAt 0x004 2) 0x81 2
    (r.unitMoves = false ∧ r.prog[r.hostPc]? = some (.wr (Config.windowBase + 0x004) 4 (.imm 1)) ∧
      (r.sourceValue (.imm 1)).getLsbD 0 = true) ∧
    (b.unitMoves = false ∧ b.prog[b.hostPc]? = some (.wr (Config.windowBase + 0x004) 4 (.imm 2)) ∧
      (b.sourceValue (.imm 2)).getLsbD 0 = false) := ⟨⟨rfl, rfl, rfl⟩, ⟨rfl, rfl, rfl⟩⟩

/-- IgnoredWritesChangeNothing: the ends of every range. -/
theorem witness_ignored_writes :
    ([0x000, 0x008, 0x0C0, 0x0E0, 0x180, 0x1DC].all fun o => windowOffsetOk o && readOnlyOffset o) = true ∧
    ([0x014, 0x03C, 0x064, 0x07C, 0x0A4, 0x0BC, 0x0E4, 0x0FC, 0x160, 0x17C, 0x1E0, 0x1FC].all fun o =>
      windowOffsetOk o && unmappedOffset o) = true := by decide

/-- No offset is in two of the classes the statements name. -/
theorem witness_classes_apart :
    ((List.range 128).all fun k =>
      !(operandOffset (4 * k) && readOnlyOffset (4 * k)) && !(operandOffset (4 * k) && unmappedOffset (4 * k)) &&
        !(readOnlyOffset (4 * k) && unmappedOffset (4 * k))) = true := by decide +kernel

/-- OperandWordReadsBack: the ends of every range, and a second offset. -/
theorem witness_operand_word :
    ([0x010, 0x040, 0x060, 0x080, 0x0A0, 0x100, 0x15C].all fun o =>
      windowOffsetOk o && operandOffset o && windowOffsetOk 0x1FC && o != 0x1FC) = true := by decide

/-- OnlyIssueAndResetHaveSideEffects: a write to ARG, a write to CTRL that does not reset, and a read. -/
theorem witness_side_effects :
    (windowOffsetOk 0x010 = true ∧ 0x010 ≠ 0x00C ∧ ¬(0x010 = 0x004 ∧ (0 : Word).getLsbD 0 = true)) ∧
    (windowOffsetOk 0x004 = true ∧ 0x004 ≠ 0x00C ∧ ¬(0x004 = 0x004 ∧ (0xFFFFFFFE : Word).getLsbD 0 = true)) ∧
    (let s := hostAt (.rd 0 (Config.windowBase + 0x1FC) 4)
     windowOffsetOk 0x1FC = true ∧ s.unitMoves = false ∧
      s.prog[s.hostPc]? = some (.rd 0 (Config.windowBase + 0x1FC) 4)) :=
  ⟨by decide, by decide, rfl, rfl, rfl⟩

/-- OnlyAlignedWordAccessesAreAdmitted: the first and the last admitted word, and one access of each refused kind. -/
theorem witness_admitted :
    (∀ off ∈ [0x000, 0x1FC], Config.windowBase + off ≥ Config.windowBase ∧ (Config.windowBase + off) % 4 = 0 ∧
      Config.windowBase + off < Config.windowBase + 0x200) ∧
    (let s := hostAt (.rd 0 (Config.windowBase + 0x200) 4)
     s.unitMoves = false ∧ s.prog[s.hostPc]? = some (.rd 0 (Config.windowBase + 0x200) 4) ∧
      ¬ Config.windowBase + 0x200 < Config.windowBase + 0x200) ∧
    (let s := hostAt (.wr (Config.windowBase + 2) 4 (.imm 0))
     s.unitMoves = false ∧ s.prog[s.hostPc]? = some (.wr (Config.windowBase + 2) 4 (.imm 0)) ∧
      (Config.windowBase + 2) % 4 ≠ 0) ∧
    (let s := hostAt (.wr Config.windowBase 2 (.imm 0))
     s.unitMoves = false ∧ s.prog[s.hostPc]? = some (.wr Config.windowBase 2 (.imm 0)) ∧ 2 ≠ 4) := by
  refine ⟨?_, ⟨rfl, rfl, by omega⟩, ⟨rfl, rfl, by unfold Config.windowBase; omega⟩, ⟨rfl, rfl, by decide⟩⟩
  intro off h
  fin_cases h <;> refine ⟨by omega, by unfold Config.windowBase; omega, by omega⟩

/-- WrvalWritesTheValue: a reset unit whose whole program is the nine writes. -/
theorem witness_wrval :
    let v : Dec := ⟨12, 345, 3, true⟩
    let s := HostProgram.load State.reset (HostProgram.wrval HostProgram.opaOff v)
    let s' := HostProgram.load State.reset (HostProgram.wrval HostProgram.opbOff v)
    v.valid .tiny = false ∧ v.valid .small = true ∧ s.pending = false ∧ s.hostPc = ([] : List HostOp).length ∧
      s.prog = [] ++ HostProgram.wrval HostProgram.opaOff v ++ [] ∧
      s'.prog = [] ++ HostProgram.wrval HostProgram.opbOff v ++ [] := ⟨rfl, rfl, rfl, rfl, rfl, rfl⟩

/-- IssueIsAcceptedOrDropped: idle, busy and faulted. -/
theorem witness_issue :
    (let s := hostAt (writeAt 0x00C 0x81)
     s.unitMoves = false ∧ s.prog[s.hostPc]? = some (.wr (Config.windowBase + 0x00C) 4 (.imm 0x81)) ∧
      s.status.busy = false ∧ s.status.fault = false) ∧
    (let s := busyAt (writeAt 0x00C 0x81) 0x83 1
     s.unitMoves = false ∧ s.prog[s.hostPc]? = some (.wr (Config.windowBase + 0x00C) 4 (.imm 0x81)) ∧
      s.status.busy = true) ∧
    (let s := faultedAt (writeAt 0x00C 0x81)
     s.unitMoves = false ∧ s.prog[s.hostPc]? = some (.wr (Config.windowBase + 0x00C) 4 (.imm 0x81)) ∧
      s.status.fault = true) := ⟨⟨rfl, rfl, rfl, rfl⟩, ⟨rfl, rfl, rfl⟩, ⟨rfl, rfl, rfl⟩⟩

/-- StepRunsTheDecodedCommand: no host step left to wait for; the host's program at its end; the host's move. -/
theorem witness_step :
    (let s := busyAt (writeAt 0x010 1) 0x81 0
     s.pending = true ∧ s.latency = 0 ∧ decode s.latch.cmd = .ok (.add .standard false)) ∧
    (let s := { busyAt (writeAt 0x010 1) 0x81 5 with prog := [] }
     s.pending = true ∧ s.prog.length ≤ s.hostPc ∧ decode s.latch.cmd = .ok (.add .standard false)) ∧
    (let s := busyAt (writeAt 0x010 1) 0x81 1
     0 < s.latency ∧ s.prog[s.hostPc]? = some (writeAt 0x010 1)) := ⟨⟨rfl, rfl, rfl⟩, ⟨rfl, by decide, rfl⟩, ⟨by decide, rfl⟩⟩

/-- IllegalWordsFaultAtCompletion and EveryCommandEndsOneOfThreeWays: completion steps of a legal word and of one
illegal word for each case of 60_exceptions.md R302. -/
theorem witness_completion :
    ([0x81, 0x00, 0x0B, 0x15, 0x3F, 0x1081, 0x788, 0x181, 0x884, 0x91, 0x93].all fun w =>
      (busyAt (writeAt 0x010 1) w 0).unitMoves) = true := by decide

/-- CommandsWriteOnlyTheirResults: a value command, CMP, a kernel command and a division each take a next state. -/
theorem witness_frame (s : State) : (∃ u, exec (.add .tiny false) s = .next u) ∧ (∃ u, exec (.cmp .wide) s = .next u) ∧
    (∃ u, exec (.isqrt .tiny) s = .next u) ∧ ∃ u, exec (.divw .small) s = .next u :=
  ⟨(exec_ends _ s).imp fun _ h => h.1, (exec_ends _ s).imp fun _ h => h.1, (exec_ends _ s).imp fun _ h => h.1,
    (exec_ends _ s).imp fun _ h => h.1⟩

/-- CompletionReadsOnlyTheLatch: two states with one latch that differ in every register, the results and STATUS
included. -/
theorem witness_latch :
    let s := busyAt (writeAt 0x010 1) 0x81 0
    let s' := { s with opa := ⟨7, 0, 0, false⟩, opb := ⟨8, 0, 0, true⟩, arg := 9, ka := 10, kb := 11, cmd := 12,
                       res := ⟨13, 0, 0, true⟩, kq := 14, kr := 15,
                       status := ⟨true, true, true, true, .overflow, .less, true⟩ }
    s.latch = s'.latch ∧ s.draws = s'.draws ∧ s.target = s'.target ∧ s.res ≠ s'.res ∧
      s.status ≠ s'.status := ⟨rfl, rfl, rfl, by decide, by decide⟩

/-- An admitted write is the window's write. -/
theorem writeAt_moves (s : State) {off : Nat} (h : off < Config.windowSize) (h4 : off % 4 = 0) (v : Word) :
    hostMove (writeAt off v) s = .next (writeWord s.advanceHost off v) := by
  simp only [hostMove, writeAt, windowOffset_base h h4]; rfl

/-- PendingCommandCompletes and HostMovesWhileBusyKeepTheResult: a host that writes ARG while its command runs. -/
theorem witness_pending :
    let s := busyAt (writeAt 0x010 1) 0x81 2
    s.Inv ∧ s.pending = true ∧ s.latency = 2 ∧ QuietFor 2 s := by
  refine ⟨busyAt_inv _ _ _, rfl, rfl, .inr ⟨writeAt 0x010 1, _, rfl, ?_, writeAt_moves _ (by decide) (by decide) _, ?_⟩⟩
  · simp only [HostOp.resets, writeAt, windowOffset_base (off := 0x010) (by decide) (by decide)]; rfl
  · exact .inl rfl

/-- FaultStateIsLeftOnlyByReset: a faulted unit whose host writes ARG, and one whose host resets it. -/
theorem witness_faulted :
    (let s := faultedAt (writeAt 0x010 1)
     s.Inv ∧ s.status.fault = true ∧ ∃ u, step s = .next u) ∧
    (let s := faultedAt (writeAt 0x004 1)
     s.Inv ∧ s.status.fault = true ∧ ∃ u, step s = .next u) :=
  ⟨⟨faultedAt_inv _, rfl, _, writeAt_moves _ (off := 0x010) (by decide) (by decide) _⟩,
    ⟨faultedAt_inv _, rfl, _, writeAt_moves _ (off := 0x004) (by decide) (by decide) _⟩⟩

/-- StepKeepsTheInvariant: a completion step from a state that meets the invariant. -/
theorem witness_step_inv : (busyAt (writeAt 0x010 1) 0x81 0).Inv ∧
    ∃ u, step (busyAt (writeAt 0x010 1) 0x81 0) = .next u := ⟨busyAt_inv _ _ _, _, rfl⟩

/-- OpcodeTableIsUnambiguous: a word that decodes and one that does not. -/
theorem witness_table : decode 0x81 = .ok (.add .standard false) ∧ decode 0x91 = .error .tierNotWide := ⟨rfl, rfl⟩

/-- The table has 21 rows, and the row of the word that decodes is among them. -/
theorem witness_table_rows :
    opcodeTable.length = 21 ∧ (opcodeTable.filter (·.matchesWord 0x81)).map (·.mnemonic) = ["ADD"] := ⟨rfl, by decide⟩

/-- InvalidOperandsFault: an operand past each of the four bounds of 10_state.md R32, at its first bad value, in `a` and
in `b`; and a kernel command. -/
theorem witness_invalid :
    (2 ^ Config.width .tiny ≤ (⟨256, 0, 0, false⟩ : DecReg).int.toNat ∧
      2 ^ Config.width .tiny ≤ (⟨0, 256, 0, false⟩ : DecReg).frac.toNat ∧
      Config.maxScale .tiny < (⟨0, 0, 3, false⟩ : DecReg).scale.toNat ∧
      10 ^ (⟨0, 10, 1, false⟩ : DecReg).scale.toNat ≤ (⟨0, 10, 1, false⟩ : DecReg).frac.toNat) ∧
    ((Instr.add .tiny true).isKernel = false ∧ (Instr.add .tiny true).readsB = true) ∧
    (Instr.mulq.isKernel = true ∧ ∃ u, exec .mulq State.reset = .next u ∧ State.reset.status.cause ≠ .invalidOperand) := by
  refine ⟨by decide, by decide, rfl, _, rfl, by decide⟩

/-- The number of a register's value, for the witnesses below. -/
theorem val_eq (i f : Word128) (s : BitVec 8) (n : Bool) : (DecReg.mk i f s n).toDec.val =
    (if n then -1 else 1) * (((i.toNat * 10 ^ s.toNat + f.toNat : Nat) : ℚ) / 10 ^ s.toNat) := by
  cases n <;> simp [Dec.val, Dec.mag, Dec.comb, DecReg.toDec]

/-- AddIsExact, SubIsExact, AddDatapathAgrees: the largest sum that fits and the least that does not; 255 and 0.99, and
200.5 and 55.5, at the tiny tier; both signs. -/
theorem witness_add :
    (let s := latched ⟨255, 0, 0, false⟩ ⟨0, 99, 2, false⟩ 0
     s.latch.a.valid .tiny = true ∧ s.latch.b.valid .tiny = true ∧
      |s.latch.a.toDec.val + s.latch.b.toDec.val| < 2 ^ Config.width .tiny ∧
      |s.latch.a.toDec.val - s.latch.b.toDec.val| < 2 ^ Config.width .tiny ∧
      s.latch.a.toDec.neg = s.latch.b.toDec.neg ∧
      Datapath.addParts .tiny s.latch.a.toDec s.latch.b.toDec = some (255, 99)) ∧
    (let s := latched ⟨200, 5, 1, false⟩ ⟨55, 5, 1, false⟩ 0
     s.latch.a.valid .tiny = true ∧ s.latch.b.valid .tiny = true ∧
      2 ^ Config.width .tiny ≤ |s.latch.a.toDec.val + s.latch.b.toDec.val| ∧
      s.latch.a.toDec.neg = s.latch.b.toDec.neg ∧
      Datapath.addParts .tiny s.latch.a.toDec s.latch.b.toDec = none) ∧
    (let s := latched ⟨200, 5, 1, false⟩ ⟨55, 5, 1, true⟩ 0
     s.latch.a.valid .tiny = true ∧ s.latch.b.valid .tiny = true ∧
      2 ^ Config.width .tiny ≤ |s.latch.a.toDec.val - s.latch.b.toDec.val| ∧
      s.latch.a.toDec.neg ≠ s.latch.b.toDec.neg ∧ |s.latch.b.toDec.val| ≤ |s.latch.a.toDec.val|) := by
  simp only [latched, val_eq, BitVec.reduceToNat]
  refine ⟨⟨by decide, by decide, ?_, ?_, rfl, by decide⟩, ⟨by decide, by decide, ?_, rfl, by decide⟩,
    by decide, by decide, ?_, by decide, ?_⟩ <;> norm_num [Config.width, abs_lt, abs_div]

/-- MulTruncatesTheProduct: 15.9 × 16 fits the tiny tier, 16 × 16 does not. -/
theorem witness_mul :
    (let s := latched ⟨15, 9, 1, false⟩ ⟨16, 0, 0, true⟩ 0
     s.latch.a.valid .tiny = true ∧ s.latch.b.valid .tiny = true ∧
      |s.latch.a.toDec.val * s.latch.b.toDec.val| < 2 ^ Config.width .tiny) ∧
    (let s := latched ⟨16, 0, 0, false⟩ ⟨16, 0, 0, false⟩ 0
     s.latch.a.valid .tiny = true ∧ s.latch.b.valid .tiny = true ∧
      2 ^ Config.width .tiny ≤ |s.latch.a.toDec.val * s.latch.b.toDec.val|) := by
  simp only [latched, val_eq, BitVec.reduceToNat]
  refine ⟨⟨by decide, by decide, ?_⟩, by decide, by decide, ?_⟩ <;> norm_num [Config.width]

/-- AddAndMulCommute: each of its two commands. -/
theorem witness_commute : (Instr.add .tiny true = .add .tiny true ∨ Instr.add .tiny true = .mul .tiny true) ∧
    (Instr.mul .tiny true = .add .tiny true ∨ Instr.mul .tiny true = .mul .tiny true) := ⟨.inl rfl, .inr rfl⟩

/-- DivTruncatesTheQuotient, RemSubtractsTheWholeMultiple, RemIsExactUpToTheTargetScale, ZeroDivisorsAlwaysFault: 127 by
0.5 fits the tiny tier, 128 by 0.5 does not, and a negative zero divides nothing. -/
theorem witness_div :
    (let s := latched ⟨127, 0, 0, false⟩ ⟨0, 5, 1, true⟩ 0
     s.latch.a.valid .tiny = true ∧ s.latch.b.valid .tiny = true ∧ s.latch.b.toDec.val ≠ 0 ∧
      |s.latch.a.toDec.val / s.latch.b.toDec.val| < 2 ^ Config.width .tiny ∧
      s.latch.b.toDec.scale ≤ s.target.of .tiny) ∧
    (let s := latched ⟨128, 0, 0, false⟩ ⟨0, 5, 1, false⟩ 0
     s.latch.a.valid .tiny = true ∧ s.latch.b.valid .tiny = true ∧ s.latch.b.toDec.val ≠ 0 ∧
      2 ^ Config.width .tiny ≤ |s.latch.a.toDec.val / s.latch.b.toDec.val|) ∧
    (let s := latched ⟨1, 0, 0, false⟩ ⟨0, 0, 2, true⟩ 0
     s.latch.a.valid .tiny = true ∧ s.latch.b.valid .tiny = true ∧ s.latch.b.toDec.val = 0 ∧
      s.latch.b.toDec.comb = 0) := by
  simp only [latched, val_eq, BitVec.reduceToNat]
  refine ⟨⟨by decide, by decide, ?_, ?_, by decide⟩, ⟨by decide, by decide, ?_, ?_⟩, by decide, by decide, ?_, by decide⟩
    <;> norm_num [Config.width]

/-- ZeroDivisorsAlwaysFault, its other cases: a zero base to the power −1, and zero kernel divisors under non-zero upper
bits; and a DIV that takes the fault. -/
theorem witness_zero_divisors :
    (let s := latched ⟨0, 0, 1, true⟩ .zero 0xFFFFFFFF
     s.latch.a.valid .tiny = true ∧ s.latch.arg.toInt < 0 ∧ s.latch.a.toDec.comb = 0) ∧
    ((latchedK 5 0x100).latch.kb.toNat % 2 ^ Config.width .tiny = 0) ∧ (latchedK 5 0).latch.kb = 0 ∧
    (let s := latched ⟨1, 0, 0, false⟩ .zero 0
     ∃ u, exec (.div .tiny) s = .next u ∧ s.status.cause ≠ .divByZero ∧ u.status.cause = .divByZero) :=
  ⟨by decide, by decide, rfl, _, rfl, by decide, rfl⟩

/-- PowOfZeroAndMinusOne, PowIsExactWhenItsScaleFits, PowRunsTheLoop: exponents 0, −1, 1 and 8 of 2, and −2^31; 2^7 fits
the tiny tier and 2^8 does not; 1.5 to the power 1 keeps its one place. -/
theorem witness_pow :
    (let s := latched ⟨2, 0, 0, false⟩ .zero 0
     s.latch.a.valid .tiny = true ∧ s.latch.arg.toInt = 0) ∧
    (let s := latched ⟨2, 0, 0, false⟩ .zero 0xFFFFFFFF
     s.latch.a.valid .tiny = true ∧ s.latch.arg.toInt = -1 ∧ s.latch.a.toDec.val ≠ 0 ∧ s.latch.a.toDec.comb ≠ 0) ∧
    (let s := latched ⟨1, 5, 1, false⟩ .zero 1
     s.latch.a.valid .tiny = true ∧ s.latch.arg.toInt = (1 : Nat) ∧
      s.latch.a.toDec.scale * 1 ≤ s.target.of .tiny ∧ |s.latch.a.toDec.val ^ 1| < 2 ^ Config.width .tiny) ∧
    (let s := latched ⟨2, 0, 0, true⟩ .zero 7
     s.latch.a.valid .tiny = true ∧ s.latch.arg.toInt = (7 : Nat) ∧
      s.latch.a.toDec.scale * 7 ≤ s.target.of .tiny ∧ |s.latch.a.toDec.val ^ 7| < 2 ^ Config.width .tiny) ∧
    (let s := latched ⟨2, 0, 0, false⟩ .zero 8
     s.latch.a.valid .tiny = true ∧ s.latch.arg.toInt = (8 : Nat) ∧
      s.latch.a.toDec.scale * 8 ≤ s.target.of .tiny ∧ 2 ^ Config.width .tiny ≤ |s.latch.a.toDec.val ^ 8|) ∧
    (let s := latched ⟨2, 0, 0, false⟩ .zero 0x80000000
     s.latch.a.valid .tiny = true ∧ s.latch.arg.toInt ≠ 0 ∧ s.latch.arg.toInt < 0 ∧ s.latch.a.toDec.comb ≠ 0) := by
  simp only [latched, val_eq, BitVec.reduceToNat]
  refine ⟨by decide, ⟨by decide, by decide, ?_, by decide⟩, ⟨by decide, by decide, by decide, ?_⟩,
    ⟨by decide, by decide, by decide, ?_⟩, ⟨by decide, by decide, by decide, ?_⟩, by decide⟩ <;>
    norm_num [Config.width, abs_div]

/-- PowRunsTheLoop: the loop runs, here on one bit. -/
theorem witness_pow_loop : PowRuns targetScales .tiny 1 .one ⟨3, 0, 0, false⟩ 0 (.value ⟨3, 0, 0, false⟩ 0) :=
  .oddLast rfl rfl rfl

/-- SqrtIsTheTruncatedRoot: the least positive tiny value, zero with a sign, and a negative value. -/
theorem witness_sqrt :
    (let s := latched ⟨0, 1, 2, false⟩ .zero 0
     s.latch.a.valid .tiny = true ∧ 0 < s.latch.a.toDec.val) ∧
    (let s := latched ⟨0, 0, 2, true⟩ .zero 0
     s.latch.a.valid .tiny = true ∧ s.latch.a.toDec.val = 0) ∧
    (let s := latched ⟨0, 1, 2, true⟩ .zero 0
     s.latch.a.valid .tiny = true ∧ s.latch.a.toDec.val < 0) := by
  simp only [latched, val_eq, BitVec.reduceToNat]
  refine ⟨⟨by decide, ?_⟩, ⟨by decide, ?_⟩, by decide, ?_⟩ <;> norm_num

/-- CmpIsTheOrderOfTheNumbers, CanonIsTheShortestForm, EqualValuesHaveOneCanonicalForm: the three orders, equality across
scales. -/
theorem witness_cmp :
    (let s := latched ⟨1, 5, 1, true⟩ ⟨1, 25, 2, true⟩ 0
     s.latch.a.valid .tiny = true ∧ s.latch.b.valid .tiny = true ∧ s.latch.a.toDec.val < s.latch.b.toDec.val) ∧
    (let s := latched ⟨1, 2, 1, false⟩ ⟨1, 20, 2, false⟩ 0
     s.latch.a.valid .tiny = true ∧ s.latch.b.valid .tiny = true ∧ s.latch.a.toDec.val = s.latch.b.toDec.val) ∧
    (let s := latched ⟨0, 0, 0, true⟩ ⟨0, 1, 2, true⟩ 0
     s.latch.a.valid .tiny = true ∧ s.latch.b.valid .tiny = true ∧ s.latch.b.toDec.val < s.latch.a.toDec.val) := by
  simp only [latched, val_eq, BitVec.reduceToNat]
  refine ⟨⟨by decide, by decide, ?_⟩, ⟨by decide, by decide, ?_⟩, by decide, by decide, ?_⟩ <;> norm_num

/-- RoundingFollowsItsMode, RoundTruncNeverOverflows, RoundFractIsTheFractionalPart: as many places as the scale, fewer
with a result that fits, and fewer with a carry to 2^8. -/
theorem witness_round :
    (let s := latched ⟨255, 5, 1, false⟩ .zero 1
     s.latch.a.valid .tiny = true ∧ s.latch.a.toDec.scale ≤ s.latch.arg.toNat) ∧
    (let s := latched ⟨255, 5, 1, false⟩ .zero 0
     s.latch.a.valid .tiny = true ∧ s.latch.arg.toNat < s.latch.a.toDec.scale ∧
      |(roundQ .truncate (s.latch.a.toDec.val * 10 ^ 0) : ℚ) / 10 ^ 0| < 2 ^ Config.width .tiny ∧
      2 ^ Config.width .tiny ≤ |(roundQ .halfUp (s.latch.a.toDec.val * 10 ^ 0) : ℚ) / 10 ^ 0|) ∧
    RoundMode.truncate ≠ .fract ∧ RoundMode.halfUp ≠ .fract := by
  simp only [latched, val_eq, BitVec.reduceToNat]
  refine ⟨by decide, ⟨by decide, by decide, ?_, ?_⟩, by decide, by decide⟩
  · have : ⌊(511 : ℚ) / 2⌋ = 255 := by norm_num [Int.floor_eq_iff]
    norm_num [roundQ, truncQ, Config.width, this]
  · norm_num [roundQ, Config.width]

/-- DivwWritesQuotientAndRemainder, DivqWritesQuotientAndRemainder: the largest dividend that fits, the least that does
not, and a zero divisor. -/
theorem witness_divide :
    (let s := latchedK 0x55FF 0x56
     s.latch.kb.toNat % 2 ^ Config.width .tiny ≠ 0 ∧ s.latch.ka.toNat % 2 ^ (2 * Config.width .tiny) <
      s.latch.kb.toNat % 2 ^ Config.width .tiny * 2 ^ Config.width .tiny) ∧
    (let s := latchedK 0x5600 0x56
     s.latch.kb.toNat % 2 ^ Config.width .tiny ≠ 0 ∧
      s.latch.kb.toNat % 2 ^ Config.width .tiny * 2 ^ Config.width .tiny ≤
        s.latch.ka.toNat % 2 ^ (2 * Config.width .tiny)) ∧
    (latchedK 5 0x100).latch.kb.toNat % 2 ^ Config.width .tiny = 0 ∧
    (let s := latchedK (BitVec.ofNat 512 (3 * 2 ^ 256 - 1)) 3
     s.latch.kb.toNat ≠ 0 ∧ s.latch.ka.toNat < s.latch.kb.toNat * 2 ^ 256) ∧
    (let s := latchedK (BitVec.ofNat 512 (3 * 2 ^ 256)) 3
     s.latch.kb.toNat ≠ 0 ∧ s.latch.kb.toNat * 2 ^ 256 ≤ s.latch.ka.toNat) ∧
    (latchedK 5 0).latch.kb.toNat = 0 := by decide +kernel

/-- LimbAdderIsExact, LimbSubtractorAndComparisonAreExact, MultiplierDatapathsAreExact, LongDivisionDatapathIsExact: the
largest operands, and the largest dividend of the least normalised divisor. -/
theorem witness_datapath :
    (255 < 2 ^ (4 * 2) ∧ 1 ≤ 1 ∧ 0 < 4) ∧ (2 ^ 256 - 1 < 2 ^ 256) ∧
    (8 < 2 ^ (2 * 2) ∧ 8 ≠ 0 ∧ (8 * 16 - 1) / 2 ^ (2 * 2) < 8) ∧
    (1 < 2 ^ 256 ∧ 1 ≠ 0 ∧ (2 ^ 256 - 1) / 2 ^ 256 < 1) := by norm_num

/-! ### TARGET_SCALE as an argument (00_scope.md R10) -/

/-- The spec's T gives 10 / 4 eighteen digits; a machine with T = M gives it nineteen (90_conflicts.md C1). -/
theorem test_target_scale :
    gives (ready 0x84 ⟨10, 0, 0, false⟩ ⟨4, 0, 0, false⟩ 0) ⟨2, 500000000000000000, 18, false⟩ 0x002 = true ∧
    gives { ready 0x84 ⟨10, 0, 0, false⟩ ⟨4, 0, 0, false⟩ 0 with target := Config.maxTargetScales }
      ⟨2, 5000000000000000000, 19, false⟩ 0x002 = true :=
  ⟨rfl, rfl⟩

/-- TargetScaleIsFixedForTheMachine: a step of a machine with T = M. -/
theorem witness_target :
    ∃ u, step { busyAt (writeAt 0x010 1) 0x81 0 with target := Config.maxTargetScales } = .next u := ⟨_, rfl⟩

/-- OnlyFourCommandsUseTheTargetScale: a command of each kind that does not use T. -/
theorem witness_no_target (i : Instr) (h : i ∈ [.add .tiny true, .sqrt .wide, .cmp .small, .divq]) :
    (∀ t c, i ≠ .mul t c) ∧ (∀ t, i ≠ .div t) ∧ (∀ t, i ≠ .rem t) ∧ ∀ t c, i ≠ .pow t c := by
  fin_cases h <;> simp

/-- NegativeExponentNeedsTBelowM: a dividend at scale M by a divisor at scale 0, and the same divisor at scale 1. -/
theorem witness_exponent :
    Dec.valid .tiny ⟨0, 25, 2, false⟩ = true ∧ Dec.valid .tiny ⟨1, 0, 0, false⟩ = true ∧
      Dec.valid .tiny ⟨1, 0, 1, false⟩ = true ∧ targetScales.of .tiny + 0 < 2 ∧ ¬targetScales.of .tiny + 1 < 2 := by
  decide

end Sys2Proof.Machine.Tests
end

/-! TARGET_SCALE (00_scope.md R8, R10): the machine's parameter is fixed, which commands look at it, and the scaling
exponent of DIV. -/

namespace Sys2Proof.Machine

/-! ### No step changes the parameter -/

theorem Ending.target_eq {i : Instr} {s u : State} (h : Ending i s u) : u.target = s.target := by
  cases h <;> rfl

@[simp] theorem State.issue_target (s : State) (w : Word) : (s.issue w).target = s.target := by
  rcases s.issue_cases w with ⟨-, -, h⟩ | ⟨-, h⟩ <;> simp [h]

@[simp] theorem writeWord_target (s : State) (off : Nat) (v : Word) : (writeWord s off v).target = s.target := by
  rcases writeWord_cases s off v with ⟨-, -, h⟩ | ⟨-, h⟩ | ⟨_, _, _, _, _, h⟩ <;> simp [h]

theorem hostMove_target {op : HostOp} {s u : State} (h : hostMove op s = .next u) : u.target = s.target := by
  rcases hostMove_next h with ⟨t, w, rfl⟩ | ⟨pc, rfl⟩ | ⟨addr, size, v, off, -, -, rfl⟩ <;> simp

theorem step_target {s u : State} (h : step s = .next u) : u.target = s.target := by
  rcases step_next h with ⟨-, i, -, he⟩ | ⟨-, rfl⟩ | ⟨-, op, -, hm⟩
  · exact he.target_eq
  · exact State.raiseFault_target s _
  · exact hostMove_target hm

/-- Settles O57: T at reset by its four tiers, and no ending of a command and no move of the host touches the field. -/
theorem targetScaleIsFixedForTheMachine : Obligations.TargetScaleIsFixedForTheMachine := by
  unfold Obligations.TargetScaleIsFixedForTheMachine
  refine ⟨fun t => ?_, fun s u h => step_target h, fun s t => s.target.of_le t⟩
  cases t <;> rfl

/-! ### Which commands look at the parameter (00_scope.md R10) -/

/-- Both results are next states, and the second is the first with `T` in place of its parameter. -/
def SameButTarget (T : Config.TargetScales) (r r' : Result) : Prop :=
  ∃ u : State, r = .next u ∧ r' = .next { u with target := T }

section
variable {T : Config.TargetScales} {s : State}

theorem deliver_sameButTarget (r : Computed) (c : Bool) (cause : Cause) :
    SameButTarget T (deliver r c cause s) (deliver r c cause { s with target := T }) := by
  cases r with
  | value v k => exact ⟨_, rfl, rfl⟩
  | ovf => cases c <;> exact ⟨_, rfl, rfl⟩
  | raise e => exact ⟨_, rfl, rfl⟩

theorem withOperandA_sameButTarget (t : Tier) {f f' : Dec → Result} (h : ∀ a, SameButTarget T (f a) (f' a)) :
    SameButTarget T (withOperandA t s f) (withOperandA t { s with target := T } f') := by
  unfold withOperandA
  by_cases ha : s.latch.a.valid t = true
  · simpa only [ha, if_true] using h _
  · simp only [ha]
    exact ⟨_, rfl, rfl⟩

theorem withOperands_sameButTarget (t : Tier) {f f' : Dec → Dec → Result}
    (h : ∀ a b, SameButTarget T (f a b) (f' a b)) :
    SameButTarget T (withOperands t s f) (withOperands t { s with target := T } f') := by
  refine withOperandA_sameButTarget t fun a => ?_
  by_cases hb : s.latch.b.valid t = true
  · simpa only [hb, if_true] using h a _
  · simp only [hb]
    exact ⟨_, rfl, rfl⟩

theorem roundCommand_sameButTarget (mode : RoundMode) (t : Tier) (c : Bool) :
    SameButTarget T (roundCommand mode t c s) (roundCommand mode t c { s with target := T }) :=
  withOperandA_sameButTarget t fun _ => deliver_sameButTarget _ c .overflow

theorem divideKernel_sameButTarget (W n d : Nat) :
    SameButTarget T (divideKernel W n d s) (divideKernel W n d { s with target := T }) := by
  unfold divideKernel
  split
  · exact ⟨_, rfl, rfl⟩
  · split <;> exact ⟨_, rfl, rfl⟩

/-- MUL, POW, DIV and REM are the only commands whose core takes `T` as an argument. -/
theorem exec_sameButTarget (i : Instr) (hmul : ∀ t c, i ≠ .mul t c) (hdiv : ∀ t, i ≠ .div t) (hrem : ∀ t, i ≠ .rem t)
    (hpow : ∀ t c, i ≠ .pow t c) : SameButTarget T (exec i s) (exec i { s with target := T }) := by
  cases i with
  | mul t c => exact absurd rfl (hmul t c)
  | pow t c => exact absurd rfl (hpow t c)
  | div t => exact absurd rfl (hdiv t)
  | rem t => exact absurd rfl (hrem t)
  | add t c => exact withOperands_sameButTarget t fun _ _ => deliver_sameButTarget _ c .overflow
  | sub t c => exact withOperands_sameButTarget t fun _ _ => deliver_sameButTarget _ c .overflow
  | sqrt t => exact withOperandA_sameButTarget t fun _ => deliver_sameButTarget _ false .overflow
  | roundFloor t c => exact roundCommand_sameButTarget .floor t c
  | roundCeil t c => exact roundCommand_sameButTarget .ceiling t c
  | roundTrunc t c => exact roundCommand_sameButTarget .truncate t c
  | roundHalfUp t c => exact roundCommand_sameButTarget .halfUp t c
  | roundHalfDown t c => exact roundCommand_sameButTarget .halfDown t c
  | roundHalfEven t c => exact roundCommand_sameButTarget .halfEven t c
  | roundFract t c => exact roundCommand_sameButTarget .fract t c
  | cmp t => exact withOperands_sameButTarget t fun _ _ => ⟨_, rfl, rfl⟩
  | canon t => exact withOperandA_sameButTarget t fun _ => ⟨_, rfl, rfl⟩
  | mulw t => exact ⟨_, rfl, rfl⟩
  | mulq => exact ⟨_, rfl, rfl⟩
  | divw t => exact divideKernel_sameButTarget _ _ _
  | divq => exact divideKernel_sameButTarget _ _ _
  | isqrt t => exact ⟨_, rfl, rfl⟩

end

/-- Settles O58: operand checks, delivery and the kernel divisions do the same whatever T is, and so does every command
made of them. -/
theorem onlyFourCommandsUseTheTargetScale : Obligations.OnlyFourCommandsUseTheTargetScale := by
  unfold Obligations.OnlyFourCommandsUseTheTargetScale
  exact fun i s T hmul hdiv hrem hpow => exec_sameButTarget i hmul hdiv hrem hpow

/-! ### The scaling exponent of DIV (90_conflicts.md C1, 41_arith.md R191) -/

theorem maxTargetScales_of (t : Tier) : Config.maxTargetScales.of t = Config.maxScale t := by cases t <;> rfl

/-- The spec's T is one below M at every tier (00_scope.md R8). -/
theorem targetScales_of_succ (t : Tier) : targetScales.of t + 1 = Config.maxScale t := by cases t <;> rfl

theorem divQuotient_of_le {T : Config.TargetScales} {t : Tier} {a b : Dec} (h : a.scale ≤ T.of t + b.scale) :
    divQuotient T t a b = a.comb * 10 ^ (T.of t + b.scale - a.scale) / b.comb := if_pos h

/-- Settles O59: a valid scale is at most M, which T = M reaches and the spec's T = M − 1 misses by one. -/
theorem negativeExponentNeedsTBelowM : Obligations.NegativeExponentNeedsTBelowM := by
  unfold Obligations.NegativeExponentNeedsTBelowM
  intro t a b ha _
  obtain ⟨-, hscale, -⟩ := Dec.valid_iff.1 ha
  constructor
  · rw [divQuotient_of_le (by rw [maxTargetScales_of]; omega), maxTargetScales_of]
  · have hT := targetScales_of_succ t
    omega

end Sys2Proof.Machine

/-! The state (10_state.md): the invariant at reset and under every step, what a command writes, what a completion
reads, and the words of reset and STATUS. -/

namespace Sys2Proof.Machine

/-! ### Reset (10_state.md R55) -/

/-- Settles O1: the registers are fields of the reset state, and STATUS, CTRL and ID are read at their offsets. -/
theorem resetClearsEveryRegister : Obligations.ResetClearsEveryRegister := by
  unfold Obligations.ResetClearsEveryRegister
  exact ⟨rfl, rfl, rfl, rfl, rfl, rfl, rfl, rfl, rfl, rfl, rfl, rfl, rfl, rfl, rfl⟩

theorem DecReg.zero_valid (t : Tier) : DecReg.zero.valid t = true :=
  Dec.valid_iff.2 ⟨Nat.two_pow_pos _, Nat.zero_le _, Nat.one_pos⟩

theorem State.reset_inv : State.reset.Inv where
  pending_busy := rfl
  latch_cmd := rfl
  absent_done := nofun
  fault_not_done := nofun
  cause_fault := ⟨nofun, fun h => absurd rfl h⟩
  busy_clear := nofun
  cmp_done h := absurd rfl h
  res_valid := DecReg.zero_valid .wide

/-- Settles O21: nothing is pending, no flag is set, and RES is a zero. -/
theorem resetMeetsTheInvariant : Obligations.ResetMeetsTheInvariant := State.reset_inv

/-! ### The word of STATUS (10_state.md R44) -/

/-- A field put above a word of `k` bits adds its number at bit `k`, and the word has as many bits more. -/
theorem toNat_or_field {x : Word} {k n m : Nat} (hx : x.toNat = m) (hm : m < 2 ^ k) (f : BitVec n)
    (h : k + n ≤ 32) :
    (x ||| f.setWidth 32 <<< k).toNat = m + 2 ^ k * f.toNat ∧ m + 2 ^ k * f.toNat < 2 ^ (k + n) := by
  have hf : f.toNat + 1 ≤ 2 ^ n := f.isLt
  have hbound : m + 2 ^ k * f.toNat < 2 ^ (k + n) := calc
    m + 2 ^ k * f.toNat < 2 ^ k + 2 ^ k * f.toNat := by omega
    _ = 2 ^ k * (f.toNat + 1) := by ring
    _ ≤ 2 ^ k * 2 ^ n := Nat.mul_le_mul_left _ hf
    _ = 2 ^ (k + n) := (Nat.pow_add ..).symm
  have h32 : 2 ^ (k + n) ≤ 2 ^ 32 := Nat.pow_le_pow_right (by norm_num) h
  refine ⟨?_, hbound⟩
  have hshift : (f.setWidth 32 <<< k).toNat = 2 ^ k * f.toNat := by
    rw [BitVec.toNat_shiftLeft, BitVec.toNat_setWidth_of_le (by omega), Nat.shiftLeft_eq, Nat.mul_comm,
      Nat.mod_eq_of_lt (by omega)]
  rw [BitVec.toNat_or, hx, hshift, Nat.or_comm, ← Nat.two_pow_add_eq_or_of_lt hm, Nat.add_comm]

theorem Status.word_toNat (s : Status) :
    s.word.toNat = s.busy.toNat + 2 * s.done.toNat + 4 * s.absent.toNat + 8 * s.fault.toNat + 16 * s.cause.code.toNat +
      256 * s.cmp.code.toNat + 1024 * s.dropped.toNat := by
  obtain ⟨hbusy, hlt⟩ : (flagBit s.busy 0).toNat = s.busy.toNat ∧ s.busy.toNat < 2 ^ 1 := by
    cases s.busy <;> decide
  obtain ⟨hdone, hlt⟩ := toNat_or_field hbusy hlt (BitVec.ofBool s.done) (by decide)
  obtain ⟨habsent, hlt⟩ := toNat_or_field hdone hlt (BitVec.ofBool s.absent) (by decide)
  obtain ⟨hfault, hlt⟩ := toNat_or_field habsent hlt (BitVec.ofBool s.fault) (by decide)
  obtain ⟨hcause, hlt⟩ := toNat_or_field hfault hlt s.cause.code (by decide)
  obtain ⟨hcmp, hlt⟩ := toNat_or_field hcause hlt s.cmp.code (by decide)
  obtain ⟨hdropped, -⟩ := toNat_or_field hcmp hlt (BitVec.ofBool s.dropped) (by decide)
  exact hdropped.trans (by simp)

/-- Settles O3: the fields do not overlap, so their OR is their sum; then each cause and comparison by its code. -/
theorem statusReadsItsFields : Obligations.StatusReadsItsFields := by
  unfold Obligations.StatusReadsItsFields
  intro s
  have hword : readWord s 0x008 = s.status.word := rfl
  rw [hword, Status.word_toNat]
  cases s.status.cause <;> cases s.status.cmp <;> rfl

/-! ### The invariant under the unit's moves (70_reset_and_hazards.md R350, 60_exceptions.md R310, R315) -/

section
variable {s u : State}

theorem State.Inv.fault_clear_of_busy (h : s.Inv) (hb : s.status.busy = true) : s.status.fault = false := by
  by_contra hf
  have := (h.fault_not_done (by simpa using hf)).2
  simp [hb] at this

/-- A running command that ends with DONE keeps the invariant, whatever ABSENT and CMP it writes. -/
theorem State.Inv.of_done (h : s.Inv) (hb : s.status.busy = true) {a : Bool} {c : CmpField}
    (hres : u.res.valid .wide = true)
    (hstatus : u.status = { s.status with busy := false, done := true, absent := a, cmp := c })
    (hpending : u.pending = false) (hlatch : u.latch = s.latch) (hcmd : u.cmd = s.cmd) : u.Inv where
  pending_busy := by rw [hpending, hstatus]
  latch_cmd := by rw [hlatch, hcmd, h.latch_cmd]
  absent_done _ := by rw [hstatus]
  fault_not_done hf := by
    rw [hstatus] at hf
    exact absurd hf (by simp [h.fault_clear_of_busy hb])
  cause_fault := by rw [hstatus]; exact h.cause_fault
  busy_clear hb' := by rw [hstatus] at hb'; cases hb'
  cmp_done _ := by rw [hstatus]
  res_valid := hres

theorem State.raiseFault_inv (h : s.Inv) (hb : s.status.busy = true) {c : Cause} (hc : c ≠ .none) :
    (s.raiseFault c).Inv where
  pending_busy := rfl
  latch_cmd := h.latch_cmd
  absent_done := nofun
  fault_not_done _ := ⟨rfl, rfl⟩
  cause_fault := ⟨fun _ => hc, fun _ => rfl⟩
  busy_clear := nofun
  cmp_done hcmp := absurd (h.busy_clear hb).2.2 hcmp
  res_valid := h.res_valid

theorem Ending.inv {i : Instr} (he : Ending i s u) (h : s.Inv) (hb : s.status.busy = true) : u.Inv := by
  cases he with
  | value v k hi hv => exact h.of_done hb (Dec.toReg_valid (Dec.valid_wide hv)) rfl rfl rfl rfl
  | cmp t o hi => exact h.of_done hb h.res_valid rfl rfl rfl rfl
  | kq q hi => exact h.of_done hb h.res_valid rfl rfl rfl rfl
  | kqkr q r hi => exact h.of_done hb h.res_valid rfl rfl rfl rfl
  | absent hi => exact h.of_done hb h.res_valid rfl rfl rfl rfl
  | fault c hc => exact State.raiseFault_inv h hb hc

/-! ### The invariant under the host's moves (70_reset_and_hazards.md R340, R345) -/

/-- The invariant speaks of the pending flag, the latched word, CMD, STATUS and RES alone. -/
theorem State.Inv.of_eq (h : s.Inv) (hpending : u.pending = s.pending) (hlatch : u.latch = s.latch)
    (hcmd : u.cmd = s.cmd) (hstatus : u.status = s.status) (hres : u.res = s.res) : u.Inv where
  pending_busy := by rw [hpending, hstatus, h.pending_busy]
  latch_cmd := by rw [hlatch, hcmd, h.latch_cmd]
  absent_done := by rw [hstatus]; exact h.absent_done
  fault_not_done := by rw [hstatus]; exact h.fault_not_done
  cause_fault := by rw [hstatus]; exact h.cause_fault
  busy_clear := by rw [hstatus]; exact h.busy_clear
  cmp_done := by rw [hstatus]; exact h.cmp_done
  res_valid := by rw [hres]; exact h.res_valid

theorem State.advanceHost_inv (h : s.Inv) : s.advanceHost.Inv := h.of_eq rfl rfl rfl rfl rfl

theorem State.resetUnit_inv (s : State) : s.resetUnit.Inv := State.reset_inv.of_eq rfl rfl rfl rfl rfl

theorem State.accept_inv (h : s.Inv) (hf : s.status.fault = false) (w : Word) : (s.accept w).Inv where
  pending_busy := rfl
  latch_cmd := rfl
  absent_done := nofun
  fault_not_done hf' := absurd hf' (by simp [hf])
  cause_fault := h.cause_fault
  busy_clear _ := ⟨rfl, rfl, rfl⟩
  cmp_done hcmp := absurd rfl hcmp
  res_valid := h.res_valid

/-- DROPPED stands in no clause. -/
theorem State.dropIssue_inv (h : s.Inv) : s.dropIssue.Inv where
  pending_busy := h.pending_busy
  latch_cmd := h.latch_cmd
  absent_done := h.absent_done
  fault_not_done := h.fault_not_done
  cause_fault := h.cause_fault
  busy_clear := h.busy_clear
  cmp_done := h.cmp_done
  res_valid := h.res_valid

theorem State.issue_inv (h : s.Inv) (w : Word) : (s.issue w).Inv := by
  rcases s.issue_cases w with ⟨-, hf, heq⟩ | ⟨-, heq⟩ <;> rw [heq]
  · exact State.accept_inv h hf w
  · exact State.dropIssue_inv h

theorem writeWord_inv (h : s.Inv) (off : Nat) (v : Word) : (writeWord s off v).Inv := by
  rcases writeWord_cases s off v with ⟨-, -, heq⟩ | ⟨-, heq⟩ | ⟨_, _, _, _, _, heq⟩ <;> rw [heq]
  · exact s.resetUnit_inv
  · exact State.issue_inv h v
  · exact h.of_eq rfl rfl rfl rfl rfl

theorem hostMove_inv (h : s.Inv) {op : HostOp} (hm : hostMove op s = .next u) : u.Inv := by
  rcases hostMove_next hm with ⟨t, w, rfl⟩ | ⟨pc, rfl⟩ | ⟨addr, size, v, off, -, -, rfl⟩
  · exact h.of_eq rfl rfl rfl rfl rfl
  · exact h.of_eq rfl rfl rfl rfl rfl
  · exact writeWord_inv (State.advanceHost_inv h) off _

theorem State.Inv.busy_of_unitMoves (h : s.Inv) (hu : s.unitMoves = true) : s.status.busy = true :=
  h.pending_busy ▸ State.pending_of_unitMoves hu

theorem step_inv (h : s.Inv) (hs : step s = .next u) : u.Inv := by
  rcases step_next hs with ⟨hu, i, -, he⟩ | ⟨hu, rfl⟩ | ⟨-, op, -, hm⟩
  · exact he.inv h (h.busy_of_unitMoves hu)
  · exact State.raiseFault_inv h (h.busy_of_unitMoves hu) (by decide)
  · exact hostMove_inv h hm

end

/-- Settles O20: the unit moves only while BUSY, when no outcome shows yet, so each ending leaves the flags of one
outcome; of the host's moves only issue and reset touch what the invariant speaks of. -/
theorem stepKeepsTheInvariant : Obligations.StepKeepsTheInvariant := by
  unfold Obligations.StepKeepsTheInvariant
  exact fun s u h hs => step_inv h hs

/-! ### What a command writes (10_state.md R33, R34, R36, R42, R48) -/

theorem exec_next {i : Instr} {s u : State} (h : exec i s = .next u) : Ending i s u := by
  obtain ⟨t, ht, he⟩ := exec_ends i s
  obtain rfl := Host.Outcome.next.inj (ht.symm.trans h)
  exact he

section
variable {i : Instr} {s u : State}

/-- An ending writes result registers, STATUS, the pending flag and the count of draws alone. -/
theorem Ending.writesOnly (h : Ending i s u) : ∃ res kq kr status pending draws,
    u = { s with res := res, kq := kq, kr := kr, status := status, pending := pending, draws := draws } := by
  cases h <;> exact ⟨_, _, _, _, _, _, rfl⟩

theorem Ending.dropped_eq (h : Ending i s u) : u.status.dropped = s.status.dropped := by cases h <;> rfl

theorem Ending.kernelResults_eq (h : Ending i s u) (hi : i.isKernel = false) : u.kq = s.kq ∧ u.kr = s.kr := by
  cases h with
  | kq q hk => simp [hk] at hi
  | kqkr q r hd => rcases hd with ⟨t, rfl⟩ | rfl <;> cases hi
  | _ => exact ⟨rfl, rfl⟩

theorem Ending.value_eq (h : Ending i s u) (hi : i.isValue = false) : u.res = s.res ∧ u.draws = s.draws := by
  cases h with
  | value v k hv => simp [hv] at hi
  | _ => exact ⟨rfl, rfl⟩

theorem Ending.cmp_eq (h : Ending i s u) (hi : ∀ t, i ≠ .cmp t) : u.status.cmp = s.status.cmp := by
  cases h with
  | cmp t o hc => exact absurd hc (hi t)
  | _ => rfl

theorem Ending.kr_eq (h : Ending i s u) (hw : ∀ t, i ≠ .divw t) (hq : i ≠ .divq) : u.kr = s.kr := by
  cases h with
  | kqkr q r hd =>
    rcases hd with ⟨t, hd⟩ | hd
    · exact absurd hd (hw t)
    · exact absurd hd hq
  | _ => rfl

end

/-- Settles O15: every command leaves by one of the six endings, and each result register is written by its own. -/
theorem commandsWriteOnlyTheirResults : Obligations.CommandsWriteOnlyTheirResults := by
  unfold Obligations.CommandsWriteOnlyTheirResults
  intro i s u h
  have he := exec_next h
  obtain ⟨_, _, _, _, _, _, rfl⟩ := he.writesOnly
  exact ⟨rfl, rfl, rfl, rfl, rfl, rfl, rfl, rfl, rfl, rfl, rfl, rfl, he.dropped_eq, he.kernelResults_eq, he.value_eq,
    he.cmp_eq, he.kr_eq⟩

/-! ### What a completion reads (10_state.md R50, 70_reset_and_hazards.md R350, R357) -/

/-- The outcome of a command apart from the state it is written to (60_exceptions.md R300). -/
inductive Completion where
  | value (v : Dec) (k : Nat)
  | cmp (o : Ordering)
  | kq (q : Nat)
  | kqkr (q r : Nat)
  | absent
  | fault (c : Cause)

/-- Writes an outcome to a state, by the machine's own operations. -/
def Completion.write (s : State) : Completion → State
  | .value v k => s.completeValue v k
  | .cmp o => s.completeCmp o
  | .kq q => s.completeKq q
  | .kqkr q r => s.completeKqKr q r
  | .absent => s.absent
  | .fault c => s.raiseFault c

/-- The state with what a completion may read: the latch, the next draw and the parameter. -/
def State.withInputs (s : State) (l : Latch) (k : Nat) (T : Config.TargetScales) : State :=
  { s with latch := l, draws := k, target := T }

/-- One outcome for every state with the inputs `l`, `k` and `T`: nothing else in the state plays a part. -/
def DecidedBy (l : Latch) (k : Nat) (T : Config.TargetScales) (f : State → Result) : Prop :=
  ∃ c : Completion, ∀ s : State, f (s.withInputs l k T) = .next (c.write (s.withInputs l k T))

section
variable {l : Latch} {k : Nat} {T : Config.TargetScales}

theorem decidedBy_write (c : Completion) : DecidedBy l k T fun s => .next (c.write s) := ⟨c, fun _ => rfl⟩

/-- A core's answer is delivered alike to all states when it is computed alike from them. -/
theorem decidedBy_deliver (r : Computed) {f : State → Computed} (c : Bool) (cause : Cause)
    (hf : ∀ s : State, f (s.withInputs l k T) = r) : DecidedBy l k T fun s => deliver (f s) c cause s := by
  unfold DecidedBy
  simp only [hf]
  cases r with
  | value v k' => exact decidedBy_write (.value v k')
  | ovf =>
    cases c
    · exact decidedBy_write (.fault cause)
    · exact decidedBy_write .absent
  | raise e => exact decidedBy_write (.fault e)

theorem decidedBy_withOperandA (t : Tier) {f : Dec → State → Result} (hf : ∀ a, DecidedBy l k T (f a)) :
    DecidedBy l k T fun s => withOperandA t s fun a => f a s := by
  by_cases ha : l.a.valid t = true
  · obtain ⟨c, hc⟩ := hf l.a.toDec
    exact ⟨c, fun s => (if_pos ha).trans (hc s)⟩
  · exact ⟨.fault .invalidOperand, fun _ => if_neg ha⟩

theorem decidedBy_withOperands (t : Tier) {f : Dec → Dec → State → Result} (hf : ∀ a b, DecidedBy l k T (f a b)) :
    DecidedBy l k T fun s => withOperands t s fun a b => f a b s := by
  refine decidedBy_withOperandA t fun a => ?_
  by_cases hb : l.b.valid t = true
  · obtain ⟨c, hc⟩ := hf a l.b.toDec
    exact ⟨c, fun s => (if_pos hb).trans (hc s)⟩
  · exact ⟨.fault .invalidOperand, fun _ => if_neg hb⟩

theorem decidedBy_roundCommand (mode : RoundMode) (t : Tier) (c : Bool) : DecidedBy l k T (roundCommand mode t c) :=
  decidedBy_withOperandA t fun a => decidedBy_deliver (roundCore t a l.arg.toNat mode k) c .overflow fun _ => rfl

theorem decidedBy_divideKernel {f : State → Result} (W n d : Nat)
    (hf : ∀ s : State, f (s.withInputs l k T) = divideKernel W n d (s.withInputs l k T)) : DecidedBy l k T f := by
  unfold DecidedBy
  simp only [hf, divideKernel]
  split
  · exact decidedBy_write (.fault .divByZero)
  · split
    · exact decidedBy_write (.fault .quotientOverflow)
    · exact decidedBy_write (.kqkr (n / d) (n % d))

/-- Operand checks and cores take their arguments from the latch, the draws and the parameter. -/
theorem exec_decidedBy (i : Instr) : DecidedBy l k T fun s => exec i s := by
  cases i with
  | add t c =>
    simp only [exec, execAdd]
    exact decidedBy_withOperands t fun a b => decidedBy_deliver (addCore t a b k) c .overflow fun _ => rfl
  | sub t c =>
    simp only [exec, execSub]
    exact decidedBy_withOperands t fun a b => decidedBy_deliver (addCore t a b.negate k) c .overflow fun _ => rfl
  | mul t c =>
    simp only [exec, execMul]
    exact decidedBy_withOperands t fun a b => decidedBy_deliver (mulCore T t a b k) c .overflow fun _ => rfl
  | pow t c =>
    simp only [exec, execPow]
    exact decidedBy_withOperandA t fun a => decidedBy_deliver (powCore T t a l.arg.toInt k) c .overflow fun _ => rfl
  | div t =>
    simp only [exec, execDiv]
    exact decidedBy_withOperands t fun a b => decidedBy_deliver (divCore T t a b k) false .quotientOverflow fun _ => rfl
  | rem t =>
    simp only [exec, execRem]
    exact decidedBy_withOperands t fun a b => decidedBy_deliver (remCore T t a b k) false .quotientOverflow fun _ => rfl
  | sqrt t =>
    simp only [exec, execSqrt]
    exact decidedBy_withOperandA t fun a => decidedBy_deliver (sqrtCore t a k) false .overflow fun _ => rfl
  | roundFloor t c => exact decidedBy_roundCommand .floor t c
  | roundCeil t c => exact decidedBy_roundCommand .ceiling t c
  | roundTrunc t c => exact decidedBy_roundCommand .truncate t c
  | roundHalfUp t c => exact decidedBy_roundCommand .halfUp t c
  | roundHalfDown t c => exact decidedBy_roundCommand .halfDown t c
  | roundHalfEven t c => exact decidedBy_roundCommand .halfEven t c
  | roundFract t c => exact decidedBy_roundCommand .fract t c
  | cmp t =>
    simp only [exec, execCmp]
    exact decidedBy_withOperands t fun a b => decidedBy_write (.cmp (cmpCore a b))
  | canon t =>
    simp only [exec, execCanon]
    exact decidedBy_withOperandA t fun a => ⟨.value (canonCore a) k, fun _ => rfl⟩
  | mulw t =>
    exact ⟨.kq (l.ka.toNat % 2 ^ Config.width t * (l.kb.toNat % 2 ^ Config.width t)), fun _ => rfl⟩
  | mulq => exact ⟨.kq (l.ka.toNat % 2 ^ 256 * (l.kb.toNat % 2 ^ 256)), fun _ => rfl⟩
  | divw t =>
    exact decidedBy_divideKernel (Config.width t) (l.ka.toNat % 2 ^ (2 * Config.width t))
      (l.kb.toNat % 2 ^ Config.width t) fun _ => rfl
  | divq => exact decidedBy_divideKernel 256 (l.ka.toNat % 2 ^ 512) (l.kb.toNat % 2 ^ 256) fun _ => rfl
  | isqrt t => exact ⟨.kq (isqrt (l.ka.toNat % 2 ^ 512)), fun _ => rfl⟩

end

/-- Settles O16: the inputs decide the outcome, and an outcome is a choice of registers and values to write. -/
theorem completionReadsOnlyTheLatch : Obligations.CompletionReadsOnlyTheLatch := by
  unfold Obligations.CompletionReadsOnlyTheLatch
  intro i l k T
  obtain ⟨c, hc⟩ := exec_decidedBy (l := l) (k := k) (T := T) i
  have hexec : ∀ s : State, s.latch = l → s.draws = k → s.target = T →
      exec i s = .next (c.write { s with draws := k }) := by
    rintro s rfl rfl rfl
    exact hc s
  cases c with
  | value v k' => exact ⟨some v.toReg, none, none, true, none, none, none, none, k', hexec⟩
  | cmp o => exact ⟨none, none, none, true, none, none, none, some (cmpFieldOf o), k, hexec⟩
  | kq q => exact ⟨none, some (.ofNat 512 q), none, true, none, none, none, none, k, hexec⟩
  | kqkr q r => exact ⟨none, some (.ofNat 512 q), some (.ofNat 256 r), true, none, none, none, none, k, hexec⟩
  | absent => exact ⟨none, none, none, true, some true, none, none, none, k, hexec⟩
  | fault c => exact ⟨none, none, none, false, some false, some true, some c, none, k, hexec⟩

end Sys2Proof.Machine

/-! The register window (20_memory.md): the register map read both ways, what a write leaves at each word, and which
accesses the host may make. -/

namespace Sys2Proof.Machine

/-! ### The register map, both ways (20_memory.md R72) -/

/-- A slot's offset in the table of 20_memory.md R72: `slotOf` read backwards (`slotOf_eq_iff`). `unmapped` has none. -/
def Slot.offset : Slot → Nat
  | .id => 0x000
  | .ctrl => 0x004
  | .status => 0x008
  | .cmd => 0x00C
  | .arg => 0x010
  | .opaInt k => 0x040 + 4 * k
  | .opaFrac k => 0x050 + 4 * k
  | .opaMeta => 0x060
  | .opbInt k => 0x080 + 4 * k
  | .opbFrac k => 0x090 + 4 * k
  | .opbMeta => 0x0A0
  | .resInt k => 0x0C0 + 4 * k
  | .resFrac k => 0x0D0 + 4 * k
  | .resMeta => 0x0E0
  | .ka k => 0x100 + 4 * k
  | .kb k => 0x140 + 4 * k
  | .kq k => 0x180 + 4 * k
  | .kr k => 0x1C0 + 4 * k
  | .unmapped => 0

/-- The slot stands in the map: its register has a word of that number. -/
def Slot.Mapped : Slot → Prop
  | .opaInt k | .opaFrac k | .opbInt k | .opbFrac k | .resInt k | .resFrac k => k < 4
  | .kb k | .kr k => k < 8
  | .ka k | .kq k => k < 16
  | .unmapped => False
  | _ => True

/-- A word of ARG, OPA, OPB, KA or KB. -/
def Slot.isOperand : Slot → Bool
  | .arg | .opaInt _ | .opaFrac _ | .opaMeta | .opbInt _ | .opbFrac _ | .opbMeta | .ka _ | .kb _ => true
  | _ => false

/-- A word of ID, STATUS, RES, KQ or KR. -/
def Slot.isReadOnly : Slot → Bool
  | .id | .status | .resInt _ | .resFrac _ | .resMeta | .kq _ | .kr _ => true
  | _ => false

theorem operandOffset_iff {off : Nat} : operandOffset off = true ↔
    off = 0x010 ∨ (0x040 ≤ off ∧ off ≤ 0x060) ∨ (0x080 ≤ off ∧ off ≤ 0x0A0) ∨ (0x100 ≤ off ∧ off ≤ 0x15C) := by
  simp [operandOffset, or_assoc]

theorem readOnlyOffset_iff {off : Nat} : readOnlyOffset off = true ↔
    off = 0x000 ∨ off = 0x008 ∨ (0x0C0 ≤ off ∧ off ≤ 0x0E0) ∨ (0x180 ≤ off ∧ off ≤ 0x1DC) := by
  simp [readOnlyOffset, or_assoc]

theorem unmappedOffset_iff {off : Nat} : unmappedOffset off = true ↔
    ¬operandOffset off = true ∧ ¬readOnlyOffset off = true ∧ off ≠ 0x004 ∧ off ≠ 0x00C := by
  simp [unmappedOffset, and_assoc]

theorem windowOffsetOk_iff {off : Nat} : windowOffsetOk off = true ↔ off < Config.windowSize ∧ off % 4 = 0 := by
  simp [windowOffsetOk, Config.windowSize]

theorem slotOf_offset {x : Slot} (hx : x.Mapped) : slotOf x.offset = x := by
  cases x with
  | opaInt k | opaFrac k | opbInt k | opbFrac k | resInt k | resFrac k | ka k | kb k | kq k | kr k =>
    simp only [Slot.Mapped] at hx
    simp (disch := omega) only [Slot.offset, slotOf, slotOfWord, Nat.add_mul_div_left, Nat.reduceDiv, if_neg, if_pos,
      Nat.add_sub_cancel_left]
  | unmapped => cases hx
  | _ => rfl

/-- Every branch of the map is a mapped slot at its own offset, or lies in none of the named ranges. -/
theorem slotOfWord_cases (i : Nat) :
    ((slotOfWord i).Mapped ∧ 4 * i = (slotOfWord i).offset) ∨
      (slotOfWord i = .unmapped ∧ unmappedOffset (4 * i) = true) := by
  simp only [unmappedOffset_iff, operandOffset_iff, readOnlyOffset_iff]
  fun_cases slotOfWord i <;> simp_all [Slot.Mapped, Slot.offset] <;> omega

/-- An aligned offset is the offset of a mapped slot, or nothing is mapped there. -/
theorem slotOf_cases {off : Nat} (h4 : off % 4 = 0) :
    (∃ x : Slot, x.Mapped ∧ off = x.offset) ∨ (slotOf off = .unmapped ∧ unmappedOffset off = true) := by
  obtain ⟨i, rfl⟩ := Nat.dvd_of_mod_eq_zero h4
  rw [slotOf, Nat.mul_div_cancel_left i (by decide)]
  exact (slotOfWord_cases i).imp_left fun ⟨hx, hoff⟩ => ⟨_, hx, hoff⟩

theorem slotOf_eq_iff {off : Nat} (h4 : off % 4 = 0) {x : Slot} (hx : x.Mapped) : slotOf off = x ↔ off = x.offset := by
  constructor
  · rintro rfl
    rcases slotOf_cases h4 with ⟨y, hy, rfl⟩ | ⟨hun, -⟩
    · rw [slotOf_offset hy]
    · rw [hun] at hx
      cases hx
  · rintro rfl
    exact slotOf_offset hx

theorem Slot.offset_inj {x y : Slot} (hx : x.Mapped) (hy : y.Mapped) : x.offset = y.offset ↔ x = y :=
  ⟨fun h => by rw [← slotOf_offset hx, h, slotOf_offset hy], congrArg Slot.offset⟩

/-! ### The classes of offsets, by slot -/

theorem operandOffset_offset {x : Slot} (hx : x.Mapped) : operandOffset x.offset = x.isOperand := by
  rw [Bool.eq_iff_iff, operandOffset_iff]
  cases x <;> simp only [Slot.Mapped] at hx <;> simp [Slot.isOperand, Slot.offset] <;> omega

theorem readOnlyOffset_offset {x : Slot} (hx : x.Mapped) : readOnlyOffset x.offset = x.isReadOnly := by
  rw [Bool.eq_iff_iff, readOnlyOffset_iff]
  cases x <;> simp only [Slot.Mapped] at hx <;> simp [Slot.isReadOnly, Slot.offset] <;> omega

theorem unmappedOffset_offset {x : Slot} (hx : x.Mapped) : unmappedOffset x.offset = false := by
  rw [← Bool.not_eq_true, unmappedOffset_iff, operandOffset_offset hx, readOnlyOffset_offset hx]
  cases x with
  | unmapped => cases hx
  | _ => simp [Slot.isOperand, Slot.isReadOnly, Slot.offset]

/-! ### Registers by their words (20_memory.md R73, 10_state.md R31) -/

/-- The words of a register are its digits in base `2 ^ 32`. -/
theorem sum_wordAt {n : Nat} (x : BitVec n) (m : Nat) :
    ∑ k ∈ Finset.range m, (wordAt x k).toNat * 2 ^ (32 * k) = x.toNat % 2 ^ (32 * m) := by
  induction m with
  | zero => simp [Nat.mod_one]
  | succ m ih =>
    rw [Finset.sum_range_succ, ih, wordAt, BitVec.extractLsb'_toNat, Nat.shiftRight_eq_div_pow, Nat.mul_succ,
      Nat.pow_add, Nat.mod_mul, Nat.mul_comm (2 ^ (32 * m))]

/-- Mapped slots that read the words of a register, least significant first, read the register. -/
theorem sum_readWord {s : State} {n m : Nat} {x : BitVec n} {slot : Nat → Slot} (hn : n = 32 * m)
    (hslot : ∀ k < m, (slot k).Mapped) (hread : ∀ k off, slotOf off = slot k → readWord s off = wordAt x k) :
    ∑ k ∈ Finset.range m, (readWord s (slot k).offset).toNat * 2 ^ (32 * k) = x.toNat := by
  subst hn
  rw [← Nat.mod_eq_of_lt x.isLt, ← sum_wordAt x m]
  exact Finset.sum_congr rfl fun k hk => by rw [hread k _ (slotOf_offset (hslot k (Finset.mem_range.1 hk)))]

theorem DecReg.meta_toNat (r : DecReg) : r.meta.toNat = r.scale.toNat + 256 * r.sign.toNat := by
  have hscale : (r.scale.setWidth 32).toNat = r.scale.toNat := BitVec.toNat_setWidth_of_le (by decide)
  obtain ⟨hmeta, -⟩ := toNat_or_field hscale r.scale.isLt (BitVec.ofBool r.sign) (by decide)
  exact hmeta.trans (by simp)

/-- Settles O4: a register's words stand at its slots and sum up to it, META is two fields side by side, and a register
of one word is read as it is. -/
theorem windowShowsEveryRegister : Obligations.WindowShowsEveryRegister := by
  unfold Obligations.WindowShowsEveryRegister
  intro s
  exact ⟨sum_readWord (slot := .opaInt) rfl (fun _ hk => hk) fun _ _ h => by rw [readWord, h],
    sum_readWord (slot := .opaFrac) rfl (fun _ hk => hk) fun _ _ h => by rw [readWord, h],
    sum_readWord (slot := .opbInt) rfl (fun _ hk => hk) fun _ _ h => by rw [readWord, h],
    sum_readWord (slot := .opbFrac) rfl (fun _ hk => hk) fun _ _ h => by rw [readWord, h],
    sum_readWord (slot := .resInt) rfl (fun _ hk => hk) fun _ _ h => by rw [readWord, h],
    sum_readWord (slot := .resFrac) rfl (fun _ hk => hk) fun _ _ h => by rw [readWord, h],
    sum_readWord (slot := .ka) rfl (fun _ hk => hk) fun _ _ h => by rw [readWord, h],
    sum_readWord (slot := .kb) rfl (fun _ hk => hk) fun _ _ h => by rw [readWord, h],
    sum_readWord (slot := .kq) rfl (fun _ hk => hk) fun _ _ h => by rw [readWord, h],
    sum_readWord (slot := .kr) rfl (fun _ hk => hk) fun _ _ h => by rw [readWord, h],
    s.opa.meta_toNat, s.opb.meta_toNat, s.res.meta_toNat, rfl, rfl, rfl, rfl, rfl⟩

/-! ### Writes without effect (20_memory.md R75) -/

section
variable {s : State} {off : Nat}

theorem writeWord_readOnly (h : (slotOf off).isReadOnly = true) (v : Word) : writeWord s off v = s := by
  unfold writeWord
  cases hslot : slotOf off with
  | id | status | resInt _ | resFrac _ | resMeta | kq _ | kr _ => rfl
  | _ => simp [hslot, Slot.isReadOnly] at h

theorem writeWord_unmapped (h : slotOf off = .unmapped) (v : Word) : writeWord s off v = s := by
  rw [writeWord, h]

theorem readWord_unmapped (h : slotOf off = .unmapped) : readWord s off = 0 := by
  rw [readWord, h]

end

theorem writeWord_ctrl (s : State) (v : Word) :
    writeWord s 0x004 v = if v.getLsbD 0 then s.resetUnit else s := rfl

theorem writeWord_opaMeta (s : State) (v : Word) :
    writeWord s 0x060 v = { s with opa := s.opa.setMeta v } := rfl

theorem writeWord_opbMeta (s : State) (v : Word) :
    writeWord s 0x0A0 v = { s with opb := s.opb.setMeta v } := rfl

theorem toNat_and_0x1FF (v : Word) : (v &&& 0x1FF).toNat = v.toNat % 2 ^ 9 := by
  rw [BitVec.toNat_and]
  exact Nat.and_two_pow_sub_one_eq_mod v.toNat 9

theorem DecReg.setMeta_and_0x1FF (r : DecReg) (v : Word) : r.setMeta (v &&& 0x1FF) = r.setMeta v := by
  have hscale : (v &&& 0x1FF).extractLsb' 0 8 = v.extractLsb' 0 8 := by
    apply BitVec.eq_of_toNat_eq
    simp only [BitVec.extractLsb'_toNat, toNat_and_0x1FF, Nat.shiftRight_zero]
    omega
  have hsign : (v &&& 0x1FF).getLsbD 8 = v.getLsbD 8 := by simp
  simp only [DecReg.setMeta, hscale, hsign]

/-- META reads its scale and its sign, the nine low bits of the word written to it. -/
theorem DecReg.meta_setMeta (r : DecReg) (v : Word) : (r.setMeta v).meta = v &&& 0x1FF := by
  apply BitVec.eq_of_toNat_eq
  rw [DecReg.meta_toNat, toNat_and_0x1FF]
  simp only [DecReg.setMeta, BitVec.extractLsb'_toNat, Nat.shiftRight_zero, BitVec.getLsbD, Nat.toNat_testBit]
  omega

/-- Settles O5: the offset's slot says what a write does there, and META and CTRL look at their own bits alone. -/
theorem ignoredWritesChangeNothing : Obligations.IgnoredWritesChangeNothing := by
  unfold Obligations.IgnoredWritesChangeNothing
  refine ⟨fun s off v hok hread => ?_, fun s off v hok hun => ?_, fun s v => ⟨?_, ?_, ?_, rfl, rfl, fun hv => ?_⟩⟩
  · rcases slotOf_cases (windowOffsetOk_iff.1 hok).2 with ⟨x, hx, rfl⟩ | ⟨hslot, -⟩
    · rw [readOnlyOffset_offset hx] at hread
      exact writeWord_readOnly (by rwa [slotOf_offset hx]) v
    · exact writeWord_unmapped hslot v
  · rcases slotOf_cases (windowOffsetOk_iff.1 hok).2 with ⟨x, hx, rfl⟩ | ⟨hslot, -⟩
    · simp [unmappedOffset_offset hx] at hun
    · exact ⟨writeWord_unmapped hslot v, readWord_unmapped hslot⟩
  · rw [writeWord_opaMeta, writeWord_opaMeta, DecReg.setMeta_and_0x1FF]
  · rw [writeWord_opbMeta, writeWord_opbMeta, DecReg.setMeta_and_0x1FF]
  · have hbit : (v &&& 1).getLsbD 0 = v.getLsbD 0 := by simp
    rw [writeWord_ctrl, writeWord_ctrl, hbit]
  · rw [writeWord_ctrl, if_neg (ne_true_of_eq_false hv)]

/-! ### Operand words (20_memory.md R72, R79) -/

section
variable {s : State} {v : Word}

theorem readWord_writeWord_same {x : Slot} (hx : x.Mapped) (hop : x.isOperand = true) :
    readWord (writeWord s x.offset v) x.offset = if x = .opaMeta ∨ x = .opbMeta then v &&& 0x1FF else v := by
  unfold readWord writeWord
  rw [slotOf_offset hx]
  cases x with
  | arg => rfl
  | opaInt k | opaFrac k | opbInt k | opbFrac k | ka k | kb k =>
    exact wordAt_setWordAt_same _ v (by simp only [Slot.Mapped] at hx; omega)
  | opaMeta => exact s.opa.meta_setMeta v
  | opbMeta => exact s.opb.meta_setMeta v
  | _ => cases hop

/-- A write to an operand slot is seen at that slot alone: another word of its register by `wordAt_setWordAt_other`,
any other field because it is not touched. -/
theorem readWord_writeWord_other {off off' : Nat} (hop : (slotOf off).isOperand = true)
    (hne : slotOf off' ≠ slotOf off) : readWord (writeWord s off v) off' = readWord s off' := by
  unfold readWord writeWord
  generalize slotOf off = x at *
  generalize slotOf off' = y at *
  cases x with
  | arg => cases y with
    | arg => exact absurd rfl hne
    | _ => rfl
  | opaInt k => cases y with
    | opaInt j => exact wordAt_setWordAt_other _ v (by simpa using hne)
    | _ => rfl
  | opaFrac k => cases y with
    | opaFrac j => exact wordAt_setWordAt_other _ v (by simpa using hne)
    | _ => rfl
  | opaMeta => cases y with
    | opaMeta => exact absurd rfl hne
    | _ => rfl
  | opbInt k => cases y with
    | opbInt j => exact wordAt_setWordAt_other _ v (by simpa using hne)
    | _ => rfl
  | opbFrac k => cases y with
    | opbFrac j => exact wordAt_setWordAt_other _ v (by simpa using hne)
    | _ => rfl
  | opbMeta => cases y with
    | opbMeta => exact absurd rfl hne
    | _ => rfl
  | ka k => cases y with
    | ka j => exact wordAt_setWordAt_other _ v (by simpa using hne)
    | _ => rfl
  | kb k => cases y with
    | kb j => exact wordAt_setWordAt_other _ v (by simpa using hne)
    | _ => rfl
  | _ => cases hop

end

/-- Settles O6: an operand offset is the offset of an operand slot, and another offset has another slot. -/
theorem operandWordReadsBack : Obligations.OperandWordReadsBack := by
  unfold Obligations.OperandWordReadsBack
  intro s off v hok hop
  rcases slotOf_cases (windowOffsetOk_iff.1 hok).2 with ⟨x, hx, rfl⟩ | ⟨-, hun⟩
  · rw [operandOffset_offset hx] at hop
    refine ⟨(readWord_writeWord_same hx hop).trans ?_, fun off' hok' hne => ?_⟩
    · have hmetaA := Slot.offset_inj hx (y := .opaMeta) trivial
      have hmetaB := Slot.offset_inj hx (y := .opbMeta) trivial
      exact if_congr (or_congr hmetaA.symm hmetaB.symm) rfl rfl
    · refine readWord_writeWord_other (by rwa [slotOf_offset hx]) ?_
      rwa [slotOf_offset hx, Ne, slotOf_eq_iff (windowOffsetOk_iff.1 hok').2 hx]
  · exact absurd hop (unmappedOffset_iff.1 hun).1

/-! ### Accesses of the host (20_memory.md R74, R77, 70_reset_and_hazards.md R358) -/

section
variable {s : State} {addr size off : Nat}

theorem hostMove_rd {t : Fin 8} (h : windowOffset addr size = .ok off) :
    hostMove (.rd t addr size) s = .next { s.advanceHost with temps := s.temps.set t (readWord s off) } := by
  rw [hostMove, h]

theorem hostMove_wr {v : HostSource} (h : windowOffset addr size = .ok off) :
    hostMove (.wr addr size v) s = .next (writeWord s.advanceHost off (s.sourceValue v)) := by
  rw [hostMove, h]

theorem windowOffset_error (h : ¬(size = 4 ∧ addr % 4 = 0 ∧ Config.windowBase ≤ addr ∧
    addr < Config.windowBase + 0x200)) : ∃ r, windowOffset addr size = .error r := by
  cases hoff : windowOffset addr size with
  | error r => exact ⟨r, rfl⟩
  | ok off =>
    obtain ⟨hsize, halign, rfl, hlt⟩ := windowOffset_ok.1 hoff
    exact absurd ⟨hsize, halign, Nat.le_add_right .., Nat.add_lt_add_left hlt _⟩ h

end

/-- Settles O7: no offset but those of CTRL and CMD has their slots, and the last case of `writeWord_cases` is left; a
read is the host's move. -/
theorem onlyIssueAndResetHaveSideEffects : Obligations.OnlyIssueAndResetHaveSideEffects := by
  unfold Obligations.OnlyIssueAndResetHaveSideEffects
  constructor
  · intro s off v hok hcmd hreset
    obtain ⟨-, h4⟩ := windowOffsetOk_iff.1 hok
    rcases writeWord_cases s off v with ⟨hslot, hv, -⟩ | ⟨hslot, -⟩ | hoperand
    · exact absurd ⟨(slotOf_eq_iff h4 (x := .ctrl) trivial).1 hslot, hv⟩ hreset
    · exact absurd ((slotOf_eq_iff h4 (x := .cmd) trivial).1 hslot) hcmd
    · exact hoperand
  · intro s t off hok hu hop
    obtain ⟨hlt, h4⟩ := windowOffsetOk_iff.1 hok
    rw [step_host hu hop, hostMove_rd (windowOffset_base hlt h4)]
    rfl

/-- Settles O8: an access is admitted exactly when its address has a window offset. -/
theorem onlyAlignedWordAccessesAreAdmitted : Obligations.OnlyAlignedWordAccessesAreAdmitted := by
  unfold Obligations.OnlyAlignedWordAccessesAreAdmitted
  intro s t addr size v hu hop
  constructor
  · rintro ⟨hsize, halign, hlow, hhigh⟩
    have hoff : windowOffset addr size = .ok (addr - Config.windowBase) :=
      windowOffset_ok.2 ⟨hsize, halign, by omega, by unfold Config.windowSize; omega⟩
    rcases hop with hrd | hwr
    · rw [step_host hu hrd, hostMove_rd hoff, if_pos hrd]
    · rw [step_host hu hwr, hostMove_wr hoff, if_neg (by simp [hwr])]
  · intro hbad
    obtain ⟨r, hr⟩ := windowOffset_error hbad
    rcases hop with hop | hop <;> exact ⟨r, by rw [step_host hu hop, hostMove, hr]⟩

end Sys2Proof.Machine

/-! The encoding (30_encoding.md): words and fields, the decoder against the encoder, legality, the opcode table, the
assembler's names, and the host's `wrval`. -/

namespace Sys2Proof
open Machine

/-! ### A word and its fields (30_encoding.md R100) -/

@[simp] theorem fieldsOf_op_toNat (w : Word) : (fieldsOf w).op.toNat = w.toNat % 64 := by
  simp [fieldsOf, BitVec.extractLsb'_toNat]

@[simp] theorem fieldsOf_tier_toNat (w : Word) : (fieldsOf w).tier.toNat = w.toNat / 64 % 4 := by
  simp [fieldsOf, BitVec.extractLsb'_toNat, Nat.shiftRight_eq_div_pow]

@[simp] theorem fieldsOf_mode_toNat (w : Word) : (fieldsOf w).mode.toNat = w.toNat / 256 % 8 := by
  simp [fieldsOf, BitVec.extractLsb'_toNat, Nat.shiftRight_eq_div_pow]

@[simp] theorem fieldsOf_c_toNat (w : Word) : (fieldsOf w).c.toNat = w.toNat / 2048 % 2 := by
  simp [fieldsOf, BitVec.getLsbD, Nat.toNat_testBit]

@[simp] theorem fieldsOf_reserved_toNat (w : Word) : (fieldsOf w).reserved.toNat = w.toNat / 4096 := by
  have hw := w.isLt
  simp only [fieldsOf, BitVec.extractLsb'_toNat, Nat.shiftRight_eq_div_pow]
  omega

theorem wordOf_toNat (f : CmdFields) : (wordOf f).toNat =
    f.op.toNat + 64 * f.tier.toNat + 256 * f.mode.toNat + 2048 * f.c.toNat + 4096 * f.reserved.toNat := by
  have hop : (f.op.setWidth 32).toNat = f.op.toNat := BitVec.toNat_setWidth_of_le (by decide)
  obtain ⟨htier, hlt⟩ := toNat_or_field hop f.op.isLt f.tier (by decide)
  obtain ⟨hmode, hlt⟩ := toNat_or_field htier hlt f.mode (by decide)
  obtain ⟨hc, hlt⟩ := toNat_or_field hmode hlt (BitVec.ofBool f.c) (by decide)
  obtain ⟨hreserved, -⟩ := toNat_or_field hc hlt f.reserved (by decide)
  exact hreserved.trans (by simp)

@[simp] theorem wordOf_fieldsOf (w : Word) : wordOf (fieldsOf w) = w := by
  apply BitVec.eq_of_toNat_eq
  simp only [wordOf_toNat, fieldsOf_op_toNat, fieldsOf_tier_toNat, fieldsOf_mode_toNat, fieldsOf_c_toNat,
    fieldsOf_reserved_toNat]
  omega

/-- Fields are equal when their numbers are. -/
theorem CmdFields.ext_toNat {f g : CmdFields} (hop : f.op.toNat = g.op.toNat) (htier : f.tier.toNat = g.tier.toNat)
    (hmode : f.mode.toNat = g.mode.toNat) (hc : f.c.toNat = g.c.toNat)
    (hreserved : f.reserved.toNat = g.reserved.toNat) : f = g := by
  have hc' : f.c = g.c := by
    revert hc
    cases f.c <;> cases g.c <;> decide
  cases f; cases g
  exact CmdFields.mk.injEq .. ▸ ⟨BitVec.eq_of_toNat_eq hop, BitVec.eq_of_toNat_eq htier, BitVec.eq_of_toNat_eq hmode,
    hc', BitVec.eq_of_toNat_eq hreserved⟩

@[simp] theorem fieldsOf_wordOf (f : CmdFields) : fieldsOf (wordOf f) = f := by
  have hop := f.op.isLt
  have htier := f.tier.isLt
  have hmode := f.mode.isLt
  have hc := f.c.toNat_lt
  apply CmdFields.ext_toNat <;>
    simp only [wordOf_toNat, fieldsOf_op_toNat, fieldsOf_tier_toNat, fieldsOf_mode_toNat, fieldsOf_c_toNat,
      fieldsOf_reserved_toNat] <;> omega

theorem fieldsOf_eq_iff {w : Word} {f : CmdFields} : fieldsOf w = f ↔ wordOf f = w :=
  ⟨fun h => h ▸ wordOf_fieldsOf w, fun h => h ▸ fieldsOf_wordOf f⟩

@[simp] theorem tierOf_tierCode (t : Tier) : tierOf (tierCode t) = t := by cases t <;> rfl

@[simp] theorem tierCode_tierOf (b : BitVec 2) : tierCode (tierOf b) = b := by revert b; decide

/-! ### What each shape of command decodes to (30_encoding.md R102 to R104, R106) -/

section
variable {f : CmdFields} {i : Instr}

theorem decodeChecked_ok {mk : Tier → Bool → Instr} :
    decodeChecked f mk = .ok i ↔ f.mode = 0 ∧ mk (tierOf f.tier) f.c = i := by
  fun_cases decodeChecked f mk <;> simp_all

theorem decodeUnchecked_ok {mk : Tier → Instr} :
    decodeUnchecked f mk = .ok i ↔ f.mode = 0 ∧ f.c = false ∧ mk (tierOf f.tier) = i := by
  fun_cases decodeUnchecked f mk <;> simp_all

theorem decodeWideOnly_ok {j : Instr} :
    decodeWideOnly f j = .ok i ↔ f.mode = 0 ∧ f.c = false ∧ f.tier = 3 ∧ j = i := by
  fun_cases decodeWideOnly f j <;> simp_all

theorem cmdFields_eq {op : BitVec 6} {t : Tier} {m : BitVec 3} {c : Bool} (hreserved : f.reserved = 0)
    (hop : f.op.toNat = op.toNat) (htier : tierCode t = f.tier) (hmode : f.mode.toNat = m.toNat) (hc : f.c = c) :
    cmdFields op t m c = f := by
  obtain rfl := BitVec.eq_of_toNat_eq hop
  obtain rfl := BitVec.eq_of_toNat_eq hmode
  subst hc
  rw [cmdFields, htier, ← hreserved]

theorem fieldsOfInstr_of_decodeRound (hreserved : f.reserved = 0) (hop : f.op.toNat = 8)
    (h : decodeRound f = .ok i) : fieldsOfInstr i = f := by
  revert h
  fun_cases decodeRound f with
  | case8 => exact nofun
  | case1 hmode | case2 hmode | case3 hmode | case4 hmode | case5 hmode | case6 hmode | case7 hmode =>
    rintro ⟨⟩
    exact cmdFields_eq hreserved hop (tierCode_tierOf _) hmode rfl

theorem fieldsOfInstr_of_decodeFields (h : decodeFields f = .ok i) : fieldsOfInstr i = f := by
  revert h
  fun_cases decodeFields f with
  | case1 => exact nofun
  | case17 => exact nofun
  | case9 hreserved hop => exact fieldsOfInstr_of_decodeRound (not_not.1 hreserved) hop
  | case2 hreserved hop | case3 hreserved hop | case4 hreserved hop | case7 hreserved hop =>
    rw [decodeChecked_ok]
    rintro ⟨hmode, rfl⟩
    exact cmdFields_eq (not_not.1 hreserved) hop (tierCode_tierOf _) (congrArg _ hmode) rfl
  | case13 hreserved hop | case15 hreserved hop =>
    rw [decodeWideOnly_ok]
    rintro ⟨hmode, hc, htier, rfl⟩
    exact cmdFields_eq (not_not.1 hreserved) hop htier.symm (congrArg _ hmode) hc
  | case5 hreserved hop | case6 hreserved hop | case8 hreserved hop | case10 hreserved hop | case11 hreserved hop
  | case12 hreserved hop | case14 hreserved hop | case16 hreserved hop =>
    rw [decodeUnchecked_ok]
    rintro ⟨hmode, hc, rfl⟩
    exact cmdFields_eq (not_not.1 hreserved) hop (tierCode_tierOf _) (congrArg _ hmode) hc

@[simp] theorem decodeFields_fieldsOfInstr (i : Instr) : decodeFields (fieldsOfInstr i) = .ok i := by
  cases i with
  | mulq | divq => rfl
  | _ t => cases t <;> rfl

theorem decodeFields_ok_iff : decodeFields f = .ok i ↔ fieldsOfInstr i = f :=
  ⟨fieldsOfInstr_of_decodeFields, fun h => h ▸ decodeFields_fieldsOfInstr i⟩

end

theorem decode_ok_iff_fields {w : Word} {i : Instr} : decode w = .ok i ↔ fieldsOf w = fieldsOfInstr i := by
  rw [decode, decodeFields_ok_iff, eq_comm]

theorem decode_ok_iff {w : Word} {i : Instr} : decode w = .ok i ↔ encode i = w := by
  rw [decode_ok_iff_fields, fieldsOf_eq_iff, encode]

/-- Settles O23: a word is its fields, and `decodeFields` inverts `fieldsOfInstr` one shape of command at a time. -/
theorem decodeIffEncode : Obligations.DecodeIffEncode := by
  unfold Obligations.DecodeIffEncode
  exact fun w i => decode_ok_iff

/-! ### Legal words (30_encoding.md R106) -/

section
variable {f : CmdFields}

theorem exists_decodeRound_ok : (∃ i, decodeRound f = .ok i) ↔ f.mode.toNat ≤ 6 := by
  fun_cases decodeRound f with
  | case8 =>
    simp_all only [reduceCtorEq, exists_false, false_iff, imp_false]
    omega
  | _ hmode => simp [hmode]

theorem exists_decodeFields_ok : (∃ i, decodeFields f = .ok i) ↔
    f.reserved.toNat = 0 ∧ f.op.toNat ∈ [1, 2, 3, 4, 5, 6, 7, 8, 9, 10, 16, 17, 18, 19, 20] ∧
      (if f.op.toNat = 8 then f.mode.toNat ≤ 6 else f.mode.toNat = 0) ∧
      (f.op.toNat ∉ [1, 2, 3, 6, 8] → f.c.toNat = 0) ∧ (f.op.toNat ∈ [17, 19] → f.tier.toNat = 3) := by
  fun_cases decodeFields f with
  | case1 hreserved =>
    simp [show f.reserved.toNat ≠ 0 from fun h => hreserved (BitVec.eq_of_toNat_eq h)]
  | case17 => simp_all
  | _ hreserved hop =>
    rw [not_not] at hreserved
    simp [hreserved, hop, exists_decodeRound_ok, decodeChecked_ok, decodeUnchecked_ok, decodeWideOnly_ok,
      ← BitVec.toNat_inj]

end

/-- Settles O24: the conditions hold of the fields in the branch of each operation code, and a field is a digit of the
word. -/
theorem decodeAcceptsExactlyLegalWords : Obligations.DecodeAcceptsExactlyLegalWords := by
  unfold Obligations.DecodeAcceptsExactlyLegalWords
  intro w
  simp only [decode, exists_decodeFields_ok, fieldsOf_op_toNat, fieldsOf_tier_toNat, fieldsOf_mode_toNat,
    fieldsOf_c_toNat, fieldsOf_reserved_toNat]

/-- Settles O22: the decoder runs on each word. -/
theorem writtenOutWordsDecode : Obligations.WrittenOutWordsDecode := by
  unfold Obligations.WrittenOutWordsDecode
  exact ⟨rfl, rfl, rfl, rfl, rfl, rfl, rfl, rfl⟩

/-! ### The commands by what their words leave free -/

/-- The commands whose words have TIER and C free (30_encoding.md R104). -/
def checkedCommands : List (Tier → Bool → Instr) :=
  [.add, .sub, .mul, .pow, .roundFloor, .roundCeil, .roundTrunc, .roundHalfUp, .roundHalfDown, .roundHalfEven,
   .roundFract]

/-- The commands whose words have TIER alone free. -/
def tierCommands : List (Tier → Instr) := [.div, .rem, .sqrt, .cmp, .canon, .mulw, .divw, .isqrt]

/-- The commands with one word (30_encoding.md R106 (5)). -/
def wideCommands : List Instr := [.mulq, .divq]

theorem Instr.shape_cases (i : Instr) :
    (∃ mk ∈ checkedCommands, ∃ t c, mk t c = i) ∨ (∃ mk ∈ tierCommands, ∃ t, mk t = i) ∨ i ∈ wideCommands := by
  cases i with
  | mulq | divq => simp [wideCommands]
  | div t | rem t | sqrt t | cmp t | canon t | mulw t | divw t | isqrt t =>
    exact .inr (.inl ⟨_, by simp [tierCommands], t, rfl⟩)
  | _ t c => exact .inl ⟨_, by simp [checkedCommands], t, c, rfl⟩

/-- TIER and C alone vary with a checked command's arguments. -/
theorem fieldsOfInstr_checkedCommand {mk : Tier → Bool → Instr} (hmk : mk ∈ checkedCommands) :
    ∃ op m, ∀ t c, fieldsOfInstr (mk t c) = cmdFields op t m c := by
  fin_cases hmk <;> exact ⟨_, _, fun _ _ => rfl⟩

theorem fieldsOfInstr_tierCommand {mk : Tier → Instr} (hmk : mk ∈ tierCommands) :
    ∃ op m, ∀ t, fieldsOfInstr (mk t) = cmdFields op t m false := by
  fin_cases hmk <;> exact ⟨_, _, fun _ => rfl⟩

theorem mnemonicOf_checkedCommand {mk : Tier → Bool → Instr} (hmk : mk ∈ checkedCommands) (t : Tier) (c : Bool) :
    mnemonicOf (mk t c) = mnemonicOf (mk .tiny false) := by
  fin_cases hmk <;> rfl

theorem mnemonicOf_tierCommand {mk : Tier → Instr} (hmk : mk ∈ tierCommands) (t : Tier) :
    mnemonicOf (mk t) = mnemonicOf (mk .tiny) := by
  fin_cases hmk <;> rfl

/-! ### The rows of the opcode table (spec/opcode_table.json) -/

/-- The row of a command with TIER and C free. -/
def checkedRow (mk : Tier → Bool → Instr) : OpcodeRow :=
  { mnemonic := mnemonicOf (mk .tiny false), pattern := encode (mk .tiny false), mask := 0xFFFFF73F }

/-- The row of a command with TIER free. -/
def tierRow (mk : Tier → Instr) : OpcodeRow :=
  { mnemonic := mnemonicOf (mk .tiny), pattern := encode (mk .tiny), mask := 0xFFFFFF3F }

/-- The row of a command with one word. -/
def wideRow (i : Instr) : OpcodeRow := { mnemonic := mnemonicOf i, pattern := encode i, mask := 0xFFFFFFFF }

theorem opcodeTable_perm :
    opcodeTable.Perm (checkedCommands.map checkedRow ++ (tierCommands.map tierRow ++ wideCommands.map wideRow)) := by
  decide

theorem mem_opcodeTable {r : OpcodeRow} : r ∈ opcodeTable ↔
    (∃ mk ∈ checkedCommands, checkedRow mk = r) ∨ (∃ mk ∈ tierCommands, tierRow mk = r) ∨
      ∃ i ∈ wideCommands, wideRow i = r := by
  rw [opcodeTable_perm.mem_iff, List.mem_append, List.mem_append, List.mem_map, List.mem_map, List.mem_map]

theorem opcodeTable_mnemonic_inj {r q : OpcodeRow} (hr : r ∈ opcodeTable) (hq : q ∈ opcodeTable)
    (h : r.mnemonic = q.mnemonic) : r = q :=
  List.inj_on_of_nodup_map (f := OpcodeRow.mnemonic) (by decide) hr hq h

theorem fieldsOf_and (w m : Word) : fieldsOf (w &&& m) =
    { op := (fieldsOf w).op &&& (fieldsOf m).op, tier := (fieldsOf w).tier &&& (fieldsOf m).tier,
      mode := (fieldsOf w).mode &&& (fieldsOf m).mode, c := (fieldsOf w).c && (fieldsOf m).c,
      reserved := (fieldsOf w).reserved &&& (fieldsOf m).reserved } := by
  simp only [fieldsOf, BitVec.extractLsb'_and, BitVec.getLsbD_and]

theorem fieldsOf_and_checkedMask (w : Word) :
    fieldsOf (w &&& 0xFFFFF73F) = { fieldsOf w with tier := 0#2, c := false } := by
  have hmask : fieldsOf 0xFFFFF73F = ⟨.allOnes 6, 0#2, .allOnes 3, false, .allOnes 20⟩ := rfl
  simp only [fieldsOf_and, hmask, BitVec.and_allOnes, BitVec.and_zero, Bool.and_false]

theorem fieldsOf_and_tierMask (w : Word) : fieldsOf (w &&& 0xFFFFFF3F) = { fieldsOf w with tier := 0#2 } := by
  have hmask : fieldsOf 0xFFFFFF3F = ⟨.allOnes 6, 0#2, .allOnes 3, true, .allOnes 20⟩ := rfl
  simp only [fieldsOf_and, hmask, BitVec.and_allOnes, BitVec.and_zero, Bool.and_true]

section
variable {w : Word}

theorem OpcodeRow.matchesWord_iff {r : OpcodeRow} {i : Instr} (hr : r.pattern = encode i) :
    r.matchesWord w = true ↔ fieldsOf (w &&& r.mask) = fieldsOfInstr i := by
  rw [matchesWord, beq_iff_eq, hr, fieldsOf_eq_iff, eq_comm, encode]

theorem checkedRow_matchesWord {mk : Tier → Bool → Instr} (hmk : mk ∈ checkedCommands) :
    (checkedRow mk).matchesWord w = true ↔ ∃ t c, decode w = .ok (mk t c) := by
  obtain ⟨op, m, hfields⟩ := fieldsOfInstr_checkedCommand hmk
  rw [OpcodeRow.matchesWord_iff rfl, checkedRow, fieldsOf_and_checkedMask]
  simp only [decode_ok_iff_fields, hfields]
  constructor
  · intro h
    obtain ⟨hop, -, hmode, -, hreserved⟩ := CmdFields.mk.inj h
    exact ⟨_, _, (cmdFields_eq hreserved (congrArg _ hop) (tierCode_tierOf _) (congrArg _ hmode) rfl).symm⟩
  · rintro ⟨t, c, h⟩
    rw [h]
    rfl

theorem tierRow_matchesWord {mk : Tier → Instr} (hmk : mk ∈ tierCommands) :
    (tierRow mk).matchesWord w = true ↔ ∃ t, decode w = .ok (mk t) := by
  obtain ⟨op, m, hfields⟩ := fieldsOfInstr_tierCommand hmk
  rw [OpcodeRow.matchesWord_iff rfl, tierRow, fieldsOf_and_tierMask]
  simp only [decode_ok_iff_fields, hfields]
  constructor
  · intro h
    obtain ⟨hop, -, hmode, hc, hreserved⟩ := CmdFields.mk.inj h
    exact ⟨_, (cmdFields_eq hreserved (congrArg _ hop) (tierCode_tierOf _) (congrArg _ hmode) hc).symm⟩
  · rintro ⟨t, h⟩
    rw [h]
    rfl

theorem wideRow_matchesWord {i : Instr} : (wideRow i).matchesWord w = true ↔ decode w = .ok i := by
  have hmask : w &&& 0xFFFFFFFF = w := BitVec.and_allOnes
  rw [OpcodeRow.matchesWord, wideRow, beq_iff_eq, hmask, decode_ok_iff, eq_comm]

end

theorem exists_decode_of_matchesWord {w : Word} {r : OpcodeRow} (hr : r ∈ opcodeTable)
    (hmatch : r.matchesWord w = true) : ∃ i, decode w = .ok i ∧ mnemonicOf i = r.mnemonic := by
  rcases mem_opcodeTable.1 hr with ⟨mk, hmk, rfl⟩ | ⟨mk, hmk, rfl⟩ | ⟨i, -, rfl⟩
  · obtain ⟨t, c, h⟩ := (checkedRow_matchesWord hmk).1 hmatch
    exact ⟨_, h, mnemonicOf_checkedCommand hmk t c⟩
  · obtain ⟨t, h⟩ := (tierRow_matchesWord hmk).1 hmatch
    exact ⟨_, h, mnemonicOf_tierCommand hmk t⟩
  · exact ⟨i, wideRow_matchesWord.1 hmatch, rfl⟩

theorem exists_row_of_decode {w : Word} {i : Instr} (h : decode w = .ok i) :
    ∃ r ∈ opcodeTable, r.matchesWord w = true ∧ r.mnemonic = mnemonicOf i := by
  simp only [mem_opcodeTable]
  rcases i.shape_cases with ⟨mk, hmk, t, c, rfl⟩ | ⟨mk, hmk, t, rfl⟩ | hi
  · exact ⟨_, .inl ⟨mk, hmk, rfl⟩, (checkedRow_matchesWord hmk).2 ⟨t, c, h⟩,
      (mnemonicOf_checkedCommand hmk t c).symm⟩
  · exact ⟨_, .inr (.inl ⟨mk, hmk, rfl⟩), (tierRow_matchesWord hmk).2 ⟨t, h⟩, (mnemonicOf_tierCommand hmk t).symm⟩
  · exact ⟨_, .inr (.inr ⟨i, hi, rfl⟩), wideRow_matchesWord.2 h, rfl⟩

theorem matchesWord_iff_mnemonic {w : Word} {i : Instr} (h : decode w = .ok i) {r : OpcodeRow}
    (hr : r ∈ opcodeTable) : r.matchesWord w = true ↔ r.mnemonic = mnemonicOf i := by
  constructor
  · intro hmatch
    obtain ⟨j, hj, hname⟩ := exists_decode_of_matchesWord hr hmatch
    obtain rfl := Except.ok.inj (h.symm.trans hj)
    exact hname.symm
  · intro hname
    obtain ⟨q, hq, hmatch, hname'⟩ := exists_row_of_decode h
    rwa [opcodeTable_mnemonic_inj hr hq (hname.trans hname'.symm)]

/-- Settles O25: a row's words are the commands of its mnemonic, every command has a row, and no two rows share a
mnemonic. -/
theorem opcodeTableIsUnambiguous : Obligations.OpcodeTableIsUnambiguous := by
  unfold Obligations.OpcodeTableIsUnambiguous
  refine fun w => ⟨fun i h => ⟨?_, fun r hr => matchesWord_iff_mnemonic h hr⟩, fun e h r hr => ?_⟩
  · obtain ⟨r, hr, hmatch, hname⟩ := exists_row_of_decode h
    refine ⟨r, ⟨hr, hmatch⟩, fun q ⟨hq, hmatch'⟩ => ?_⟩
    exact opcodeTable_mnemonic_inj hq hr (((matchesWord_iff_mnemonic h hq).1 hmatch').trans hname.symm)
  · by_contra hmatch
    obtain ⟨i, hi, -⟩ := exists_decode_of_matchesWord hr (Bool.not_eq_false _ ▸ hmatch)
    cases h.symm.trans hi

/-! ### The assembler (30_encoding.md R110) -/

/-- The operation in a name's parts: two parts on ROUND, one elsewhere. -/
def operationPart (parts : List String) : List String := parts.take (if parts.head? = some "round" then 2 else 1)

/-- The commands of each operation, by TIER and C; ISQRT's name stands for TIER = 0. -/
def operationNames : List (List String × (Tier → Bool → Instr)) :=
  [(["add"], .add), (["sub"], .sub), (["mul"], .mul), (["pow"], .pow), (["div"], fun t _ => .div t),
   (["rem"], fun t _ => .rem t), (["sqrt"], fun t _ => .sqrt t), (["round", "floor"], .roundFloor),
   (["round", "ceil"], .roundCeil), (["round", "trunc"], .roundTrunc), (["round", "halfup"], .roundHalfUp),
   (["round", "halfdown"], .roundHalfDown), (["round", "halfeven"], .roundHalfEven), (["round", "fract"], .roundFract),
   (["cmp"], fun t _ => .cmp t), (["canon"], fun t _ => .canon t), (["mulw"], fun t _ => .mulw t),
   (["mulq"], fun _ _ => .mulq), (["divw"], fun t _ => .divw t), (["divq"], fun _ _ => .divq),
   (["isqrt"], fun _ _ => .isqrt .tiny)]

/-- The tier the last part names. -/
def suffixTier (parts : List String) : Option Tier := allTiers.find? fun t => parts.getLast? = some (tierSuffix t)

/-- A name read by its parts: a left inverse of `asmParts` (`readName_asmParts`), so that commands with one name are one
command. -/
def readName (parts : List String) : Option Instr :=
  (operationNames.lookup (operationPart parts)).map fun mk => mk ((suffixTier parts).getD .tiny) (parts.contains "c")

/-- The command that the name of `i` stands for. -/
def Instr.named : Instr → Instr
  | .isqrt _ => .isqrt .tiny
  | j => j

theorem readName_asmParts (i : Instr) : readName (asmParts i) = some i.named := by
  cases i with
  | mulq | divq | isqrt t => rfl
  | div t | rem t | sqrt t | cmp t | canon t | mulw t | divw t => cases t <;> rfl
  | _ t c => cases t <;> cases c <;> rfl

theorem named_eq_of_asmParts_eq {i j : Instr} (h : asmParts i = asmParts j) : i.named = j.named :=
  Option.some.inj (by rw [← readName_asmParts, h, readName_asmParts])

theorem mem_allTiers (t : Tier) : t ∈ allTiers := by cases t <;> decide

theorem allInstrs_eq : allInstrs =
    (allTiers.flatMap fun t => [false, true].flatMap fun c => checkedCommands.map fun mk => mk t c) ++
      (allTiers.flatMap fun t => tierCommands.map fun mk => mk t) ++ wideCommands := rfl

theorem mem_allInstrs (i : Instr) : i ∈ allInstrs := by
  rw [allInstrs_eq, List.mem_append, List.mem_append]
  rcases i.shape_cases with ⟨mk, hmk, t, c, rfl⟩ | ⟨mk, hmk, t, rfl⟩ | hi
  · have hc : c ∈ [false, true] := by cases c <;> decide
    have hmem : mk t c ∈ [false, true].flatMap fun c => checkedCommands.map fun mk => mk t c :=
      List.mem_flatMap.2 ⟨c, hc, List.mem_map.2 ⟨mk, hmk, rfl⟩⟩
    exact .inl (.inl (List.mem_flatMap.2 ⟨t, mem_allTiers t, hmem⟩))
  · exact .inl (.inr (List.mem_flatMap.2 ⟨t, mem_allTiers t, List.mem_map.2 ⟨mk, hmk, rfl⟩⟩))
  · exact .inr hi

theorem assemble_isqrt : assemble ["isqrt"] = some (.isqrt .tiny) := rfl

theorem assemble_asmParts (i : Instr) : assemble (asmParts i) = some i.named := by
  obtain ⟨j, hj⟩ : ∃ j, assemble (asmParts i) = some j :=
    Option.isSome_iff_exists.1 (List.find?_isSome.2 ⟨i, mem_allInstrs i, beq_self_eq_true _⟩)
  have hparts : asmParts j = asmParts i := by simpa using List.find?_some hj
  rw [← named_eq_of_asmParts_eq hparts]
  cases j with
  | isqrt t => exact hparts ▸ assemble_isqrt
  | _ => exact hj

/-- Settles O26: the search ends at a command of the same name, which is the same command but for ISQRT, whose TIER = 0
stands first. -/
theorem assemblerReadsBackNames : Obligations.AssemblerReadsBackNames := by
  unfold Obligations.AssemblerReadsBackNames
  intro i
  rw [assemble_asmParts]
  cases i <;> rfl

end Sys2Proof

namespace Sys2Proof.Machine
open HostProgram

/-! ### Runs of host writes (30_encoding.md R112) -/

/-- The host's write of the word `p.2` at the offset `p.1`. -/
def State.hostWrite (s : State) (p : Nat × Word) : State := writeWord s.advanceHost p.1 p.2

/-- A write to an operand register issues nothing, and the host goes on to its next move. -/
theorem State.hostWrite_operand {s : State} {p : Nat × Word} (hop : (slotOf p.1).isOperand = true) :
    (s.hostWrite p).pending = s.pending ∧ (s.hostWrite p).prog = s.prog ∧ (s.hostWrite p).hostPc = s.hostPc + 1 := by
  rcases writeWord_cases s.advanceHost p.1 p.2 with ⟨hslot, -, -⟩ | ⟨hslot, -⟩ | ⟨_, _, _, _, _, h⟩
  · rw [hslot] at hop
    cases hop
  · rw [hslot] at hop
    cases hop
  · rw [hostWrite, h]
    exact ⟨rfl, rfl, rfl⟩

/-- While nothing is pending, the host's writes to operand registers are made one after another. -/
theorem run_hostWrites {after : List HostOp} (ws : List (Nat × Word)) {s : State} (hidle : s.pending = false)
    (hprog : s.prog.drop s.hostPc = ws.map (fun p => wr p.1 p.2) ++ after)
    (hws : ∀ p ∈ ws, windowOffsetOk p.1 = true ∧ (slotOf p.1).isOperand = true) :
    Sys2Proof.core.run ws.length s = .next (ws.foldl State.hostWrite s) := by
  induction ws generalizing s with
  | nil => rfl
  | cons p ws ih =>
    obtain ⟨⟨hok, hop⟩, hws⟩ := List.forall_mem_cons.1 hws
    obtain ⟨hlt, h4⟩ := windowOffsetOk_iff.1 hok
    obtain ⟨hpending', hprog', hpc'⟩ := s.hostWrite_operand hop
    have hmove : s.prog[s.hostPc]? = some (wr p.1 p.2) := by
      rw [← List.head?_drop, hprog]
      rfl
    have hstep : step s = .next (s.hostWrite p) :=
      (step_host (State.not_unitMoves_of_idle hidle) hmove).trans (hostMove_wr (windowOffset_base hlt h4))
    refine (run_succ_next hstep).trans (ih (hpending'.trans hidle) ?_ hws)
    rw [hprog', hpc', ← List.drop_drop, hprog]
    rfl

/-- The writes of `wrval`: where the register stands and what it takes. -/
def valueWrites (reg : Nat) (x : DecReg) : List (Nat × Word) :=
  (valueOffsets.zip (valueWords x)).map fun p => (reg + p.1, p.2)

theorem wrval_eq (reg : Nat) (v : Dec) : wrval reg v = (valueWrites reg v.toReg).map fun p => wr p.1 p.2 := by
  rw [valueWrites, List.map_map]
  rfl

theorem run_wrval {reg : Nat} {v : Dec} {s : State} {before after : List HostOp} (hidle : s.pending = false)
    (hpc : s.hostPc = before.length) (hprog : s.prog = before ++ wrval reg v ++ after)
    (hreg : ∀ o ∈ valueOffsets, windowOffsetOk (reg + o) = true ∧ (slotOf (reg + o)).isOperand = true) :
    Sys2Proof.core.run 9 s = .next ((valueWrites reg v.toReg).foldl State.hostWrite s) := by
  refine run_hostWrites (after := after) (valueWrites reg v.toReg) hidle ?_ ?_
  · rw [hprog, hpc, List.append_assoc, List.drop_left, wrval_eq]
  · simp only [valueWrites, List.forall_mem_map]
    exact fun p hp => hreg p.1 (List.of_mem_zip hp).1

/-! ### A register loaded word by word (20_memory.md R73, 10_state.md R31) -/

theorem eq_of_wordAt_eq {n m : Nat} {x y : BitVec n} (hn : n = 32 * m) (h : ∀ k < m, wordAt x k = wordAt y k) :
    x = y := by
  subst hn
  apply BitVec.eq_of_toNat_eq
  rw [← Nat.mod_eq_of_lt x.isLt, ← Nat.mod_eq_of_lt y.isLt, ← sum_wordAt, ← sum_wordAt]
  exact Finset.sum_congr rfl fun k hk => by rw [h k (Finset.mem_range.1 hk)]

/-- The register `y` with its four words replaced by those of `x`. -/
def loadWords (y x : Word128) : Word128 :=
  setWordAt (setWordAt (setWordAt (setWordAt y 0 (wordAt x 0)) 1 (wordAt x 1)) 2 (wordAt x 2)) 3 (wordAt x 3)

theorem loadWords_eq (y x : Word128) : loadWords y x = x := by
  refine eq_of_wordAt_eq (m := 4) rfl fun k hk => ?_
  interval_cases k <;> simp [loadWords, wordAt_setWordAt_same, wordAt_setWordAt_other]

/-- META takes back the scale and the sign it shows. -/
theorem DecReg.setMeta_meta (r x : DecReg) : r.setMeta x.meta = { r with scale := x.scale, sign := x.sign } := by
  have hscale : x.meta.extractLsb' 0 8 = x.scale := by
    apply BitVec.eq_of_toNat_eq
    simp only [BitVec.extractLsb'_toNat, x.meta_toNat, Nat.shiftRight_zero]
    omega
  have hsign : x.meta.getLsbD 8 = x.sign := by
    simp [DecReg.meta]
  rw [setMeta, hscale, hsign]

/-- The register `r` after the nine writes of `x`. -/
def DecReg.load (r x : DecReg) : DecReg :=
  DecReg.setMeta { r with int := loadWords r.int x.int, frac := loadWords r.frac x.frac } x.meta

theorem DecReg.load_eq (r x : DecReg) : r.load x = x := by
  rw [load, setMeta_meta, loadWords_eq, loadWords_eq]

theorem hostWrites_opa (s : State) (x : DecReg) : (valueWrites opaOff x).foldl State.hostWrite s =
    { s with opa := s.opa.load x, hostPc := s.hostPc + 9, latency := s.latency - 9 } := by
  simp [valueWrites, valueOffsets, valueWords, opaOff, State.hostWrite, writeWord, slotOf, slotOfWord,
    State.advanceHost, DecReg.load, loadWords, DecReg.setMeta, Nat.sub_sub]

theorem hostWrites_opb (s : State) (x : DecReg) : (valueWrites opbOff x).foldl State.hostWrite s =
    { s with opb := s.opb.load x, hostPc := s.hostPc + 9, latency := s.latency - 9 } := by
  simp [valueWrites, valueOffsets, valueWords, opbOff, State.hostWrite, writeWord, slotOf, slotOfWord,
    State.advanceHost, DecReg.load, loadWords, DecReg.setMeta, Nat.sub_sub]

/-- Settles O9: the nine moves write every word of one operand register, so nothing of what it held is left. -/
theorem wrvalWritesTheValue : Obligations.WrvalWritesTheValue := by
  unfold Obligations.WrvalWritesTheValue
  intro t v s before after hv hidle hpc
  refine ⟨fun hprog => ⟨v.toReg, Dec.toReg_toDec hv, ?_⟩, fun hprog => ⟨v.toReg, Dec.toReg_toDec hv, ?_⟩⟩
  · rw [run_wrval hidle hpc hprog (by decide)]
    exact congrArg _ ((hostWrites_opa s v.toReg).trans (by rw [DecReg.load_eq]))
  · rw [run_wrval hidle hpc hprog (by decide)]
    exact congrArg _ ((hostWrites_opb s v.toReg).trans (by rw [DecReg.load_eq]))

end Sys2Proof.Machine

/-! The kernel commands (40_kernel.md R160 to R164): what each leaves in KQ and KR. -/

namespace Sys2Proof.Machine

section
variable {s : State}

/-! ### The operands, and the results read back as numbers -/

@[simp] theorem kernelA_full (s : State) : kernelA s 512 = s.latch.ka.toNat := by
  rw [kernelA, Nat.mod_eq_of_lt s.latch.ka.isLt]

@[simp] theorem kernelB_full (s : State) : kernelB s 256 = s.latch.kb.toNat := by
  rw [kernelB, Nat.mod_eq_of_lt s.latch.kb.isLt]

theorem kernelA_lt (s : State) (n : Nat) : kernelA s n < 2 ^ n := Nat.mod_lt _ (Nat.two_pow_pos n)

theorem kernelB_lt (s : State) (n : Nat) : kernelB s n < 2 ^ n := Nat.mod_lt _ (Nat.two_pow_pos n)

theorem toNat_ofNat_of_lt {n x : Nat} (hx : x < 2 ^ n) : (BitVec.ofNat n x).toNat = x :=
  (BitVec.toNat_ofNat ..).trans (Nat.mod_eq_of_lt hx)

theorem State.completeKq_kq_toNat {q : Nat} (hq : q < 2 ^ 512) : (s.completeKq q).kq.toNat = q := by
  rw [completeKq_kq, toNat_ofNat_of_lt hq]

theorem State.completeKqKr_kq_toNat {q : Nat} (r : Nat) (hq : q < 2 ^ 512) : (s.completeKqKr q r).kq.toNat = q := by
  rw [completeKqKr_kq, toNat_ofNat_of_lt hq]

theorem State.completeKqKr_kr_toNat {r : Nat} (q : Nat) (hr : r < 2 ^ 256) : (s.completeKqKr q r).kr.toNat = r := by
  rw [completeKqKr_kr, toNat_ofNat_of_lt hr]

theorem State.completeKq_kernelDone (q : Nat) : KernelDone s (s.completeKq q) := rfl

theorem State.completeKqKr_kernelDone (q r : Nat) : KernelDone s (s.completeKqKr q r) := rfl

/-! ### MULW and MULQ (40_kernel.md R160, R161) -/

/-- A product of two operands of at most 256 bits fits KQ. -/
theorem kernel_product_lt {n : Nat} (hn : n ≤ 256) : kernelA s n * kernelB s n < 2 ^ 512 := by
  have hprod : kernelA s n * kernelB s n < 2 ^ n * 2 ^ n := Nat.mul_lt_mul'' (kernelA_lt s n) (kernelB_lt s n)
  rw [← Nat.pow_add] at hprod
  exact hprod.trans_le (pow_le_pow_right₀ one_le_two (by omega))

end

/-- Settles O46: each command completes with its product, and no product is wider than KQ. -/
theorem multiplyKernelsAreExact : Obligations.MultiplyKernelsAreExact := by
  unfold Obligations.MultiplyKernelsAreExact
  intro t s
  have hwidth : Config.width t ≤ 256 := (Config.width_le t).trans (by norm_num)
  refine ⟨⟨_, rfl, State.completeKq_kernelDone _, rfl, State.completeKq_kq_toNat (kernel_product_lt hwidth)⟩,
    _, rfl, State.completeKq_kernelDone _, rfl, ?_⟩
  rw [State.completeKq_kq_toNat (kernel_product_lt le_rfl), kernelB_full, kernelA]

/-! ### DIVW and DIVQ (40_kernel.md R162, R163) -/

section
variable {s : State} {W n d : Nat}

theorem divideKernel_zero (W n : Nat) : divideKernel W n 0 s = .next (s.raiseFault .divByZero) := if_pos rfl

theorem divideKernel_overflow (hd : d ≠ 0) (hn : d * 2 ^ W ≤ n) :
    divideKernel W n d s = .next (s.raiseFault .quotientOverflow) := by
  have hq : d ≤ n / 2 ^ W := (Nat.le_div_iff_mul_le (Nat.two_pow_pos W)).2 hn
  rw [divideKernel, if_neg hd, if_pos hq]

/-- The quotient and the remainder fit KQ and KR, so they stand there without loss. -/
theorem divideKernel_fits (hW : W ≤ 512) (hd256 : d < 2 ^ 256) (hd : d ≠ 0) (hn : n < d * 2 ^ W) :
    ∃ u, divideKernel W n d s = .next u ∧ KernelDone s u ∧ u.kq.toNat * d + u.kr.toNat = n ∧ u.kr.toNat < d := by
  have hquot : ¬d ≤ n / 2 ^ W := not_le.2 ((Nat.div_lt_iff_lt_mul (Nat.two_pow_pos W)).2 hn)
  have hq : n / d < 2 ^ 512 :=
    (Nat.div_lt_of_lt_mul hn).trans_le (pow_le_pow_right₀ one_le_two hW)
  have hr : n % d < d := Nat.mod_lt n (Nat.pos_of_ne_zero hd)
  refine ⟨s.completeKqKr (n / d) (n % d), ?_, State.completeKqKr_kernelDone _ _, ?_, ?_⟩
  · rw [divideKernel, if_neg hd, if_neg hquot]
  · rw [State.completeKqKr_kq_toNat _ hq, State.completeKqKr_kr_toNat _ (hr.trans hd256), Nat.div_add_mod']
  · rwa [State.completeKqKr_kr_toNat _ (hr.trans hd256)]

theorem exec_divq (s : State) : exec .divq s = divideKernel 256 s.latch.ka.toNat s.latch.kb.toNat s := by
  rw [← kernelA_full, ← kernelB_full]
  rfl

end

/-- Settles O47: DIVW is the kernel's division of the low bits of KA and KB. -/
theorem divwWritesQuotientAndRemainder : Obligations.DivwWritesQuotientAndRemainder := by
  unfold Obligations.DivwWritesQuotientAndRemainder
  intro t s n d
  have hexec : exec (.divw t) s = divideKernel (Config.width t) n d s := rfl
  have hwidth := Config.width_le t
  have hd256 : d < 2 ^ 256 :=
    (kernelB_lt s (Config.width t)).trans_le (pow_le_pow_right₀ one_le_two (by omega))
  rw [hexec]
  exact ⟨divideKernel_fits (by omega) hd256, divideKernel_overflow, fun hd => hd ▸ divideKernel_zero _ n⟩

/-- Settles O48: DIVQ is the kernel's division of the whole of KA and KB. -/
theorem divqWritesQuotientAndRemainder : Obligations.DivqWritesQuotientAndRemainder := by
  unfold Obligations.DivqWritesQuotientAndRemainder
  intro s n d
  have hexec : exec .divq s = divideKernel 256 n d s := exec_divq s
  rw [hexec]
  exact ⟨divideKernel_fits (by norm_num) s.latch.kb.isLt, divideKernel_overflow, fun hd => hd ▸ divideKernel_zero _ n⟩

/-! ### ISQRT (40_kernel.md R164) -/

/-- Settles O49: the root is at most the 512-bit operand, so it stands in KQ without loss. -/
theorem isqrtIsTheFloorOfTheRoot : Obligations.IsqrtIsTheFloorOfTheRoot := by
  unfold Obligations.IsqrtIsTheFloorOfTheRoot
  intro t s
  have hroot := isqrt_spec (kernelA s 512)
  have hlt : isqrt (kernelA s 512) < 2 ^ 512 :=
    (Nat.le_mul_self _).trans_lt (hroot.1.trans_lt (kernelA_lt s 512))
  refine ⟨_, rfl, State.completeKq_kernelDone _, rfl, ?_⟩
  rw [State.completeKq_kq_toNat hlt, ← kernelA_full]
  exact hroot

end Sys2Proof.Machine

/-! The datapath units (40_kernel.md R140 to R149) against the exact results: limbs, the adder, the subtractor and the
comparison, then the multipliers, long division and the Newton iteration built from them. -/

namespace Sys2Proof.Machine.Datapath

/-! ### Limbs (40_kernel.md R140) -/

theorem limb_lt (w i u : Nat) : limb w i u < 2 ^ w := Nat.mod_lt _ (Nat.two_pow_pos w)

theorem two_pow_limbs_succ (w k : Nat) : 2 ^ (w * (k + 1)) = 2 ^ w * 2 ^ (w * k) := by
  rw [Nat.mul_succ, Nat.add_comm, Nat.pow_add]

/-- What stands above limb `i` is shifted up by one limb when the limb is put under it. -/
theorem div_limb (w i u : Nat) : u / 2 ^ (w * (i + 1)) * 2 ^ w + limb w i u = u / 2 ^ (w * i) := by
  rw [two_pow_limbs_succ, Nat.mul_comm (2 ^ w), ← Nat.div_div_eq_div_mul, limb, Nat.div_add_mod']

theorem two_limbs_lt {w x y : Nat} (hx : x < 2 ^ w) (hy : y < 2 ^ w) : x * 2 ^ w + y < 2 ^ (2 * w) := by
  rw [Nat.add_comm, Nat.mul_comm, Nat.two_mul, Nat.pow_add]
  exact Nat.add_mul_lt_mul_of_lt_of_lt hy hx

theorem two_limbs_eq {w u : Nat} (hu : u < 2 ^ (2 * w)) : limb w 1 u * 2 ^ w + limb w 0 u = u := by
  have h1 := div_limb w 1 u
  have h0 := div_limb w 0 u
  rw [Nat.mul_comm w 2, Nat.div_eq_of_lt hu, Nat.zero_mul, Nat.zero_add] at h1
  rwa [← h1, Nat.mul_zero, Nat.pow_zero, Nat.div_one] at h0

/-! ### The adder (40_kernel.md R141) -/

theorem addLimbs_spec (w k a b c : Nat) :
    (addLimbs w k a b c).1 + 2 ^ (w * k) * (addLimbs w k a b c).2 = a % 2 ^ (w * k) + b % 2 ^ (w * k) + c ∧
      (addLimbs w k a b c).1 < 2 ^ (w * k) := by
  induction k generalizing a b c with
  | zero => simp [addLimbs, Nat.mod_one]
  | succ k ih =>
    simp only [addLimbs, two_pow_limbs_succ, Nat.mod_mul]
    set t := a % 2 ^ w + b % 2 ^ w + c
    obtain ⟨hsum, hlt⟩ := ih (a / 2 ^ w) (b / 2 ^ w) (t / 2 ^ w)
    set rest := addLimbs w k (a / 2 ^ w) (b / 2 ^ w) (t / 2 ^ w)
    refine ⟨?_, Nat.add_mul_lt_mul_of_lt_of_lt (Nat.mod_lt _ (Nat.two_pow_pos w)) hlt⟩
    calc
      t % 2 ^ w + 2 ^ w * rest.1 + 2 ^ w * 2 ^ (w * k) * rest.2 =
          t % 2 ^ w + 2 ^ w * (rest.1 + 2 ^ (w * k) * rest.2) := by ring
      _ = t % 2 ^ w + 2 ^ w * (t / 2 ^ w) + 2 ^ w * (a / 2 ^ w % 2 ^ (w * k) + b / 2 ^ w % 2 ^ (w * k)) := by
        rw [hsum]; ring
      _ = _ := by rw [Nat.mod_add_div]; ring

/-- Settles O50: the adder's equation on operands that fit. -/
theorem limbAdderIsExact : Obligations.LimbAdderIsExact := by
  unfold Obligations.LimbAdderIsExact
  intro w k a b c ha hb _
  have h := addLimbs_spec w k a b c
  rwa [Nat.mod_eq_of_lt ha, Nat.mod_eq_of_lt hb] at h

/-- Two numbers whose sum fits. -/
theorem addLimbs_of_lt {w k a b : Nat} (h : a + b < 2 ^ (w * k)) : (addLimbs w k a b 0).1 = a + b := by
  obtain ⟨hsum, -⟩ := addLimbs_spec w k a b 0
  rw [Nat.mod_eq_of_lt (by omega), Nat.mod_eq_of_lt (by omega), Nat.add_zero] at hsum
  have hcarry : (addLimbs w k a b 0).2 = 0 := by
    by_contra hne
    have := Nat.le_mul_of_pos_right (2 ^ (w * k)) (Nat.pos_of_ne_zero hne)
    omega
  rwa [hcarry, Nat.mul_zero, Nat.add_zero] at hsum

/-! ### The subtractor and the comparison (40_kernel.md R142) -/

/-- One limb of the subtractor, with a borrow in. -/
theorem sub_limb_spec {x y c B : Nat} (hx : x < B) (hy : y < B) (hc : c ≤ 1) :
    (x + B - y - c) % B + y + c = x + B * (if x + B - y - c < B then 1 else 0) := by
  split
  · rw [Nat.mod_eq_of_lt ‹_›]
    omega
  · rw [Nat.mod_eq_sub_mod (by omega), Nat.mod_eq_of_lt (by omega)]
    omega

theorem subLimbs_spec (w k a b : Nat) {c : Nat} (hc : c ≤ 1) :
    (subLimbs w k a b c).1 + b % 2 ^ (w * k) + c = a % 2 ^ (w * k) + 2 ^ (w * k) * (subLimbs w k a b c).2 ∧
      (subLimbs w k a b c).1 < 2 ^ (w * k) ∧ (subLimbs w k a b c).2 ≤ 1 := by
  induction k generalizing a b c with
  | zero => simpa [subLimbs, Nat.mod_one] using hc
  | succ k ih =>
    simp only [subLimbs, two_pow_limbs_succ, Nat.mod_mul]
    have hlimb := sub_limb_spec (Nat.mod_lt a (Nat.two_pow_pos w)) (Nat.mod_lt b (Nat.two_pow_pos w)) hc
    set t := a % 2 ^ w + 2 ^ w - b % 2 ^ w - c
    set borrow := if t < 2 ^ w then 1 else 0 with hborrow
    obtain ⟨hdiff, hlt, hle⟩ := ih (a / 2 ^ w) (b / 2 ^ w) (c := borrow) (by rw [hborrow]; split <;> omega)
    set rest := subLimbs w k (a / 2 ^ w) (b / 2 ^ w) borrow
    refine ⟨?_, Nat.add_mul_lt_mul_of_lt_of_lt (Nat.mod_lt _ (Nat.two_pow_pos w)) hlt, hle⟩
    calc
      t % 2 ^ w + 2 ^ w * rest.1 + (b % 2 ^ w + 2 ^ w * (b / 2 ^ w % 2 ^ (w * k))) + c =
          (t % 2 ^ w + b % 2 ^ w + c) + 2 ^ w * (rest.1 + b / 2 ^ w % 2 ^ (w * k)) := by ring
      _ = a % 2 ^ w + 2 ^ w * (rest.1 + b / 2 ^ w % 2 ^ (w * k) + borrow) := by rw [hlimb]; ring
      _ = _ := by rw [hdiff]; ring

/-- The subtractor on operands that fit, by which of the two is the smaller. -/
theorem subLimbs_cases {w k a b : Nat} (ha : a < 2 ^ (w * k)) (hb : b < 2 ^ (w * k)) :
    (b ≤ a ∧ subLimbs w k a b 0 = (a - b, 0)) ∨ (a < b ∧ subLimbs w k a b 0 = (a + 2 ^ (w * k) - b, 1)) := by
  obtain ⟨hdiff, hlt, hle⟩ := subLimbs_spec w k a b (Nat.zero_le 1)
  rw [Nat.mod_eq_of_lt ha, Nat.mod_eq_of_lt hb] at hdiff
  obtain hborrow | hborrow := Nat.le_one_iff_eq_zero_or_eq_one.1 hle <;> rw [hborrow] at hdiff
  · exact .inl ⟨by omega, Prod.ext (by simp only; omega) hborrow⟩
  · exact .inr ⟨by omega, Prod.ext (by simp only; omega) hborrow⟩

theorem subLimbs_of_le {w k a b : Nat} (ha : a < 2 ^ (w * k)) (h : b ≤ a) : (subLimbs w k a b 0).1 = a - b := by
  obtain ⟨-, heq⟩ | ⟨hlt, -⟩ := subLimbs_cases ha (h.trans_lt ha)
  · rw [heq]
  · omega

theorem cmpLimbs_eq (w k a b : Nat) : cmpLimbs w k a b = compare (a % 2 ^ (w * k)) (b % 2 ^ (w * k)) := by
  induction k with
  | zero => simp [cmpLimbs, Nat.mod_one]
  | succ k ih =>
    have hsplit : ∀ u, u % 2 ^ (w * (k + 1)) = limb w k u * 2 ^ (w * k) + u % 2 ^ (w * k) := fun u => by
      rw [two_pow_limbs_succ, Nat.mul_comm (2 ^ w), Nat.mod_mul, limb]
      ring
    rw [cmpLimbs, ih, hsplit, hsplit,
      compare_lex (Nat.mod_lt _ (Nat.two_pow_pos _)) (Nat.mod_lt _ (Nat.two_pow_pos _))]

/-- Settles O51: the subtractor has no borrow or one, and the comparison is lexicographic from the highest limb. -/
theorem limbSubtractorAndComparisonAreExact : Obligations.LimbSubtractorAndComparisonAreExact := by
  unfold Obligations.LimbSubtractorAndComparisonAreExact
  intro w k a b _ ha hb
  have hcmp : cmpLimbs w k a b = compare a b := by
    rw [cmpLimbs_eq, Nat.mod_eq_of_lt ha, Nat.mod_eq_of_lt hb]
  obtain ⟨hle, heq⟩ | ⟨hlt, heq⟩ := subLimbs_cases ha hb <;> rw [heq]
  · refine ⟨?_, (if_neg (not_lt.2 hle)).symm, hcmp⟩
    rw [Nat.add_comm, Nat.add_sub_assoc hle, Nat.add_mod_left, Nat.mod_eq_of_lt (by omega)]
  · exact ⟨(Nat.mod_eq_of_lt (by omega)).symm, (if_pos hlt).symm, hcmp⟩

/-! ### The multipliers (40_kernel.md R143, R144) -/

/-- Four partial products summed in four limbs: no sum is larger than the whole product, which fits. -/
theorem sum_partialProducts {w a1 a0 b1 b0 : Nat} (ha1 : a1 < 2 ^ w) (ha0 : a0 < 2 ^ w) (hb1 : b1 < 2 ^ w)
    (hb0 : b0 < 2 ^ w) :
    (addLimbs w 4 (addLimbs w 4 (addLimbs w 4 (a0 * b0) (a0 * b1 * 2 ^ w) 0).1 (a1 * b0 * 2 ^ w) 0).1
      (a1 * b1 * 2 ^ (2 * w)) 0).1 = (a1 * 2 ^ w + a0) * (b1 * 2 ^ w + b0) := by
  have hfits : (a1 * 2 ^ w + a0) * (b1 * 2 ^ w + b0) < 2 ^ (w * 4) :=
    (Nat.mul_lt_mul'' (two_limbs_lt ha1 ha0) (two_limbs_lt hb1 hb0)).trans_eq (by ring)
  have hprod : (a1 * 2 ^ w + a0) * (b1 * 2 ^ w + b0) =
      a0 * b0 + a0 * b1 * 2 ^ w + a1 * b0 * 2 ^ w + a1 * b1 * 2 ^ (2 * w) := by ring
  rw [hprod] at hfits ⊢
  have hfits2 := (Nat.le_add_right ..).trans_lt hfits
  have hfits1 := (Nat.le_add_right ..).trans_lt hfits2
  rw [addLimbs_of_lt hfits1, addLimbs_of_lt hfits2, addLimbs_of_lt hfits]

theorem mulW_eq {h a b : Nat} (ha : a < 2 ^ (2 * h)) (hb : b < 2 ^ (2 * h)) : mulW (2 * h) a b = a * b := by
  have hhalf : 2 * h / 2 = h := Nat.mul_div_cancel_left h Nat.two_pos
  simp only [mulW, hhalf]
  rw [sum_partialProducts (limb_lt ..) (limb_lt ..) (limb_lt ..) (limb_lt ..), two_limbs_eq ha, two_limbs_eq hb]

theorem mulW_limbs (i j a b : Nat) : mulW 128 (limb 128 i a) (limb 128 j b) = limb 128 i a * limb 128 j b :=
  mulW_eq (h := 64) (limb_lt 128 i a) (limb_lt 128 j b)

theorem mulQ_eq {a b : Nat} (ha : a < 2 ^ 256) (hb : b < 2 ^ 256) : mulQ a b = a * b := by
  have hsum := sum_partialProducts (limb_lt 128 1 a) (limb_lt 128 0 a) (limb_lt 128 1 b) (limb_lt 128 0 b)
  rw [two_limbs_eq (w := 128) ha, two_limbs_eq (w := 128) hb] at hsum
  simp only [mulQ, mulW_limbs]
  exact hsum

/-- Settles O52: both multipliers are sums of four partial products, the quad-width one of exact double-width ones. -/
theorem multiplierDatapathsAreExact : Obligations.MultiplierDatapathsAreExact := by
  unfold Obligations.MultiplierDatapathsAreExact
  exact ⟨fun h a b ha hb => mulW_eq ha hb, fun a b ha hb => mulQ_eq ha hb⟩

section
variable {w : Nat} {est : Nat → Nat → Nat}

/-! ### One digit of a quotient (40_kernel.md R145) -/

/-- The estimate of a digit: the unit `est` divides by one limb, as far as a digit can show (40_kernel.md R145 (1)). -/
def EstimatesDigit (est : Nat → Nat → Nat) (w : Nat) : Prop :=
  ∀ n d : Nat, d ≠ 0 → d < 2 ^ w → min (est n d) (2 ^ w - 1) = min (n / d) (2 ^ w - 1)

theorem correctDigit_eq {u v q : Nat} (hv : 0 < v) (hq : u / v ≤ q) : correctDigit u v q = max (u / v) (q - 1) := by
  rw [correctDigit]
  split
  · have hlt := (Nat.div_lt_iff_lt_mul hv).2 ‹_›
    rw [max_eq_right (Nat.le_sub_one_of_lt hlt)]
  · have hge := (Nat.le_div_iff_mul_le hv).2 (not_lt.1 ‹_›)
    rw [max_eq_left (by omega), le_antisymm hge hq]

/-- Two corrections reach the digit from an estimate at most 2 too large. -/
theorem correctDigit_twice {u v q : Nat} (hv : 0 < v) (hle : u / v ≤ q) (hge : q ≤ u / v + 2) :
    correctDigit u v (correctDigit u v q) = u / v := by
  rw [correctDigit_eq hv hle, correctDigit_eq hv (le_max_left ..)]
  generalize u / v = d at hle hge ⊢
  omega

/-- The limbs of a divisor whose top bit is set (40_kernel.md R145). -/
structure NormalizedDivisor (w v1 v0 v : Nat) : Prop where
  value : v1 * 2 ^ w + v0 = v
  high_lt : v1 < 2 ^ w
  low_lt : v0 < 2 ^ w
  top_bit : 2 ^ w ≤ 2 * v1

section
variable {U u3 u2 u1 u0 v v1 v0 : Nat}

theorem NormalizedDivisor.high_pos (hv : NormalizedDivisor w v1 v0 v) : 0 < v1 := by
  have := hv.top_bit
  have := Nat.two_pow_pos w
  omega

theorem NormalizedDivisor.pos (hv : NormalizedDivisor w v1 v0 v) : 0 < v :=
  hv.value ▸ Nat.add_pos_left (Nat.mul_pos hv.high_pos (Nat.two_pow_pos w)) v0

theorem NormalizedDivisor.lt (hv : NormalizedDivisor w v1 v0 v) : v < 2 ^ (2 * w) :=
  hv.value ▸ two_limbs_lt hv.high_lt hv.low_lt

/-- A dividend whose leading limbs are below the divisor has a quotient of one limb. -/
theorem dividend_lt (hu0 : u0 < 2 ^ w) (hU : U < v) : U * 2 ^ w + u0 < v * 2 ^ w := calc
  U * 2 ^ w + u0 < (U + 1) * 2 ^ w := by rw [Nat.succ_mul]; omega
  _ ≤ v * 2 ^ w := Nat.mul_le_mul_right _ hU

/-- The digit is at most the quotient of the leading limbs, and it is one limb. -/
theorem digit_le_estimate (hv : NormalizedDivisor w v1 v0 v) (hu0 : u0 < 2 ^ w) (hU : U < v) :
    (U * 2 ^ w + u0) / v ≤ min (U / v1) (2 ^ w - 1) := by
  have hdigit : (U * 2 ^ w + u0) / v < 2 ^ w := Nat.div_lt_of_lt_mul (dividend_lt hu0 hU)
  refine le_min ((Nat.le_div_iff_mul_le hv.high_pos).2 (Nat.le_of_lt_succ ?_)) (Nat.le_sub_one_of_lt hdigit)
  set q := (U * 2 ^ w + u0) / v
  refine Nat.lt_of_mul_lt_mul_right (a := 2 ^ w) ?_
  calc
    q * v1 * 2 ^ w ≤ q * v1 * 2 ^ w + q * v0 := Nat.le_add_right ..
    _ = q * v := by rw [← hv.value]; ring
    _ ≤ U * 2 ^ w + u0 := Nat.div_mul_le_self ..
    _ < (U + 1) * 2 ^ w := by rw [Nat.succ_mul]; omega

/-- Knuth's Theorem B: with a normalised divisor the estimate is at most 2 too large. Were it `p + 2` with `p` above the
digit, `2 * v1` times the radix would be below `p * v0`, which is below the square of the radix. -/
theorem estimate_le_digit_add_two (u0 : Nat) (hv : NormalizedDivisor w v1 v0 v) :
    min (U / v1) (2 ^ w - 1) ≤ (U * 2 ^ w + u0) / v + 2 := by
  set q := (U * 2 ^ w + u0) / v
  by_contra hlt
  obtain ⟨k, hk⟩ := Nat.exists_eq_add_of_lt (not_le.1 hlt)
  obtain ⟨p, hqp, hp⟩ : ∃ p, q < p ∧ min (U / v1) (2 ^ w - 1) = p + 2 := ⟨q + k + 1, by omega, by omega⟩
  have hestimate : (p + 2) * v1 ≤ U := (Nat.le_div_iff_mul_le hv.high_pos).1 (by omega)
  have hquotient : U * 2 ^ w + u0 < p * v := (Nat.div_lt_iff_lt_mul hv.pos).1 hqp
  have hlow : p * v0 < 2 ^ w * 2 ^ w := Nat.mul_lt_mul'' (by omega) hv.low_lt
  have hcontra : 2 * v1 * 2 ^ w < p * v0 := by
    refine Nat.lt_of_add_lt_add_left (n := p * v1 * 2 ^ w) ?_
    calc
      p * v1 * 2 ^ w + 2 * v1 * 2 ^ w = (p + 2) * v1 * 2 ^ w := by ring
      _ ≤ U * 2 ^ w := Nat.mul_le_mul_right _ hestimate
      _ ≤ U * 2 ^ w + u0 := Nat.le_add_right ..
      _ < p * v := hquotient
      _ = p * v1 * 2 ^ w + p * v0 := by rw [← hv.value]; ring
  exact absurd (Nat.mul_le_mul_right (2 ^ w) hv.top_bit) (not_le.2 (hcontra.trans hlow))

theorem div32_eq (hest : EstimatesDigit est w) (hv : NormalizedDivisor w v1 v0 v) (hu0 : u0 < 2 ^ w)
    (hU : u2 * 2 ^ w + u1 = U) (hlt : U < v) :
    div32 est w u2 u1 u0 v1 v0 = ((U * 2 ^ w + u0) / v, (U * 2 ^ w + u0) % v) := by
  have hlimbs : u2 * 2 ^ (2 * w) + u1 * 2 ^ w + u0 = U * 2 ^ w + u0 := by rw [← hU]; ring
  have hfits : U * 2 ^ w + u0 < 2 ^ (w * 3) := calc
    U * 2 ^ w + u0 < v * 2 ^ w := dividend_lt hu0 hlt
    _ ≤ 2 ^ (2 * w) * 2 ^ w := Nat.mul_le_mul_right _ hv.lt.le
    _ = 2 ^ (w * 3) := by ring
  have hdigit := correctDigit_twice hv.pos (digit_le_estimate hv hu0 hlt) (estimate_le_digit_add_two u0 hv)
  simp only [div32, hlimbs, hU, hv.value, hest U v1 hv.high_pos.ne' hv.high_lt, hdigit]
  rw [subLimbs_of_le hfits (Nat.div_mul_le_self ..), ← Nat.mod_eq_sub_div_mul]

/-! ### Two digits (40_kernel.md R146) -/

/-- The next digit of a long division: a limb `x` put under the dividend so far. -/
theorem long_division_step {n x B : Nat} (hv : 0 < v) :
    (n * B + x) / v = n / v * B + (n % v * B + x) / v ∧ (n * B + x) % v = (n % v * B + x) % v := by
  have hsplit : n * B + x = v * (n / v * B) + (n % v * B + x) := by
    nth_rw 1 [← Nat.div_add_mod n v]
    ring
  rw [hsplit, Nat.mul_add_div hv, Nat.mul_add_mod]
  exact ⟨rfl, rfl⟩

theorem div42_eq (hest : EstimatesDigit est w) (hv : NormalizedDivisor w v1 v0 v) (hu1 : u1 < 2 ^ w) (hu0 : u0 < 2 ^ w)
    (hU : u3 * 2 ^ w + u2 = U) (hlt : U < v) :
    div42 est w u3 u2 u1 u0 v1 v0 =
      (((U * 2 ^ w + u1) * 2 ^ w + u0) / v, ((U * 2 ^ w + u1) * 2 ^ w + u0) % v) := by
  have hr := Nat.mod_lt (U * 2 ^ w + u1) hv.pos
  obtain ⟨hdiv, hmod⟩ := long_division_step (n := U * 2 ^ w + u1) (x := u0) (B := 2 ^ w) hv.pos
  simp only [div42, div32_eq hest hv hu1 hU hlt]
  rw [div32_eq hest hv hu0 (two_limbs_eq (hr.trans hv.lt)) hr, hdiv, hmod]

end

/-! ### Long division (40_kernel.md R147) -/

theorem lt_two_pow_bitLength (n : Nat) : n < 2 ^ bitLength n := by
  rw [bitLength]
  split
  · omega
  · exact Nat.lt_log2_self

theorem bitLength_le {d W : Nat} (hd : d ≠ 0) (hW : d < 2 ^ W) : bitLength d ≤ W := by
  rw [bitLength, if_neg hd]
  exact (Nat.log2_lt hd).2 hW

/-- The shift that normalises a divisor of `W` bits sets its top bit and loses none. -/
theorem normalize_bounds {d W : Nat} (hd : d ≠ 0) (hW : d < 2 ^ W) :
    2 ^ W ≤ 2 * (d * 2 ^ (W - bitLength d)) ∧ d * 2 ^ (W - bitLength d) < 2 ^ W := by
  have hle := bitLength_le hd hW
  have hlow : 2 ^ bitLength d ≤ 2 * d := by
    rw [bitLength, if_neg hd, Nat.pow_succ']
    exact Nat.mul_le_mul_left 2 (Nat.log2_self_le hd)
  have hsplit : 2 ^ W = 2 ^ bitLength d * 2 ^ (W - bitLength d) := by
    rw [← Nat.pow_add, Nat.add_sub_cancel' hle]
  rw [hsplit, ← Nat.mul_assoc]
  exact ⟨Nat.mul_le_mul_right _ hlow, Nat.mul_lt_mul_of_pos_right (lt_two_pow_bitLength d) (Nat.two_pow_pos _)⟩

/-- The limbs of a number whose top bit is set. -/
theorem normalizedDivisor_limbs {v : Nat} (hw : 0 < w) (hlow : 2 ^ (2 * w) ≤ 2 * v) (hhigh : v < 2 ^ (2 * w)) :
    NormalizedDivisor w (limb w 1 v) (limb w 0 v) v where
  value := two_limbs_eq hhigh
  high_lt := limb_lt ..
  low_lt := limb_lt ..
  top_bit := by
    have hlt : 2 ^ w * 2 ^ w < 2 ^ w * (2 * limb w 1 v + 2) := calc
      2 ^ w * 2 ^ w ≤ 2 * v := by rwa [← Nat.pow_add, ← Nat.two_mul]
      _ = 2 * (limb w 1 v * 2 ^ w + limb w 0 v) := by rw [two_limbs_eq hhigh]
      _ < 2 * (limb w 1 v * 2 ^ w + 2 ^ w) := by have := limb_lt w 0 v; omega
      _ = 2 ^ w * (2 * limb w 1 v + 2) := by ring
    have hlt' := Nat.lt_of_mul_lt_mul_left hlt
    obtain ⟨h, hh⟩ : 2 ∣ 2 ^ w := dvd_pow_self 2 hw.ne'
    omega

/-- Four limbs of which the upper two are `u / 2^(2w)`. -/
theorem four_limbs_eq {u : Nat} (hu : u < 2 ^ (w * 4)) :
    limb w 3 u * 2 ^ w + limb w 2 u = u / 2 ^ (w * 2) ∧
      ((limb w 3 u * 2 ^ w + limb w 2 u) * 2 ^ w + limb w 1 u) * 2 ^ w + limb w 0 u = u := by
  have h3 := div_limb w 3 u
  rw [Nat.div_eq_of_lt hu, Nat.zero_mul, Nat.zero_add] at h3
  rw [h3, div_limb w 2, div_limb w 1, div_limb w 0]
  exact ⟨rfl, by simp⟩

theorem longDiv_eq {n d : Nat} (hest : EstimatesDigit est w) (hw : 0 < w) (hd : d ≠ 0) (hW : d < 2 ^ (2 * w))
    (hn : n / 2 ^ (2 * w) < d) : longDiv est (2 * w) n d = (n / d, n % d) := by
  have hhalf : 2 * w / 2 = w := Nat.mul_div_cancel_left w Nat.two_pos
  obtain ⟨hlow, hhigh⟩ := normalize_bounds hd hW
  simp only [longDiv, hhalf]
  set p := 2 ^ (2 * w - bitLength d)
  have hp : 0 < p := Nat.two_pow_pos _
  have hquot : n * p / 2 ^ (w * 2) < d * p := by
    rw [Nat.div_lt_iff_lt_mul (Nat.two_pow_pos _), Nat.mul_right_comm, Nat.mul_comm w]
    exact Nat.mul_lt_mul_of_pos_right ((Nat.div_lt_iff_lt_mul (Nat.two_pow_pos _)).1 hn) hp
  have hu : n * p < 2 ^ (w * 4) := calc
    n * p < d * p * 2 ^ (w * 2) := (Nat.div_lt_iff_lt_mul (Nat.two_pow_pos _)).1 hquot
    _ ≤ 2 ^ (2 * w) * 2 ^ (w * 2) := Nat.mul_le_mul_right _ hhigh.le
    _ = 2 ^ (w * 4) := by ring
  obtain ⟨hupper, hlimbs⟩ := four_limbs_eq hu
  rw [div42_eq hest (normalizedDivisor_limbs hw hlow hhigh) (limb_lt ..) (limb_lt ..) hupper hquot, ← hupper, hlimbs,
    Nat.mul_div_mul_right _ _ hp, Nat.mul_mod_mul_right, Nat.mul_div_cancel _ hp]

theorem divides_estimatesDigit (w : Nat) : EstimatesDigit (· / ·) w := fun _ _ _ _ => rfl

theorem divW_eq {n d : Nat} (hw : 0 < w) (hd : d ≠ 0) (hW : d < 2 ^ (2 * w)) (hn : n / 2 ^ (2 * w) < d) :
    divW (2 * w) n d = (n / d, n % d) := longDiv_eq (divides_estimatesDigit w) hw hd hW hn

/-- The recursive estimate is the quotient where that is one limb, and the largest limb elsewhere. -/
theorem quadEstimate_estimatesDigit : EstimatesDigit quadEstimate 128 := by
  intro n d hd hlt
  rw [quadEstimate]
  split
  · have hdiv : divW 128 n d = (n / d, n % d) := divW_eq (w := 64) (by norm_num) hd hlt ‹_›
    rw [hdiv]
  · have hle : 2 ^ 128 ≤ n / d := by
      rw [Nat.le_div_iff_mul_le (Nat.pos_of_ne_zero hd), Nat.mul_comm, ← Nat.le_div_iff_mul_le (Nat.two_pow_pos 128)]
      exact not_lt.1 ‹_›
    omega

theorem divQ_eq {n d : Nat} (hd : d ≠ 0) (hW : d < 2 ^ 256) (hn : n / 2 ^ 256 < d) : divQ n d = (n / d, n % d) :=
  longDiv_eq (w := 128) quadEstimate_estimatesDigit (by norm_num) hd hW hn

end

/-- Settles O53: the normalising shift keeps the quotient and scales the remainder, and each of the two digits comes from
an estimate that is at most 2 too large, the recursive one included. -/
theorem longDivisionDatapathIsExact : Obligations.LongDivisionDatapathIsExact := by
  unfold Obligations.LongDivisionDatapathIsExact
  exact ⟨fun w n d hw hW hd hn => divW_eq hw hd hW hn, fun n d hW hd hn => divQ_eq hd hW hn⟩

/-! ### The Newton iteration (40_kernel.md R149) -/

/-- A step from an estimate that is not below the root does not fall below it (arithmetic and geometric mean). -/
theorem lt_newton_step {n x : Nat} (hx : 0 < x) :
    n < ((x + n / x) / 2 + 1) * ((x + n / x) / 2 + 1) := by
  have hn : n < x * (n / x + 1) := Nat.lt_mul_div_succ n hx
  have hmean : x + (n / x + 1) ≤ 2 * ((x + n / x) / 2 + 1) := by omega
  have hsquare := (four_mul_le_sq_add x (n / x + 1)).trans (Nat.pow_le_pow_left hmean 2)
  nlinarith

/-- The loop ends at the root from any estimate not below it, with a fuel of the estimate. -/
theorem newtonLoop_spec {n fuel x : Nat} (hfuel : x ≤ fuel) (hx : n < (x + 1) * (x + 1)) :
    newtonLoop n fuel x * newtonLoop n fuel x ≤ n ∧ n < (newtonLoop n fuel x + 1) * (newtonLoop n fuel x + 1) := by
  induction fuel generalizing x with
  | zero =>
    obtain rfl := Nat.le_zero.1 hfuel
    exact ⟨Nat.zero_le n, hx⟩
  | succ fuel ih =>
    rw [newtonLoop]
    split
    · have hle : x ≤ n / x := by omega
      exact ⟨(Nat.mul_le_mul_right x hle).trans (Nat.div_mul_le_self n x), hx⟩
    · have hlt := not_le.1 ‹_›
      exact ih (by omega) (lt_newton_step ((Nat.zero_le _).trans_lt hlt))

/-- The seed is not below the root. -/
theorem lt_newtonSeed (n : Nat) : n < (newtonSeed n + 1) * (newtonSeed n + 1) := by
  set h := (bitLength n + 1) / 2
  calc
    n < 2 ^ bitLength n := lt_two_pow_bitLength n
    _ ≤ 2 ^ (h + h) := Nat.pow_le_pow_right Nat.two_pos (by omega)
    _ = 2 ^ h * 2 ^ h := Nat.pow_add ..
    _ ≤ (2 ^ h + 1) * (2 ^ h + 1) := Nat.mul_self_le_mul_self (Nat.le_succ _)

/-- Settles O54: the loop ends at the root, so the final correction changes nothing. -/
theorem newtonIterationIsExact : Obligations.NewtonIterationIsExact := by
  unfold Obligations.NewtonIterationIsExact
  intro n
  obtain ⟨hle, hlt⟩ := newtonLoop_spec le_rfl (lt_newtonSeed n)
  rw [newtonSqrt]
  split
  · omega
  · simp only [if_neg (not_lt.2 hle)]
    exact ⟨hle, hlt⟩

end Sys2Proof.Machine.Datapath

/-! The arithmetic commands (41_arith.md): operand checks and delivery said once, then what ADD, SUB, MUL, DIV, REM, SQRT
and POW end with, each from the law of its core. -/

namespace Sys2Proof.Machine

/-! ### Operand checks and delivery (41_arith.md R180, R182) -/

/-- From `s`, a command ended normally and wrote to RES the number `x`, as a valid value of tier `t` at scale `p`. -/
def Delivers (s : State) (r : Result) (t : Tier) (x : ℚ) (p : Nat) : Prop :=
  ∃ u, r = .next u ∧ ValueDone s u ∧ u.res.valid t = true ∧ u.res.toDec.val = x ∧ u.res.toDec.scale = p

section
variable {s : State} {t : Tier} {r : Computed} {x : ℚ} {p : Nat}

theorem deliver_value {v : Dec} {k : Nat} (hr : r = .value v k) (hv : v.valid t = true) (c : Bool) (cause : Cause) :
    ∃ u, deliver r c cause s = .next u ∧ ValueDone s u ∧ u.res.valid t = true ∧ u.res.toDec = v := by
  subst hr
  exact ⟨s.completeValue v k, rfl, rfl, Dec.toReg_valid hv, Dec.toReg_toDec hv⟩

theorem deliver_ovf (s : State) (c : Bool) (cause : Cause) :
    deliver .ovf c cause s = .next (overflowEnd s c cause) := by
  cases c <;> rfl

theorem deliver_yields (h : r.Yields t x p) (c : Bool) (cause : Cause) : Delivers s (deliver r c cause s) t x p := by
  obtain ⟨v, k, hr, hv, rfl, rfl⟩ := h
  obtain ⟨u, hu, hdone, hvalid, hres⟩ := deliver_value (s := s) hr hv c cause
  exact ⟨u, hu, hdone, hvalid, by rw [hres], by rw [hres]⟩

/-- A core that answers what fits the tier ends in the number, or in an overflow where the number is too large. -/
theorem deliver_fits (h : r.Fits t x p) (c : Bool) (cause : Cause) :
    (|x| < 2 ^ Config.width t → Delivers s (deliver r c cause s) t x p) ∧
      (2 ^ Config.width t ≤ |x| → deliver r c cause s = .next (overflowEnd s c cause)) := by
  rcases h with ⟨hlt, hy⟩ | ⟨hge, rfl⟩
  · exact ⟨fun _ => deliver_yields hy c cause, fun hge => absurd hlt (not_lt.2 hge)⟩
  · exact ⟨fun hlt => absurd hlt (not_lt.2 hge), fun _ => deliver_ovf s c cause⟩

theorem withOperandA_valid (ha : s.latch.a.valid t = true) (f : Dec → Result) :
    withOperandA t s f = f s.latch.a.toDec := if_pos ha

theorem withOperands_valid (ha : s.latch.a.valid t = true) (hb : s.latch.b.valid t = true) (f : Dec → Dec → Result) :
    withOperands t s f = f s.latch.a.toDec s.latch.b.toDec := (if_pos ha).trans (if_pos hb)

end

/-! ### Each command on valid operands: its core, delivered (41_arith.md R200 to R206) -/

section
variable {s : State} {t : Tier} (ha : s.latch.a.valid t = true) (hb : s.latch.b.valid t = true)
include ha

theorem exec_pow (c : Bool) : exec (.pow t c) s =
    deliver (powCore s.target t s.latch.a.toDec (exponent s) s.draws) c .overflow s := by
  rw [exec, execPow, withOperandA_valid ha]

theorem exec_sqrt : exec (.sqrt t) s = deliver (sqrtCore t s.latch.a.toDec s.draws) false .overflow s := by
  rw [exec, execSqrt, withOperandA_valid ha]

include hb

theorem exec_add (c : Bool) : exec (.add t c) s =
    deliver (addCore t s.latch.a.toDec s.latch.b.toDec s.draws) c .overflow s := by
  rw [exec, execAdd, withOperands_valid ha hb]

theorem exec_sub (c : Bool) : exec (.sub t c) s =
    deliver (addCore t s.latch.a.toDec s.latch.b.toDec.negate s.draws) c .overflow s := by
  rw [exec, execSub, withOperands_valid ha hb]

theorem exec_mul (c : Bool) : exec (.mul t c) s =
    deliver (mulCore s.target t s.latch.a.toDec s.latch.b.toDec s.draws) c .overflow s := by
  rw [exec, execMul, withOperands_valid ha hb]

theorem exec_div : exec (.div t) s =
    deliver (divCore s.target t s.latch.a.toDec s.latch.b.toDec s.draws) false .quotientOverflow s := by
  rw [exec, execDiv, withOperands_valid ha hb]

theorem exec_rem : exec (.rem t) s =
    deliver (remCore s.target t s.latch.a.toDec s.latch.b.toDec s.draws) false .quotientOverflow s := by
  rw [exec, execRem, withOperands_valid ha hb]

end

/-! ### ADD, SUB and MUL (41_arith.md R200 to R202) -/

/-- Settles O28: ADD's core answers the sum. -/
theorem addIsExact : Obligations.AddIsExact := by
  unfold Obligations.AddIsExact
  intro t c s ha hb a b
  rw [exec_add ha hb]
  exact deliver_fits (addCore_fits ha hb s.draws) c .overflow

/-- Settles O29: SUB is ADD's core with the second sign flipped. -/
theorem subIsExact : Obligations.SubIsExact := by
  unfold Obligations.SubIsExact
  intro t c s ha hb a b
  have hcore := addCore_fits ha (b := b.negate) hb s.draws
  rw [Dec.val_negate, ← sub_eq_add_neg] at hcore
  rw [exec_sub ha hb]
  exact deliver_fits hcore c .overflow

/-- Settles O30: MUL's core answers the truncated product, and truncation does not cross the tier's bound. -/
theorem mulTruncatesTheProduct : Obligations.MulTruncatesTheProduct := by
  unfold Obligations.MulTruncatesTheProduct
  intro t c s ha hb a b p
  have hbound := abs_truncPlaces_lt_iff t (a.val * b.val) p
  rw [exec_mul ha hb, ← hbound, ← not_lt, ← hbound, not_lt]
  exact deliver_fits (mulCore_fits a b s.draws) c .overflow

/-! ### ADD and MUL with their operands exchanged (41_arith.md R211 (5)) -/

theorem alignScale_comm (a b : Dec) : alignScale a b = alignScale b a := max_comm _ _

theorem addCore_comm (t : Tier) (a b : Dec) (k : Nat) : addCore t a b k = addCore t b a k := by
  simp only [addCore, alignScale_comm a b]
  generalize alignComb a (alignScale b a) = A, alignComb b (alignScale b a) = B
  by_cases hneg : a.neg = b.neg
  · rw [if_pos hneg, if_pos hneg.symm, Nat.add_comm, hneg]
  · rw [if_neg hneg, if_neg (Ne.symm hneg)]
    rcases lt_trichotomy A B with h | rfl | h
    · rw [if_neg h.not_gt, if_pos h, if_pos h]
    · simp only [lt_irrefl, if_false]
    · rw [if_pos h, if_neg h.not_gt, if_pos h]

theorem mulCore_comm (T : Config.TargetScales) (t : Tier) (a b : Dec) (k : Nat) :
    mulCore T t a b k = mulCore T t b a k := by
  simp only [mulCore, Nat.mul_comm a.comb, Nat.add_comm a.scale, Bool.xor_comm a.neg]

/-- Both results are next states, with the same STATUS and the same RES. -/
def SameStatusAndRes (r r' : Result) : Prop :=
  ∃ u u', r = .next u ∧ r' = .next u' ∧ u.status = u'.status ∧ u.res = u'.res

section
variable {s s' : State}

theorem raiseFault_sameStatusAndRes (hstatus : s.status = s'.status) (hres : s.res = s'.res) (c : Cause) :
    SameStatusAndRes (.next (s.raiseFault c)) (.next (s'.raiseFault c)) :=
  ⟨_, _, rfl, rfl, congrArg (·.faulted c) hstatus, hres⟩

theorem deliver_sameStatusAndRes (hstatus : s.status = s'.status) (hres : s.res = s'.res) (r : Computed) (c : Bool)
    (cause : Cause) : SameStatusAndRes (deliver r c cause s) (deliver r c cause s') := by
  cases r with
  | value v k => exact ⟨_, _, rfl, rfl, congrArg Status.completed hstatus, rfl⟩
  | raise e => exact raiseFault_sameStatusAndRes hstatus hres e
  | ovf =>
    cases c
    · exact raiseFault_sameStatusAndRes hstatus hres cause
    · exact ⟨_, _, rfl, rfl, congrArg Status.absented hstatus, hres⟩

end

/-- The state with its latched operands exchanged. -/
def State.swapOperands (s : State) : State := { s with latch := { s.latch with a := s.latch.b, b := s.latch.a } }

@[simp] theorem State.swapOperands_latch_a (s : State) : s.swapOperands.latch.a = s.latch.b := rfl
@[simp] theorem State.swapOperands_latch_b (s : State) : s.swapOperands.latch.b = s.latch.a := rfl
@[simp] theorem State.swapOperands_status (s : State) : s.swapOperands.status = s.status := rfl
@[simp] theorem State.swapOperands_res (s : State) : s.swapOperands.res = s.res := rfl

/-- A command whose core does not look at the order of its operands ends alike when they are exchanged: valid ones reach
the core, and an invalid one faults wherever it stands. -/
theorem withOperands_swapOperands (t : Tier) (s : State) (c : Bool) {core : Dec → Dec → Computed}
    (hcomm : ∀ a b, core a b = core b a) :
    SameStatusAndRes (withOperands t s fun a b => deliver (core a b) c .overflow s)
      (withOperands t s.swapOperands fun a b => deliver (core a b) c .overflow s.swapOperands) := by
  have hstatus := s.swapOperands_status.symm
  have hres := s.swapOperands_res.symm
  simp only [withOperands, withOperandA, State.swapOperands_latch_a, State.swapOperands_latch_b]
  by_cases ha : s.latch.a.valid t = true <;> by_cases hb : s.latch.b.valid t = true
  · simp only [ha, hb, if_true, hcomm s.latch.b.toDec]
    exact deliver_sameStatusAndRes hstatus hres _ c .overflow
  all_goals
    simp only [ha, hb, if_true, Bool.false_eq_true, if_false]
    exact raiseFault_sameStatusAndRes hstatus hres .invalidOperand

/-- Settles O31: both cores are commutative, the index of the next draw included, so even a zero's sign is the same. -/
theorem addAndMulCommute : Obligations.AddAndMulCommute := by
  unfold Obligations.AddAndMulCommute
  intro t c s i hi
  have hsame : SameStatusAndRes (exec i s) (exec i s.swapOperands) := by
    rcases hi with rfl | rfl
    · exact withOperands_swapOperands t s c (addCore_comm t · · s.draws)
    · exact withOperands_swapOperands t s c (mulCore_comm s.target t · · s.draws)
  obtain ⟨u, u', hu, hu', hstatus, hres⟩ := hsame
  exact ⟨u, u', hu, hu', hstatus, by rw [hres], by rw [hres], by rw [hres], fun _ => by rw [hres]⟩

/-! ### DIV and REM (41_arith.md R203, R204) -/

/-- Settles O32: DIV's core answers the truncated quotient, and truncation does not cross the tier's bound. -/
theorem divTruncatesTheQuotient : Obligations.DivTruncatesTheQuotient := by
  unfold Obligations.DivTruncatesTheQuotient
  intro t s ha hb a b
  have hbound := abs_truncPlaces_lt_iff t (a.val / b.val) (s.target.of t)
  have hfits (hz : b.val ≠ 0) := deliver_fits (s := s) (divCore_fits (T := s.target) (t := t) a s.draws
    (mt Dec.val_eq_zero.2 hz)) false .quotientOverflow
  rw [hbound, ← not_lt, hbound, not_lt] at hfits
  rw [exec_div ha hb]
  refine ⟨fun hz => (hfits hz).1, fun hz => (hfits hz).2, fun hz => ?_⟩
  rw [divCore_zero t a s.draws (Dec.val_eq_zero.1 hz)]
  rfl

theorem remCore_zero {T : Config.TargetScales} {b : Dec} (t : Tier) (a : Dec) (k : Nat) (hb : b.comb = 0) :
    remCore T t a b k = .raise .divByZero := by
  rw [remCore, divCore_zero t a k hb]
  rfl

/-- Settles O33: REM's core by its two cases, and a zero divisor, which DIV's core raises. -/
theorem remSubtractsTheWholeMultiple : Obligations.RemSubtractsTheWholeMultiple := by
  unfold Obligations.RemSubtractsTheWholeMultiple
  intro t s ha hb a b p
  rw [exec_rem ha hb]
  have hcases (hz : b.val ≠ 0) := remCore_cases (T := s.target) ha (mt Dec.val_eq_zero.2 hz) s.draws
  refine ⟨fun hz hlt => ?_, fun hz hge => ?_, fun hz => ?_⟩
  · rcases hcases hz with ⟨-, hy⟩ | ⟨hge, -⟩
    · exact deliver_yields hy false .quotientOverflow
    · exact absurd hlt (not_lt.2 hge)
  · rcases hcases hz with ⟨hlt, -⟩ | ⟨-, hovf⟩
    · exact absurd hlt (not_lt.2 hge)
    · rw [hovf]
      rfl
  · rw [remCore_zero t a s.draws (Dec.val_eq_zero.1 hz)]
    rfl

/-! ### Truncation: what it keeps and what it leaves -/

theorem truncQ_intCast (z : ℤ) : truncQ z = z := by simp [truncQ]

/-- A number of at most `p` places is kept by truncation to `p` places. -/
theorem truncPlaces_eq_self {x : ℚ} {p : Nat} {z : ℤ} (h : x * 10 ^ p = z) : truncPlaces x p = x := by
  rw [truncPlaces, h, truncQ_intCast, ← h, mul_div_cancel_right₀ _ (pow10_ne p)]

/-- A value times `10^s` at its own scale `s` is an integer. -/
theorem Dec.val_mul_pow_scale (x : Dec) : ∃ z : ℤ, x.val * 10 ^ x.scale = z := by
  refine ⟨if x.neg then -x.comb else x.comb, ?_⟩
  rw [Dec.val_eq, mul_assoc, div_mul_cancel₀ _ (pow10_ne _)]
  cases x.neg <;> simp

/-- What truncation leaves is less than one, and has the sign of the number or is zero. -/
theorem truncQ_rest (q : ℚ) : |q - truncQ q| < 1 ∧ 0 ≤ (q - truncQ q) * q := by
  unfold truncQ
  split
  · have hle := Int.le_ceil q
    have hlt := Int.ceil_lt_add_one q
    exact ⟨abs_lt.2 ⟨by linarith, by linarith⟩, mul_nonneg_of_nonpos_of_nonpos (by linarith) (by linarith)⟩
  · have hle := Int.floor_le q
    have hlt := Int.lt_floor_add_one q
    exact ⟨abs_lt.2 ⟨by linarith, by linarith⟩, mul_nonneg (by linarith) (by linarith)⟩

/-- A remainder by truncation: smaller than the divisor, and with the dividend's sign or zero. -/
theorem truncQ_remainder {x y : ℚ} (hy : y ≠ 0) :
    |x - truncQ (x / y) * y| < |y| ∧ 0 ≤ (x - truncQ (x / y) * y) * x := by
  obtain ⟨habs, hsign⟩ := truncQ_rest (x / y)
  have hrest : x - truncQ (x / y) * y = (x / y - truncQ (x / y)) * y := by
    rw [sub_mul, div_mul_cancel₀ _ hy]
  rw [hrest]
  constructor
  · rw [abs_mul]
    exact mul_lt_of_lt_one_left (abs_pos.2 hy) habs
  · have hprod : (x / y - truncQ (x / y)) * y * x = (x / y - truncQ (x / y)) * (x / y) * (y * y) := by
      field_simp
    rw [hprod]
    exact mul_nonneg hsign (mul_self_nonneg y)

/-- Settles O34: the multiple of `b` has `b`'s scale, at most T, so MUL does not truncate it and the rest is exact. -/
theorem remIsExactUpToTheTargetScale : Obligations.RemIsExactUpToTheTargetScale := by
  unfold Obligations.RemIsExactUpToTheTargetScale
  intro t s ha hb a b hT hz hlt
  obtain ⟨u, hu, -, -, hval, -⟩ := (remSubtractsTheWholeMultiple t s ha hb).1 hz hlt
  obtain ⟨z, hint⟩ := b.val_mul_pow_scale
  have hexact : truncPlaces (truncQ (a.val / b.val) * b.val) b.scale = truncQ (a.val / b.val) * b.val :=
    truncPlaces_eq_self (z := truncQ (a.val / b.val) * z) (by rw [mul_assoc, hint, Int.cast_mul])
  rw [min_eq_left hT, hexact] at hval
  exact ⟨u, hu, by rw [hval, add_sub_cancel], by simpa only [hval] using truncQ_remainder hz⟩

/-! ### SQRT (41_arith.md R206) -/

/-- Settles O39: the sign of the operand chooses the branch of SQRT's core. -/
theorem sqrtIsTheTruncatedRoot : Obligations.SqrtIsTheTruncatedRoot := by
  unfold Obligations.SqrtIsTheTruncatedRoot
  intro t s ha x
  set a := s.latch.a.toDec
  have hcomb (hx : x ≠ 0) : a.comb ≠ 0 := mt Dec.val_eq_zero.2 hx
  have hmag := a.mag_nonneg
  rw [exec_sqrt ha]
  refine ⟨fun hx => ?_, fun hx => ?_, fun hx => ?_⟩
  · have hneg : a.neg = false := by
      by_contra hn
      have hval : x = -a.mag := if_pos (by simpa using hn)
      linarith
    obtain ⟨v, k, hv, hvalid, hscale, -, hroot⟩ := sqrtCore_positive ha s.draws (hcomb hx.ne') hneg
    obtain ⟨u, hu, hdone, hres, rfl⟩ := deliver_value (s := s) hv hvalid false .overflow
    exact ⟨u, hu, hdone, hres, hscale, hroot⟩
  · obtain ⟨v, k, hv, hvalid, hzero⟩ := sqrtCore_zero (t := t) s.draws (Dec.val_eq_zero.1 hx)
    obtain ⟨u, hu, hdone, hres, rfl⟩ := deliver_value (s := s) hv hvalid false .overflow
    exact ⟨u, hu, hdone, hres, hzero⟩
  · have hneg : a.neg = true := by
      by_contra hn
      have hval : x = a.mag := if_neg hn
      linarith
    rw [sqrtCore_negative s.draws (hcomb hx.ne) hneg]
    rfl

end Sys2Proof.Machine

/-! POW (41_arith.md R194, R205): its loop cut at the multiplication, the exact power where no step truncates, and the
spec's loop without a bound. -/

namespace Sys2Proof.Machine

/-! ### One turn of the loop (41_arith.md R194) -/

section
variable {T : Config.TargetScales} {t : Tier} {fuel e : Nat} {r b : Dec} {k : Nat}

/-- What a turn of the loop does after its multiplication, `h` being the exponent's higher bits: it stops after the last
bit, and squares the base and goes on before it (`powLoop_odd`, `powLoop_even`). -/
def powRest (T : Config.TargetScales) (t : Tier) (fuel h : Nat) (r b : Dec) (k : Nat) : Computed :=
  if h = 0 then .value r k
  else (mulCore T t b b k).bind fun b₁ k₁ => powLoop T t fuel h r b₁ k₁

theorem powLoop_zero (fuel : Nat) (r b : Dec) (k : Nat) : powLoop T t fuel 0 r b k = .value r k := by
  cases fuel <;> rfl

theorem powLoop_odd (he : e % 2 = 1) : powLoop T t (fuel + 1) e r b k =
    (mulCore T t r b k).bind fun r₁ k₁ => powRest T t fuel (e / 2) r₁ b k₁ := by
  have he0 : e ≠ 0 := by omega
  rw [powLoop, if_neg he0, if_pos he]
  rfl

theorem powLoop_even (he : e % 2 = 0) : powLoop T t (fuel + 1) e r b k = powRest T t fuel (e / 2) r b k := by
  rw [powLoop]
  split
  · rw [powRest, if_pos (by omega)]
  · rw [if_neg (by omega)]
    rfl

theorem mulCore_value_or_ovf (T : Config.TargetScales) (t : Tier) (a b : Dec) (k : Nat) :
    (∃ v k', mulCore T t a b k = .value v k') ∨ mulCore T t a b k = .ovf := by
  rcases mulCore_fits (T := T) (t := t) a b k with ⟨-, v, k', hv, -⟩ | ⟨-, hovf⟩
  · exact .inl ⟨v, k', hv⟩
  · exact .inr hovf

end

/-! ### The exact power (41_arith.md R205) -/

section
variable {T : Config.TargetScales} {t : Tier}

theorem Dec.abs_val_lt {v : Dec} (hv : v.valid t = true) : |v.val| < 2 ^ Config.width t :=
  v.abs_val.trans_lt (Dec.mag_lt hv)

theorem Computed.fits_value {v : Dec} (hv : v.valid t = true) (k : Nat) : (Computed.value v k).Fits t v.val v.scale :=
  .inl ⟨Dec.abs_val_lt hv, v, k, rfl, hv, rfl, rfl⟩

/-- Where the factors' scales add up to at most T, MUL's core does not truncate. -/
theorem mulCore_fits_exact {a b : Dec} (k : Nat) (hs : a.scale + b.scale ≤ T.of t) :
    (mulCore T t a b k).Fits t (a.val * b.val) (a.scale + b.scale) := by
  obtain ⟨y, hy⟩ := a.val_mul_pow_scale
  obtain ⟨z, hz⟩ := b.val_mul_pow_scale
  have hexact : truncPlaces (a.val * b.val) (a.scale + b.scale) = a.val * b.val :=
    truncPlaces_eq_self (z := y * z) (by rw [pow_add, mul_mul_mul_comm, hy, hz, Int.cast_mul])
  have hfits := mulCore_fits (T := T) (t := t) a b k
  rwa [min_eq_left hs, hexact] at hfits

/-- A factor that takes a number from below a bound to it is at least one. -/
theorem one_le_of_bound_le_mul {x y B : ℚ} (hx0 : 0 ≤ x) (hx : x < B) (h : B ≤ x * y) : 1 ≤ y := by
  by_contra hlt
  exact absurd (h.trans (mul_le_of_le_one_right hx0 (not_le.1 hlt).le)) (not_le.2 hx)

/-- What `fuel` turns of the loop answer while no product can truncate: the power, exact. The result is at least one where
the base is, so a square that overflows is not made good by a small result. -/
def PowLoopExact (T : Config.TargetScales) (t : Tier) (fuel : Nat) : Prop :=
  ∀ {e : Nat} {r b : Dec} (k : Nat), r.valid t = true → e < 2 ^ fuel → r.scale + b.scale * e ≤ T.of t →
    (1 ≤ |b.val| → 1 ≤ |r.val|) → (powLoop T t fuel e r b k).Fits t (r.val * b.val ^ e) (r.scale + b.scale * e)

theorem powRest_fits {fuel h : Nat} {r b : Dec} (hloop : PowLoopExact T t fuel) (k : Nat) (hr : r.valid t = true)
    (hh : h < 2 ^ fuel) (hs : r.scale + b.scale * (2 * h) ≤ T.of t) (hone : 1 ≤ |b.val| → 1 ≤ |r.val|) :
    (powRest T t fuel h r b k).Fits t (r.val * b.val ^ (2 * h)) (r.scale + b.scale * (2 * h)) := by
  have hsq : |b.val * b.val| = |b.val| ^ 2 := by rw [← sq, abs_pow]
  rw [powRest]
  split
  · subst h
    simpa using Computed.fits_value hr k
  · have hle : b.scale * 2 ≤ b.scale * (2 * h) := Nat.mul_le_mul_left _ (by omega)
    rcases mulCore_fits_exact (T := T) (t := t) (a := b) (b := b) k (by omega) with
      ⟨-, b₁, k₁, hb₁, -, hval, hscale⟩ | ⟨hge, hovf⟩
    · have hscale' : b₁.scale * h = b.scale * (2 * h) := by rw [hscale]; ring
      have hval' : b₁.val ^ h = b.val ^ (2 * h) := by rw [hval, ← sq, pow_mul]
      rw [hb₁, ← hscale', ← hval']
      refine hloop k₁ hr hh (hscale' ▸ hs) fun h1 => hone ?_
      rwa [hval, hsq, one_le_sq_iff₀ (abs_nonneg _)] at h1
    · rw [hovf]
      rw [hsq] at hge
      have hb : 1 ≤ |b.val| := (one_le_sq_iff₀ (abs_nonneg _)).1 ((one_le_pow₀ one_le_two).trans hge)
      refine .inr ⟨?_, rfl⟩
      calc (2 : ℚ) ^ Config.width t ≤ |b.val| ^ 2 := hge
        _ ≤ |b.val| ^ (2 * h) := pow_le_pow_right₀ hb (by omega)
        _ ≤ |r.val| * |b.val| ^ (2 * h) := le_mul_of_one_le_left (by positivity) (hone hb)
        _ = |r.val * b.val ^ (2 * h)| := by rw [abs_mul, abs_pow]

theorem powLoop_exact (T : Config.TargetScales) (t : Tier) (fuel : Nat) : PowLoopExact T t fuel := by
  unfold PowLoopExact
  induction fuel with
  | zero =>
    intro e r b k hr he hs hone
    obtain rfl : e = 0 := by simpa using he
    simpa [powLoop_zero] using Computed.fits_value hr k
  | succ fuel ih =>
    intro e r b k hr he hs hone
    have hh : e / 2 < 2 ^ fuel := by omega
    rcases Nat.mod_two_eq_zero_or_one e with heven | hodd
    · have he2 : e = 2 * (e / 2) := by omega
      rw [powLoop_even heven]
      generalize e / 2 = h at he2 hh
      subst he2
      exact powRest_fits ih k hr hh hs hone
    · have he2 : e = 2 * (e / 2) + 1 := by omega
      rw [powLoop_odd hodd]
      generalize e / 2 = h at he2 hh
      subst he2
      rw [Nat.mul_succ, Nat.add_comm (b.scale * _), ← Nat.add_assoc] at hs ⊢
      rw [pow_succ', ← mul_assoc]
      rcases mulCore_fits_exact (T := T) (t := t) (a := r) (b := b) k (by omega) with
        ⟨-, r₁, k₁, hr₁, hv, hval, hscale⟩ | ⟨hge, hovf⟩
      · rw [hr₁, ← hval, ← hscale]
        refine powRest_fits ih k₁ hv hh (hscale ▸ hs) fun hb => ?_
        rw [hval, abs_mul]
        exact one_le_mul_of_one_le_of_one_le (hone hb) hb
      · rw [hovf]
        rw [abs_mul] at hge
        have hb : 1 ≤ |b.val| := one_le_of_bound_le_mul (abs_nonneg _) (Dec.abs_val_lt hr) hge
        refine .inr ⟨?_, rfl⟩
        calc (2 : ℚ) ^ Config.width t ≤ |r.val| * |b.val| := hge
          _ ≤ |r.val| * |b.val| * |b.val| ^ (2 * h) := le_mul_of_one_le_right (by positivity) (one_le_pow₀ hb)
          _ = |r.val * b.val * b.val ^ (2 * h)| := by rw [abs_mul, abs_mul, abs_pow]

end

/-! ### POW's core by the sign of its exponent (41_arith.md R194) -/

section
variable {T : Config.TargetScales} {t : Tier} {a : Dec} {n : Int} {k : Nat}

theorem powCore_zero : powCore T t a 0 k = .value .one k := rfl

theorem powCore_pos (hn : 0 < n) : powCore T t a n k = powLoop T t 32 n.natAbs .one a k := by
  rw [powCore, if_neg hn.ne', if_neg hn.not_gt]
  rfl

theorem powCore_neg (hn : n < 0) {b : Dec} {k' : Nat} (hb : divCore T t .one a k = .value b k') :
    powCore T t a n k = powLoop T t 32 n.natAbs .one b k' := by
  rw [powCore, if_neg hn.ne, if_pos hn, hb]
  rfl

@[simp] theorem Dec.one_val : Dec.one.val = 1 := by norm_num [Dec.val_eq, Dec.one, Dec.comb]

@[simp] theorem Dec.one_scale : Dec.one.scale = 0 := rfl

/-- A 32-bit exponent has at most 32 bits (70_reset_and_hazards.md R361). -/
theorem exponent_natAbs_lt (s : State) : (exponent s).natAbs < 2 ^ 32 := by
  have hlow : -2 ^ 31 ≤ exponent s := BitVec.le_toInt s.latch.arg
  have hhigh : exponent s < 2 ^ 31 := BitVec.toInt_lt
  omega

/-- The reciprocal of a non-zero value fits its tier, since the value has at most M places. -/
theorem divCore_one_yields (ha : a.valid t = true) (hz : a.comb ≠ 0) (k : Nat) :
    (divCore T t .one a k).Yields t (truncPlaces (1 / a.val) (T.of t)) (T.of t) := by
  have hfits := divCore_fits (T := T) (t := t) .one k hz
  rw [Dec.one_val] at hfits
  refine .of_fits hfits ((abs_truncPlaces_lt_iff t _ _).2 ?_)
  have hcomb : (1 : ℚ) ≤ a.comb := by exact_mod_cast Nat.one_le_iff_ne_zero.2 hz
  have hscale : (10 : ℚ) ^ a.scale < 2 ^ Config.width t := by
    exact_mod_cast Config.pow_scale_lt (Dec.valid_iff.1 ha).2.1
  calc |1 / a.val| = 10 ^ a.scale / a.comb := by rw [abs_div, abs_one, Dec.abs_val, Dec.mag, one_div_div]
    _ ≤ 10 ^ a.scale := div_le_self (pow10_pos _).le hcomb
    _ < 2 ^ Config.width t := hscale

/-- The loop with exponent one multiplies one by the base, which at a scale of at most T is the base again. -/
theorem powLoop_one_yields {b : Dec} (hb : b.valid t = true) (hs : b.scale ≤ T.of t) (k : Nat) :
    (powLoop T t 32 1 .one b k).Yields t b.val b.scale := by
  have hfits := powLoop_exact T t 32 (b := b) k (Dec.one_valid t) (by norm_num : 1 < 2 ^ 32) (by simpa using hs)
    fun _ => by simp
  simp only [Dec.one_val, Dec.one_scale, one_mul, pow_one, Nat.mul_one, Nat.zero_add] at hfits
  exact .of_fits hfits (Dec.abs_val_lt hb)

end

/-- Settles O36: exponent 0 leaves the loop out; exponent −1 runs it for one turn on the reciprocal, which has scale T. -/
theorem powOfZeroAndMinusOne : Obligations.PowOfZeroAndMinusOne := by
  unfold Obligations.PowOfZeroAndMinusOne
  intro t c s ha
  rw [exec_pow ha]
  refine ⟨fun harg => ?_, fun harg hz => ?_⟩
  · rw [show exponent s = 0 from harg]
    exact ⟨_, rfl, rfl, rfl⟩
  · obtain ⟨b, k, hb, hvalid, hval, hscale⟩ :=
      divCore_one_yields (T := s.target) ha (mt Dec.val_eq_zero.2 hz) s.draws
    rw [show exponent s = -1 from harg, powCore_neg (by decide) hb, ← hval, ← hscale]
    exact deliver_yields (powLoop_one_yields hvalid hscale.le k) c .overflow

/-- Settles O37: the loop is exact from the base on; the empty power is one. -/
theorem powIsExactWhenItsScaleFits : Obligations.PowIsExactWhenItsScaleFits := by
  unfold Obligations.PowIsExactWhenItsScaleFits
  intro t c s n ha harg a hs
  have hexp : exponent s = n := harg
  have hlt : n < 2 ^ 32 := by simpa [hexp] using exponent_natAbs_lt s
  have hloop : powCore s.target t a n s.draws = powLoop s.target t 32 n .one a s.draws := by
    rcases n.eq_zero_or_pos with rfl | hpos
    · rw [powLoop_zero]
      exact powCore_zero
    · exact powCore_pos (Int.natCast_pos.2 hpos)
  have hfits := powLoop_exact s.target t 32 (b := a) s.draws (Dec.one_valid t) hlt (by simpa using hs) fun _ => by simp
  simp only [Dec.one_val, Dec.one_scale, one_mul, Nat.zero_add] at hfits
  rw [exec_pow ha, hexp, hloop]
  exact deliver_fits hfits c .overflow

/-! ### The spec's loop, which has no bound on its turns (41_arith.md R194, 70_reset_and_hazards.md R361) -/

section
variable {T : Config.TargetScales} {t : Tier}

/-- With a turn for each bit of the exponent, the bounded loop is a run of the spec's loop. -/
theorem powRuns_powLoop {fuel e : Nat} (r b : Dec) (k : Nat) (he : e < 2 ^ fuel) :
    PowRuns T t e r b k (powLoop T t fuel e r b k) := by
  induction fuel generalizing e r b k with
  | zero =>
    obtain rfl : e = 0 := by simpa using he
    exact .halt r b k
  | succ fuel ih =>
    have hh : e / 2 < 2 ^ fuel := by omega
    rcases Nat.mod_two_eq_zero_or_one e with heven | hodd
    · rw [powLoop_even heven, powRest]
      split
      · obtain rfl : e = 0 := by omega
        exact .halt r b k
      · rename_i hl
        rcases mulCore_value_or_ovf T t b b k with ⟨b', k', hb⟩ | hb <;> rw [hb]
        · exact .evenNext heven hl hb (ih r b' k' hh)
        · exact .evenSquareOverflow heven hl hb
    · rw [powLoop_odd hodd]
      rcases mulCore_value_or_ovf T t r b k with ⟨r', k', hr⟩ | hr <;> rw [hr]
      · simp only [Computed.bind, powRest]
        split
        · exact .oddLast hodd ‹_› hr
        · rename_i hl
          rcases mulCore_value_or_ovf T t b b k' with ⟨b', k'', hb⟩ | hb <;> rw [hb]
          · exact .oddNext hodd hl hr hb (ih r' b' k'' hh)
          · exact .oddSquareOverflow hodd hl hr hb
      · exact .oddOverflow hodd hr

theorem exists_succ_of_lt_two_pow {e fuel : Nat} (he : e < 2 ^ fuel) (h0 : e ≠ 0) : ∃ f, fuel = f + 1 := by
  refine Nat.exists_eq_succ_of_ne_zero ?_
  rintro rfl
  exact h0 (by simpa using he)

/-- Every run of the spec's loop is the bounded loop's, so the spec's loop has one outcome. -/
theorem PowRuns.eq_powLoop {e : Nat} {r b : Dec} {k : Nat} {out : Computed} (h : PowRuns T t e r b k out) {fuel : Nat}
    (hlt : e < 2 ^ fuel) : out = powLoop T t fuel e r b k := by
  induction h generalizing fuel with
  | halt r b k => exact (powLoop_zero fuel r b k).symm
  | oddOverflow he hr =>
    obtain ⟨f, rfl⟩ := exists_succ_of_lt_two_pow hlt (by omega)
    rw [powLoop_odd he, hr, Computed.bind]
  | oddLast he hl hr =>
    obtain ⟨f, rfl⟩ := exists_succ_of_lt_two_pow hlt (by omega)
    rw [powLoop_odd he, hr, Computed.bind, powRest, if_pos hl]
  | oddSquareOverflow he hl hr hb =>
    obtain ⟨f, rfl⟩ := exists_succ_of_lt_two_pow hlt (by omega)
    rw [powLoop_odd he, hr, Computed.bind, powRest, if_neg hl, hb, Computed.bind]
  | oddNext he hl hr hb _ ih =>
    obtain ⟨f, rfl⟩ := exists_succ_of_lt_two_pow hlt (by omega)
    rw [powLoop_odd he, hr, Computed.bind, powRest, if_neg hl, hb, Computed.bind]
    exact ih (by omega)
  | evenSquareOverflow he hl hb =>
    obtain ⟨f, rfl⟩ := exists_succ_of_lt_two_pow hlt (by omega)
    rw [powLoop_even he, powRest, if_neg hl, hb, Computed.bind]
  | evenNext he hl hb _ ih =>
    obtain ⟨f, rfl⟩ := exists_succ_of_lt_two_pow hlt (by omega)
    rw [powLoop_even he, powRest, if_neg hl, hb, Computed.bind]
    exact ih (by omega)

end

theorem PowRuns.unique {T : Config.TargetScales} {t : Tier} {e : Nat} {r b : Dec} {k : Nat} {out out' : Computed}
    (h : PowRuns T t e r b k out) (h' : PowRuns T t e r b k out') : out = out' :=
  (h.eq_powLoop Nat.lt_two_pow_self).trans (h'.eq_powLoop Nat.lt_two_pow_self).symm

/-- Settles O38: 32 turns are enough for the exponent, and from a reciprocal where the exponent is negative. -/
theorem powRunsTheLoop : Obligations.PowRunsTheLoop := by
  unfold Obligations.PowRunsTheLoop
  intro t c s ha _
  have hlt := exponent_natAbs_lt s
  rw [exec_pow ha]
  refine ⟨fun hpos => ⟨_, powRuns_powLoop .one _ s.draws hlt, ?_⟩, fun hneg hz => ?_,
    fun _ _ _ _ _ _ => PowRuns.unique⟩
  · exact congrArg (deliver · c .overflow s) (powCore_pos hpos)
  · obtain ⟨b, k, hb, -⟩ := divCore_one_yields (T := s.target) ha hz s.draws
    exact ⟨b, k, _, hb, powRuns_powLoop .one b k hlt, congrArg (deliver · c .overflow s) (powCore_neg hneg hb)⟩

end Sys2Proof.Machine

/-! ADD and MUL against the datapath's integer and fraction (41_arith.md R186, R187, R189). -/

namespace Sys2Proof.Machine
open Datapath

/-! ### A result by its two parts -/

section
variable {s : State} {t : Tier} {x : Dec}

theorem Dec.mul_pow_le_comb_iff (hf : x.frac < 10 ^ x.scale) (N : Nat) : N * 10 ^ x.scale ≤ x.comb ↔ N ≤ x.int := by
  rw [← Nat.le_div_iff_mul_le (by positivity), Dec.comb_div hf]

theorem mkDec_comb_ovf (hf : x.frac < 10 ^ x.scale) (hi : 2 ^ Config.width t ≤ x.int) (n : Bool) (k : Nat) :
    mkDec t x.comb x.scale n k = .ovf := by
  rcases mkDec_cases t x.comb x.scale n k with ⟨-, hovf⟩ | ⟨hlt, -⟩
  · exact hovf
  · exact absurd ((Dec.mul_pow_le_comb_iff hf _).2 hi) (not_le.2 hlt)

/-- Delivered from `mkDec`, the parts of a combined value stand in RES, whatever the sign. -/
theorem deliver_mkDec_comb (hx : x.valid t = true) (n : Bool) (k : Nat) (c : Bool) (cause : Cause) :
    ∃ u, deliver (mkDec t x.comb x.scale n k) c cause s = .next u ∧ ValueDone s u ∧ u.res.int.toNat = x.int ∧
      u.res.frac.toNat = x.frac := by
  obtain ⟨hi, hs, hf⟩ := Dec.valid_iff.1 hx
  rcases mkDec_cases t x.comb x.scale n k with ⟨hge, -⟩ | ⟨-, v, k', hv, hcomb, hscale, hfrac, hint, -⟩
  · exact absurd hi (not_lt.2 ((Dec.mul_pow_le_comb_iff hf _).1 hge))
  rw [← hscale] at hfrac
  obtain ⟨u, hu, hdone, -, rfl⟩ :=
    deliver_value (s := s) hv (Dec.valid_iff.2 ⟨hint, hscale ▸ hs, hfrac⟩) c cause
  refine ⟨u, hu, hdone, ?_, ?_⟩
  · rw [← Dec.comb_div hf, ← hcomb, ← hscale, Dec.comb_div hfrac]
    rfl
  · rw [← Dec.comb_mod hf, ← hcomb, ← hscale, Dec.comb_mod hfrac]
    rfl

end

/-! ### The carry chain and the borrow chain (41_arith.md R186, R187) -/

section
variable {t : Tier} {a b : Dec}

theorem alignComb_parts (x a b : Dec) :
    alignComb x (alignScale a b) = x.int * alignLimit a b + alignFrac x (alignScale a b) := rfl

theorem alignComb_le_iff {s : Nat} (ha : a.scale ≤ s) (hb : b.scale ≤ s) :
    alignComb b s ≤ alignComb a s ↔ |b.val| ≤ |a.val| := by
  rw [← Nat.cast_le (α := ℚ), alignComb_eq ha, alignComb_eq hb, mul_le_mul_iff_left₀ (pow10_pos s), Dec.abs_val,
    Dec.abs_val]

theorem addCore_same_sign (hn : a.neg = b.neg) (k : Nat) : addCore t a b k =
    mkDec t (alignComb a (alignScale a b) + alignComb b (alignScale a b)) (alignScale a b) a.neg k := if_pos hn

/-- The larger magnitude first; where the two are equal the sign is drawn. -/
theorem addCore_other_sign (hn : a.neg ≠ b.neg) (hle : alignComb b (alignScale a b) ≤ alignComb a (alignScale a b))
    (k : Nat) : ∃ n, addCore t a b k =
      mkDec t (alignComb a (alignScale a b) - alignComb b (alignScale a b)) (alignScale a b) n k := by
  unfold addCore
  rw [if_neg hn]
  rcases hle.lt_or_eq with hlt | heq
  · exact ⟨a.neg, if_pos hlt⟩
  · exact ⟨false, by simp only [heq, lt_irrefl, if_false, Nat.sub_self]⟩

variable (hfa : alignFrac a (alignScale a b) < alignLimit a b) (hfb : alignFrac b (alignScale a b) < alignLimit a b)
include hfa hfb

/-- The carry chain's integer and fraction are the parts of the aligned sum. -/
theorem addParts_eq (t : Tier) : ∃ i f, addParts t a b = (if 2 ^ Config.width t ≤ i then none else some (i, f)) ∧
    f < alignLimit a b ∧
    i * alignLimit a b + f = alignComb a (alignScale a b) + alignComb b (alignScale a b) := by
  refine ⟨_, _, rfl, ?_⟩
  rw [alignComb_parts, alignComb_parts, Nat.add_mul, Nat.add_mul]
  split <;> omega

/-- The borrow chain's integer and fraction are the parts of the aligned difference. -/
theorem subParts_spec (hle : alignComb b (alignScale a b) ≤ alignComb a (alignScale a b)) :
    (subParts a b).1 ≤ a.int ∧ (subParts a b).2 < alignLimit a b ∧
    (subParts a b).1 * alignLimit a b + (subParts a b).2 =
      alignComb a (alignScale a b) - alignComb b (alignScale a b) := by
  rw [alignComb_parts, alignComb_parts] at hle ⊢
  rw [subParts]
  generalize alignFrac a (alignScale a b) = fa, alignFrac b (alignScale a b) = fb, alignLimit a b = L at *
  split
  · have hint : b.int + 1 ≤ a.int := by
      by_contra hlt
      have hmul := Nat.mul_le_mul_right L (show a.int ≤ b.int by omega)
      omega
    obtain ⟨d, hd⟩ := Nat.exists_eq_add_of_le hint
    have hsub : a.int - b.int - 1 = d := by omega
    dsimp only
    rw [hsub, hd, Nat.add_mul, Nat.add_mul]
    omega
  · have hint : b.int ≤ a.int := by
      by_contra hlt
      have hmul := Nat.mul_le_mul_right L (show a.int + 1 ≤ b.int by omega)
      rw [Nat.add_mul] at hmul
      omega
    obtain ⟨d, hd⟩ := Nat.exists_eq_add_of_le hint
    dsimp only
    rw [hd, Nat.add_sub_cancel_left, Nat.add_mul]
    omega

end

/-- Settles O55: the chains give the parts of what ADD's core hands to `mkDec`, which overflows by the integer part. -/
theorem addDatapathAgrees : Obligations.AddDatapathAgrees := by
  unfold Obligations.AddDatapathAgrees
  intro t c s ha hb a b
  obtain ⟨hia, hsa, hfa⟩ := Dec.valid_iff.1 ha
  obtain ⟨-, hsb, hfb⟩ := Dec.valid_iff.1 hb
  have hla : a.scale ≤ alignScale a b := le_max_left _ _
  have hlb : b.scale ≤ alignScale a b := le_max_right _ _
  have hfa' : alignFrac a (alignScale a b) < alignLimit a b := alignFrac_lt hfa hla
  have hfb' : alignFrac b (alignScale a b) < alignLimit a b := alignFrac_lt hfb hlb
  have hs : alignScale a b ≤ Config.maxScale t := max_le hsa hsb
  obtain ⟨i, f, hparts, hf, hsum⟩ := addParts_eq hfa' hfb' t
  rw [exec_add ha hb, hparts]
  refine ⟨fun hn hnone => ?_, fun i' f' hn hsome => ?_, fun hn hle => ?_⟩
  · have hi : 2 ^ Config.width t ≤ i := by simpa using hnone
    rw [addCore_same_sign hn, ← hsum, ← deliver_ovf]
    exact congrArg (deliver · c .overflow s) (mkDec_comb_ovf (x := ⟨i, f, alignScale a b, a.neg⟩) hf hi _ _)
  · obtain ⟨hi, rfl, rfl⟩ : ¬2 ^ Config.width t ≤ i ∧ i = i' ∧ f = f' := by simpa using hsome
    rw [addCore_same_sign hn, ← hsum]
    exact deliver_mkDec_comb (x := ⟨i, f, alignScale a b, a.neg⟩) (Dec.valid_iff.2 ⟨not_le.1 hi, hs, hf⟩) _ _ c _
  · have hle' := (alignComb_le_iff hla hlb).2 hle
    obtain ⟨hi, hf, hdiff⟩ := subParts_spec hfa' hfb' hle'
    obtain ⟨n, hcore⟩ := addCore_other_sign (t := t) hn hle' s.draws
    rw [hcore, ← hdiff]
    exact deliver_mkDec_comb (x := ⟨(subParts a b).1, (subParts a b).2, alignScale a b, n⟩)
      (Dec.valid_iff.2 ⟨hi.trans_lt hia, hs, hf⟩) _ _ c _

/-- Settles O56: the product of two sums, multiplied out. -/
theorem mulPartialProductsSum : Obligations.MulPartialProductsSum := by
  unfold Obligations.MulPartialProductsSum
  intro a b
  rw [mulPartialSum, Dec.comb, Dec.comb, pow_add]
  ring

end Sys2Proof.Machine

/-! CMP and CANON (42_compare.md): what each ends with on valid operands, and why equal numbers have one canonical form. -/

namespace Sys2Proof.Machine

/-! ### The commands on valid operands (42_compare.md R241, R245) -/

section
variable {s : State} {t : Tier} (ha : s.latch.a.valid t = true)
include ha

theorem exec_cmp (hb : s.latch.b.valid t = true) :
    exec (.cmp t) s = .next (s.completeCmp (compare s.latch.a.toDec.val s.latch.b.toDec.val)) := by
  rw [exec, execCmp, withOperands_valid ha hb, cmpCore_eq ha hb]

theorem exec_canon : exec (.canon t) s = .next (s.completeValue (canonCore s.latch.a.toDec) s.draws) := by
  rw [exec, execCanon, withOperandA_valid ha]

end

/-! ### What STATUS.CMP shows of two numbers (10_state.md R44, 42_compare.md R241) -/

section
variable {x y : ℚ}

theorem cmpFieldOf_compare_of_lt (h : x < y) : cmpFieldOf (compare x y) = .less := by
  rw [compare_lt_iff_lt.2 h, cmpFieldOf]

theorem cmpFieldOf_compare_of_gt (h : y < x) : cmpFieldOf (compare x y) = .greater := by
  rw [compare_gt_iff_gt.2 h, cmpFieldOf]

theorem cmpFieldOf_compare_eq_equal : cmpFieldOf (compare x y) = .equal ↔ x = y := by
  rw [← compare_eq_iff_eq (a := x)]
  cases compare x y <;> decide

end

/-! ### Canonical uniqueness (42_compare.md R246) -/

section
variable {t : Tier} {a b : Dec} (ha : a.valid t = true) (hb : b.valid t = true)
include ha hb

/-- A valid value is determined by its number, its scale and its sign bit. -/
theorem Dec.eq_of_val_scale_neg (hval : a.val = b.val) (hscale : a.scale = b.scale) (hneg : a.neg = b.neg) : a = b := by
  obtain ⟨-, -, hfa⟩ := Dec.valid_iff.1 ha
  obtain ⟨-, -, hfb⟩ := Dec.valid_iff.1 hb
  have hmag : a.mag = b.mag := by rw [← Dec.abs_val, ← Dec.abs_val, hval]
  rw [Dec.mag, Dec.mag, hscale, div_left_inj' (pow10_pos _).ne'] at hmag
  exact Dec.ext_of_comb hfa hfb hscale (by exact_mod_cast hmag) hneg

/-- The scale and the sign of a canonical form are properties of its number alone. -/
theorem canonCore_eq_iff : canonCore a = canonCore b ↔ a.val = b.val := by
  obtain ⟨hva, hvala, hscalea, hnega⟩ := canonCore_spec ha
  obtain ⟨hvb, hvalb, hscaleb, hnegb⟩ := canonCore_spec hb
  refine ⟨fun h => by rw [← hvala, h, hvalb], fun h => ?_⟩
  have hscale : ∀ p, (canonCore a).scale ≤ p ↔ (canonCore b).scale ≤ p := fun p => by rw [← hscalea, ← hscaleb, h]
  exact Dec.eq_of_val_scale_neg hva hvb (by rw [hvala, hvalb, h]) (eq_of_forall_ge_iff hscale) (by rw [hnega, hnegb, h])

theorem Dec.toReg_eq_iff : a.toReg = b.toReg ↔ a = b :=
  ⟨fun h => by rw [← Dec.toReg_toDec ha, h, Dec.toReg_toDec hb], congrArg Dec.toReg⟩

end

/-- Settles O40: CMP's core is the order of the numbers, and each order has its code. -/
theorem cmpIsTheOrderOfTheNumbers : Obligations.CmpIsTheOrderOfTheNumbers := by
  unfold Obligations.CmpIsTheOrderOfTheNumbers
  intro t s ha hb
  exact ⟨_, exec_cmp ha hb, rfl, cmpFieldOf_compare_of_lt, cmpFieldOf_compare_eq_equal.2, cmpFieldOf_compare_of_gt⟩

/-- Settles O41: the canonical value is valid, so RES holds it without loss. -/
theorem canonIsTheShortestForm : Obligations.CanonIsTheShortestForm := by
  unfold Obligations.CanonIsTheShortestForm
  intro t s ha
  obtain ⟨hvalid, hval, hscale, hneg⟩ := canonCore_spec ha
  refine ⟨_, exec_canon ha, rfl, rfl, Dec.toReg_valid hvalid, ?_⟩
  rw [State.completeValue_res, Dec.toReg_toDec hvalid]
  exact ⟨hval, hscale, hneg⟩

/-- Settles O42: both sides say that the two numbers are the same. -/
theorem equalValuesHaveOneCanonicalForm : Obligations.EqualValuesHaveOneCanonicalForm := by
  unfold Obligations.EqualValuesHaveOneCanonicalForm
  intro t s ha hb
  refine ⟨_, _, _, exec_cmp ha hb, exec_canon ha, exec_canon hb, ?_⟩
  calc cmpFieldOf (compare s.latch.a.toDec.val s.latch.b.toDec.val) = .equal
      ↔ s.latch.a.toDec.val = s.latch.b.toDec.val := cmpFieldOf_compare_eq_equal
    _ ↔ canonCore s.latch.a.toDec = canonCore s.latch.b.toDec := (canonCore_eq_iff ha hb).symm
    _ ↔ (canonCore s.latch.a.toDec).toReg = (canonCore s.latch.b.toDec).toReg :=
      (Dec.toReg_eq_iff (canonCore_spec ha).1 (canonCore_spec hb).1).symm

end Sys2Proof.Machine

/-! ROUND (43_rounding.md): the seven commands by their shared core, what truncation keeps of a number, and the parts of
a fractional part. -/

namespace Sys2Proof.Machine

/-! ### The commands on valid operands (43_rounding.md R270 to R276) -/

theorem exec_round {s : State} {t : Tier} (ha : s.latch.a.valid t = true) (mode : RoundMode) (c : Bool) :
    exec (roundInstr mode t c) s = deliver (roundCore t s.latch.a.toDec (places s) mode s.draws) c .overflow s := by
  have hcommand : exec (roundInstr mode t c) s = roundCommand mode t c s := by cases mode <;> rfl
  rw [hcommand, roundCommand, withOperandA_valid ha]

/-- Settles O43: the core copies the operand or fits the rounded number to the tier, and `deliver` keeps either. -/
theorem roundingFollowsItsMode : Obligations.RoundingFollowsItsMode := by
  unfold Obligations.RoundingFollowsItsMode
  intro mode t c s hmode ha a p x
  rw [exec_round ha]
  have hround (hp : p < a.scale) := deliver_fits (s := s) (roundCore_fits ha s.draws hmode hp) c .overflow
  refine ⟨fun hp => ?_, fun hp => (hround hp).1, fun hp => (hround hp).2⟩
  have hcopy : roundCore t a (places s) mode s.draws = .value a s.draws := roundCore_copy s.draws hmode hp
  rw [hcopy]
  exact ⟨_, rfl, rfl, DecReg.toDec_toReg s.latch.a, rfl⟩

/-! ### ROUND.TRUNC (43_rounding.md R272) -/

/-- Truncation keeps the sign and takes the floor of the magnitude, so it moves a number toward zero. -/
theorem Dec.truncPlaces_val_toward_zero (x : Dec) (p : Nat) :
    |truncPlaces x.val p| ≤ |x.val| ∧ 0 ≤ truncPlaces x.val p * x.val := by
  have hmag := x.mag_nonneg
  have hfloor : (0 : ℚ) ≤ ⌊x.mag * 10 ^ p⌋ / 10 ^ p :=
    div_nonneg (Int.cast_nonneg (Int.floor_nonneg.2 (by positivity))) (pow10_pos p).le
  rw [Dec.abs_val, Dec.val_eq_mag, truncPlaces_signFactor_mul _ hmag]
  constructor
  · rw [abs_mul, abs_signFactor, one_mul, abs_of_nonneg hfloor, div_le_iff₀ (pow10_pos p)]
    exact Int.floor_le _
  · rw [mul_mul_mul_comm, signFactor_mul_self, one_mul]
    exact mul_nonneg hfloor hmag

/-- Settles O44: truncation does not raise the magnitude, so the operand's own bound rules OVERFLOW out. -/
theorem roundTruncNeverOverflows : Obligations.RoundTruncNeverOverflows := by
  unfold Obligations.RoundTruncNeverOverflows
  intro t c s ha
  obtain ⟨hcopy, hround, -⟩ := roundingFollowsItsMode .truncate t c s (by decide) ha
  rcases le_or_gt s.latch.a.toDec.scale s.latch.arg.toNat with hp | hp
  · obtain ⟨u, hu, hdone, hres, -⟩ := hcopy hp
    exact ⟨u, hu, hdone, by rw [hres], by rw [hres]; exact mul_self_nonneg _⟩
  · obtain ⟨hle, hsign⟩ := s.latch.a.toDec.truncPlaces_val_toward_zero s.latch.arg.toNat
    obtain ⟨u, hu, hdone, -, hval, -⟩ := hround hp (hle.trans_lt (Dec.abs_val_lt ha))
    exact ⟨u, hu, hdone, hval ▸ hle, hval ▸ hsign⟩

/-! ### ROUND.FRACT (43_rounding.md R262, R276) -/

/-- Fract keeps FRAC and SCALE and clears INT: its combined value is the fraction, which is below `10^scale`. -/
theorem roundCore_fract_parts {t : Tier} {a v : Dec} {p k k' : Nat} (ha : a.valid t = true)
    (hv : roundCore t a p .fract k = .value v k') : v.int = 0 ∧ v.frac = a.frac ∧ v.scale = a.scale := by
  obtain ⟨-, hs, hfrac⟩ := Dec.valid_iff.1 ha
  rw [roundCore, if_pos rfl] at hv
  obtain ⟨hvalid, hcomb, hscale, -⟩ := mkDec_value hs hv
  obtain ⟨-, -, hf⟩ := Dec.valid_iff.1 hvalid
  refine ⟨?_, ?_, hscale⟩
  · rw [← Dec.comb_div hf, hcomb, hscale, Nat.div_eq_of_lt hfrac]
  · rw [← Dec.comb_mod hf, hcomb, hscale, Nat.mod_eq_of_lt hfrac]

/-- Settles O45: Fract's core answers a value always, and RES holds each of its parts. -/
theorem roundFractIsTheFractionalPart : Obligations.RoundFractIsTheFractionalPart := by
  unfold Obligations.RoundFractIsTheFractionalPart
  intro t c s ha
  obtain ⟨v, k, hr, hvalid, hval, -⟩ := roundCore_fract (t := t) ha (places s) s.draws
  obtain ⟨hint, hfrac, hscale⟩ := roundCore_fract_parts ha hr
  obtain ⟨u, hu, hdone, hresValid, rfl⟩ := deliver_value (s := s) hr hvalid c .overflow
  exact ⟨u, (exec_round ha .fract c).trans hu, hdone, hresValid, hval, BitVec.eq_of_toNat_eq hscale,
    BitVec.eq_of_toNat_eq hint, BitVec.eq_of_toNat_eq hfrac⟩

end Sys2Proof.Machine

/-! Exceptions (60_exceptions.md): the three ways a command ends, illegal words, invalid operands, zero divisors, and
the fault state. -/

namespace Sys2Proof.Machine

/-! ### The three ways a command ends (60_exceptions.md R300, R310, R315) -/

section
variable {i : Instr} {s u : State}

/-- From `s`, a command ended normally in `u`, as the flags of STATUS other than CMP show it. -/
def EndsNormally (s u : State) : Prop :=
  u.status.busy = false ∧ u.status.done = true ∧ u.status.absent = s.status.absent ∧
    u.status.fault = s.status.fault ∧ u.status.cause = s.status.cause ∧ u.status.dropped = s.status.dropped ∧
    u.pending = false

/-- The six endings are normal, absent, or a fault with a cause that the command may raise. -/
theorem Ending.three_ways (h : Ending i s u) :
    EndsNormally s u ∨ (i.checked = true ∧ u = s.absent) ∨
      ∃ c, c ≠ .none ∧ c ≠ .illegalCommand ∧ (i.isKernel = true → c ≠ .invalidOperand) ∧ u = s.raiseFault c := by
  cases h with
  | absent hi => exact .inr (.inl ⟨hi, rfl⟩)
  | fault c hc hl hk => exact .inr (.inr ⟨c, hc, hl, hk, rfl⟩)
  | _ => exact .inl ⟨rfl, rfl, rfl, rfl, rfl, rfl, rfl⟩

/-- A command ends with DONE and the old cause, or it raises a fault. -/
theorem Ending.done_or_raiseFault (h : Ending i s u) :
    (u.status.done = true ∧ u.status.cause = s.status.cause) ∨
      ∃ c, c ≠ .illegalCommand ∧ (i.isKernel = true → c ≠ .invalidOperand) ∧ u = s.raiseFault c := by
  rcases h.three_ways with ⟨-, hdone, -, -, hcause, -⟩ | ⟨-, rfl⟩ | ⟨c, -, hl, hk, hu⟩
  · exact .inl ⟨hdone, hcause⟩
  · exact .inl ⟨rfl, rfl⟩
  · exact .inr ⟨c, hl, hk, hu⟩

theorem State.ne_raiseFault_of_done (h : u.status.done = true) (c : Cause) : u ≠ s.raiseFault c := by
  rintro rfl
  cases h

theorem State.raiseFault_inj {c d : Cause} (h : s.raiseFault c = s.raiseFault d) : c = d :=
  congrArg (fun u => u.status.cause) h

theorem Ending.ne_raiseFault_illegalCommand (h : Ending i s u) : u ≠ s.raiseFault .illegalCommand := by
  rcases h.done_or_raiseFault with ⟨hdone, -⟩ | ⟨c, hl, -, rfl⟩
  · exact State.ne_raiseFault_of_done hdone _
  · exact fun heq => hl (State.raiseFault_inj heq)

/-- A cause that a command newly shows comes from a fault that it raised. -/
theorem Ending.eq_raiseFault (h : Ending i s u) {c : Cause} (hs : s.status.cause ≠ c) (hu : u.status.cause = c) :
    u = s.raiseFault c ∧ (i.isKernel = true → c ≠ .invalidOperand) := by
  rcases h.done_or_raiseFault with ⟨-, hcause⟩ | ⟨c', -, hk, rfl⟩
  · exact absurd (hcause.symm.trans hu) hs
  · obtain rfl : c' = c := hu
    exact ⟨rfl, hk⟩

end

/-- Settles O14: a legal word ends in one of the three ways its command can, an illegal one in a fault. -/
theorem everyCommandEndsOneOfThreeWays : Obligations.EveryCommandEndsOneOfThreeWays := by
  unfold Obligations.EveryCommandEndsOneOfThreeWays
  intro s hmoves
  rw [step_unit hmoves]
  rcases unitMove_cases s with ⟨i, u, hdecode, hu, hend⟩ | ⟨_, -, hu⟩
  · refine ⟨u, hu, ?_⟩
    rcases hend.three_ways with hnormal | ⟨hchecked, rfl⟩ | ⟨c, hc, -, -, rfl⟩
    · exact .inl hnormal
    · exact .inr (.inl ⟨⟨i, hdecode, hchecked⟩, rfl⟩)
    · exact .inr (.inr ⟨c, hc, rfl⟩)
  · exact ⟨_, hu, .inr (.inr ⟨.illegalCommand, by decide, rfl⟩)⟩

/-! ### Illegal words (60_exceptions.md R302, 30_encoding.md R106) -/

/-- The six cases of R302 on the word as a number are the words that name no command. -/
theorem illegal_iff_not_exists_decode_ok (w : Word) :
    (let n := w.toNat
     let op := n % 64
     let tier := n / 64 % 4
     let mode := n / 256 % 8
     let c := n / 2048 % 2
     op ∉ [1, 2, 3, 4, 5, 6, 7, 8, 9, 10, 16, 17, 18, 19, 20] ∨ n / 4096 ≠ 0 ∨ (op = 8 ∧ mode = 7) ∨
       (op ≠ 8 ∧ mode ≠ 0) ∨ (c = 1 ∧ op ∉ [1, 2, 3, 6, 8]) ∨ (tier ≠ 3 ∧ op ∈ [17, 19])) ↔
      ¬∃ i, decode w = .ok i := by
  rw [decodeAcceptsExactlyLegalWords w]
  simp only [List.mem_cons, List.not_mem_nil, or_false]
  split <;> omega

/-- Settles O13: an illegal word raises ILLEGAL_COMMAND, and no ending of a legal word's command has that cause. -/
theorem illegalWordsFaultAtCompletion : Obligations.IllegalWordsFaultAtCompletion := by
  unfold Obligations.IllegalWordsFaultAtCompletion
  intro s hmoves
  rw [step_unit hmoves]
  rcases unitMove_cases s with ⟨i, u, hdecode, hu, hend⟩ | ⟨e, hdecode, hu⟩
  · obtain ⟨_, _, _, _, _, _, hwrites⟩ := hend.writesOnly
    refine ⟨u, hu, by rw [hwrites], (illegal_iff_not_exists_decode_ok _).trans ⟨fun hillegal => ?_, fun hfault => ?_⟩⟩
    · exact absurd ⟨i, hdecode⟩ hillegal
    · exact absurd hfault hend.ne_raiseFault_illegalCommand
  · have hillegal : ¬∃ i, decode s.latch.cmd = .ok i := by simp [hdecode]
    exact ⟨_, hu, rfl, (illegal_iff_not_exists_decode_ok _).trans ⟨fun _ => rfl, fun _ => hillegal⟩⟩

/-! ### Invalid operands (10_state.md R32, 60_exceptions.md R303) -/

section
variable {s : State} {t : Tier}

theorem Dec.not_valid_iff {x : Dec} : ¬x.valid t = true ↔
    2 ^ Config.width t ≤ x.int ∨ 2 ^ Config.width t ≤ x.frac ∨ Config.maxScale t < x.scale ∨
      10 ^ x.scale ≤ x.frac := by
  simp only [Dec.valid, Bool.and_eq_true, decide_eq_true_eq, not_and_or, not_lt, not_le, or_assoc]

theorem DecReg.not_valid_iff {r : DecReg} : ¬r.valid t = true ↔
    2 ^ Config.width t ≤ r.int.toNat ∨ 2 ^ Config.width t ≤ r.frac.toNat ∨
      Config.maxScale t < r.scale.toNat ∨ 10 ^ r.scale.toNat ≤ r.frac.toNat := Dec.not_valid_iff

theorem exec_invalid_a {i : Instr} (hi : i.isKernel = false) (ha : ¬s.latch.a.valid i.tier = true) :
    exec i s = .next (s.raiseFault .invalidOperand) := by
  cases i with
  | mulw | mulq | divw | divq | isqrt => cases hi
  | _ => exact if_neg ha

theorem exec_invalid_b {i : Instr} (hi : i.readsB = true) (ha : s.latch.a.valid i.tier = true)
    (hb : ¬s.latch.b.valid i.tier = true) : exec i s = .next (s.raiseFault .invalidOperand) := by
  cases i with
  | add | sub | mul | div | rem | cmp => exact (if_pos ha).trans (if_neg hb)
  | _ => cases hi

end

/-- Settles O27: a command that is not the kernel's checks `a`, and then `b` where it reads it, before anything else; a
kernel command has no ending with that cause. -/
theorem invalidOperandsFault : Obligations.InvalidOperandsFault := by
  unfold Obligations.InvalidOperandsFault
  refine ⟨fun i s hi hbad => ?_, fun i s u hi hexec hcause hnew => ?_⟩
  · by_cases ha : s.latch.a.valid i.tier = true
    · rcases hbad with hbad | ⟨hreads, hbad⟩
      · exact absurd ha (DecReg.not_valid_iff.2 hbad)
      · exact exec_invalid_b hreads ha (DecReg.not_valid_iff.2 hbad)
    · exact exec_invalid_a hi ha
  · exact ((exec_next hexec).eq_raiseFault hcause hnew).2 hi rfl

/-! ### Cores that find a zero divisor (41_arith.md R190, R192, R194, 60_exceptions.md R304) -/

section
variable {T : Config.TargetScales} {t : Tier} {P : Prop}

/-- A core that raises DIV_BY_ZERO only where `P` holds. -/
def Computed.DivByZeroOnlyIf (r : Computed) (P : Prop) : Prop := r = .raise .divByZero → P

theorem Computed.DivByZeroOnlyIf.value (v : Dec) (k : Nat) : (Computed.value v k).DivByZeroOnlyIf P := nofun

theorem Computed.DivByZeroOnlyIf.bind {r : Computed} {f : Dec → Nat → Computed} (hr : r.DivByZeroOnlyIf P)
    (hf : ∀ v k, (f v k).DivByZeroOnlyIf P) : (r.bind f).DivByZeroOnlyIf P := by
  cases r with
  | value v k => exact hf v k
  | ovf => nofun
  | raise c => exact hr

theorem mkDec_divByZeroOnlyIf (q p : Nat) (n : Bool) (k : Nat) : (mkDec t q p n k).DivByZeroOnlyIf P :=
  fun h => absurd h (mkDec_ne_raise t q p n k _)

theorem addCore_divByZeroOnlyIf (a b : Dec) (k : Nat) : (addCore t a b k).DivByZeroOnlyIf P := by
  fun_cases addCore t a b k <;> exact mkDec_divByZeroOnlyIf _ _ _ _

theorem mulCore_divByZeroOnlyIf (a b : Dec) (k : Nat) : (mulCore T t a b k).DivByZeroOnlyIf P := by
  fun_cases mulCore T t a b k <;> exact mkDec_divByZeroOnlyIf _ _ _ _

theorem roundCore_divByZeroOnlyIf (a : Dec) (p : Nat) (mode : RoundMode) (k : Nat) :
    (roundCore t a p mode k).DivByZeroOnlyIf P := by
  fun_cases roundCore t a p mode k with
  | case1 => exact mkDec_divByZeroOnlyIf _ _ _ _
  | case2 => exact .value _ _
  | case3 => exact mkDec_divByZeroOnlyIf _ _ _ _

theorem sqrtCore_divByZeroOnlyIf (a : Dec) (k : Nat) : (sqrtCore t a k).DivByZeroOnlyIf P := by
  fun_cases sqrtCore t a k with
  | case1 => exact .value _ _
  | case2 => nofun
  | case3 => exact mkDec_divByZeroOnlyIf _ _ _ _

theorem divCore_divByZeroOnlyIf (a b : Dec) (k : Nat) : (divCore T t a b k).DivByZeroOnlyIf (b.comb = 0) := by
  fun_cases divCore T t a b k with
  | case1 hb => exact fun _ => hb
  | case2 => exact mkDec_divByZeroOnlyIf _ _ _ _

/-- After REM's division only a product and a difference are computed. -/
theorem remCore_divByZeroOnlyIf (a b : Dec) (k : Nat) : (remCore T t a b k).DivByZeroOnlyIf (b.comb = 0) :=
  (divCore_divByZeroOnlyIf a b k).bind fun _ _ =>
    (mulCore_divByZeroOnlyIf _ _ _).bind fun _ _ => addCore_divByZeroOnlyIf _ _ _

theorem powLoop_divByZeroOnlyIf (fuel e : Nat) (r b : Dec) (k : Nat) :
    (powLoop T t fuel e r b k).DivByZeroOnlyIf P := by
  induction fuel generalizing e r b k with
  | zero => exact .value r k
  | succ fuel ih =>
    have hrest (r₁ : Dec) (k₁ : Nat) : (powRest T t fuel (e / 2) r₁ b k₁).DivByZeroOnlyIf P := by
      rw [powRest]
      split
      · exact .value _ _
      · exact (mulCore_divByZeroOnlyIf _ _ _).bind fun _ _ => ih _ _ _ _
    rcases Nat.mod_two_eq_zero_or_one e with heven | hodd
    · rw [powLoop_even heven]
      exact hrest r k
    · rw [powLoop_odd hodd]
      exact (mulCore_divByZeroOnlyIf _ _ _).bind hrest

theorem powCore_neg_zero {a : Dec} {n : Int} (hn : n < 0) (ha : a.comb = 0) (k : Nat) :
    powCore T t a n k = .raise .divByZero := by
  rw [powCore, if_neg hn.ne, if_pos hn, divCore_zero t .one k ha]
  rfl

/-- POW divides only to take the reciprocal of its base, for a negative exponent. -/
theorem powCore_divByZeroOnlyIf (a : Dec) (n : Int) (k : Nat) :
    (powCore T t a n k).DivByZeroOnlyIf (n < 0 ∧ a.comb = 0) := by
  rcases lt_trichotomy n 0 with hn | rfl | hn
  · rw [powCore, if_neg hn.ne, if_pos hn]
    have hdiv : (divCore T t .one a k).DivByZeroOnlyIf (n < 0 ∧ a.comb = 0) :=
      fun h => ⟨hn, divCore_divByZeroOnlyIf .one a k h⟩
    exact hdiv.bind fun _ _ => powLoop_divByZeroOnlyIf _ _ _ _ _
  · exact .value _ _
  · rw [powCore_pos hn]
    exact powLoop_divByZeroOnlyIf _ _ _ _ _

end

/-! ### Commands that find a zero divisor (60_exceptions.md R304) -/

section
variable {s : State} {P : Prop}

/-- A command that raises DIV_BY_ZERO from `s` only where `P` holds. -/
def DivByZeroOnlyIf (s : State) (r : Result) (P : Prop) : Prop := r = .next (s.raiseFault .divByZero) → P

theorem divByZeroOnlyIf_of_done {u : State} (h : u.status.done = true) : DivByZeroOnlyIf s (.next u) P :=
  fun heq => absurd (Host.Outcome.next.inj heq) (State.ne_raiseFault_of_done h _)

theorem divByZeroOnlyIf_of_cause {c : Cause} (h : c ≠ .divByZero) : DivByZeroOnlyIf s (.next (s.raiseFault c)) P :=
  fun heq => absurd (State.raiseFault_inj (Host.Outcome.next.inj heq)) h

theorem divByZeroOnlyIf_deliver {r : Computed} (hr : r.DivByZeroOnlyIf P) (c : Bool) {cause : Cause}
    (hcause : cause ≠ .divByZero) : DivByZeroOnlyIf s (deliver r c cause s) P := by
  cases r with
  | value v k => exact divByZeroOnlyIf_of_done rfl
  | ovf =>
    cases c
    · exact divByZeroOnlyIf_of_cause hcause
    · exact divByZeroOnlyIf_of_done rfl
  | raise e => exact fun heq => hr (congrArg _ (State.raiseFault_inj (Host.Outcome.next.inj heq)))

theorem divByZeroOnlyIf_withOperandA (t : Tier) {f : Dec → Result}
    (hf : DivByZeroOnlyIf s (f s.latch.a.toDec) P) : DivByZeroOnlyIf s (withOperandA t s f) P := by
  unfold withOperandA
  split
  · exact hf
  · exact divByZeroOnlyIf_of_cause (by decide)

theorem divByZeroOnlyIf_withOperands (t : Tier) {f : Dec → Dec → Result}
    (hf : DivByZeroOnlyIf s (f s.latch.a.toDec s.latch.b.toDec) P) : DivByZeroOnlyIf s (withOperands t s f) P := by
  refine divByZeroOnlyIf_withOperandA t ?_
  split
  · exact hf
  · exact divByZeroOnlyIf_of_cause (by decide)

theorem divByZeroOnlyIf_divideKernel (W n d : Nat) : DivByZeroOnlyIf s (divideKernel W n d s) (d = 0) := by
  fun_cases divideKernel W n d s with
  | case1 hd => exact fun _ => hd
  | case2 => exact divByZeroOnlyIf_of_cause (by decide)
  | case3 => exact divByZeroOnlyIf_of_done rfl

theorem divByZeroOnlyIf_roundCommand (mode : RoundMode) (t : Tier) (c : Bool) :
    DivByZeroOnlyIf s (roundCommand mode t c s) P :=
  divByZeroOnlyIf_withOperandA t (divByZeroOnlyIf_deliver (roundCore_divByZeroOnlyIf _ _ _ _) c (by decide))

/-- The five cases of R304: the latch holds a zero divisor of the command. -/
def ZeroDivisor (i : Instr) (s : State) : Prop :=
  match i with
  | .div _ | .rem _ => s.latch.b.toDec.comb = 0
  | .pow _ _ => exponent s < 0 ∧ s.latch.a.toDec.comb = 0
  | .divw t => kernelB s (Config.width t) = 0
  | .divq => kernelB s 256 = 0
  | _ => False

theorem exec_divByZeroOnlyIf (i : Instr) (s : State) : DivByZeroOnlyIf s (exec i s) (ZeroDivisor i s) := by
  unfold exec
  cases i with
  | add t c =>
    exact divByZeroOnlyIf_withOperands t (divByZeroOnlyIf_deliver (addCore_divByZeroOnlyIf _ _ _) c (by decide))
  | sub t c =>
    exact divByZeroOnlyIf_withOperands t (divByZeroOnlyIf_deliver (addCore_divByZeroOnlyIf _ _ _) c (by decide))
  | mul t c =>
    exact divByZeroOnlyIf_withOperands t (divByZeroOnlyIf_deliver (mulCore_divByZeroOnlyIf _ _ _) c (by decide))
  | pow t c =>
    exact divByZeroOnlyIf_withOperandA t (divByZeroOnlyIf_deliver (powCore_divByZeroOnlyIf _ _ _) c (by decide))
  | div t =>
    exact divByZeroOnlyIf_withOperands t (divByZeroOnlyIf_deliver (divCore_divByZeroOnlyIf _ _ _) false (by decide))
  | rem t =>
    exact divByZeroOnlyIf_withOperands t (divByZeroOnlyIf_deliver (remCore_divByZeroOnlyIf _ _ _) false (by decide))
  | sqrt t =>
    exact divByZeroOnlyIf_withOperandA t (divByZeroOnlyIf_deliver (sqrtCore_divByZeroOnlyIf _ _) false (by decide))
  | roundFloor t c => exact divByZeroOnlyIf_roundCommand .floor t c
  | roundCeil t c => exact divByZeroOnlyIf_roundCommand .ceiling t c
  | roundTrunc t c => exact divByZeroOnlyIf_roundCommand .truncate t c
  | roundHalfUp t c => exact divByZeroOnlyIf_roundCommand .halfUp t c
  | roundHalfDown t c => exact divByZeroOnlyIf_roundCommand .halfDown t c
  | roundHalfEven t c => exact divByZeroOnlyIf_roundCommand .halfEven t c
  | roundFract t c => exact divByZeroOnlyIf_roundCommand .fract t c
  | cmp t => exact divByZeroOnlyIf_withOperands t (divByZeroOnlyIf_of_done rfl)
  | canon t => exact divByZeroOnlyIf_withOperandA t (divByZeroOnlyIf_of_done rfl)
  | mulw | mulq | isqrt => exact divByZeroOnlyIf_of_done rfl
  | divw t => exact divByZeroOnlyIf_divideKernel _ _ _
  | divq => exact divByZeroOnlyIf_divideKernel _ _ _

theorem kernelB_full_eq_zero_iff : kernelB s 256 = 0 ↔ s.latch.kb = 0 := by
  rw [kernelB_full, ← BitVec.toNat_inj]
  rfl

end

/-- Settles O35: each zero divisor's core raises DIV_BY_ZERO and `deliver` keeps a raised fault, checked or not; a cause
that is new is a fault that was raised, and no other core or kernel command raises this one. -/
theorem zeroDivisorsAlwaysFault : Obligations.ZeroDivisorsAlwaysFault := by
  unfold Obligations.ZeroDivisorsAlwaysFault
  refine fun s => ⟨fun t ha hb hz => ⟨?_, ?_⟩, fun t c ha hn hz => ?_, fun t hz => ?_, fun hz => ?_,
    fun i u hexec hcause hnew => ?_⟩
  · rw [exec_div ha hb, divCore_zero t _ _ hz]
    rfl
  · rw [exec_rem ha hb, remCore_zero t _ _ hz]
    rfl
  · rw [exec_pow ha, powCore_neg_zero (n := exponent s) hn hz]
    rfl
  · exact if_pos hz
  · exact if_pos (kernelB_full_eq_zero_iff.2 hz)
  · obtain ⟨rfl, -⟩ := (exec_next hexec).eq_raiseFault hcause hnew
    have hzero := exec_divByZeroOnlyIf i s hexec
    cases i with
    | div t => exact .inl ⟨t, rfl, hzero⟩
    | rem t => exact .inr (.inl ⟨t, rfl, hzero⟩)
    | pow t c => exact .inr (.inr (.inl ⟨t, c, rfl, hzero⟩))
    | divw t => exact .inr (.inr (.inr (.inl ⟨t, rfl, hzero⟩)))
    | divq => exact .inr (.inr (.inr (.inr ⟨rfl, kernelB_full_eq_zero_iff.1 hzero⟩)))
    | _ => exact hzero.elim

/-! ### The fault state (60_exceptions.md R311, R324) -/

section
variable {s u : State}

/-- `u` shows the outcome that `s` shows: STATUS's fault, the command and its latch, and the results. -/
def KeepsOutcome (s u : State) : Prop :=
  u.status.fault = s.status.fault ∧ u.status.cause = s.status.cause ∧ u.pending = s.pending ∧ u.cmd = s.cmd ∧
    u.latch = s.latch ∧ u.res = s.res ∧ u.kq = s.kq ∧ u.kr = s.kr

/-- In the fault state no issue is accepted, so a host write resets or leaves the outcome as it is. -/
theorem writeWord_faulted (hf : s.status.fault = true) (off : Nat) (v : Word) :
    (slotOf off = .ctrl ∧ v.getLsbD 0 = true ∧ writeWord s off v = s.resetUnit) ∨
      KeepsOutcome s (writeWord s off v) := by
  rcases writeWord_cases s off v with hreset | ⟨-, heq⟩ | ⟨_, _, _, _, _, heq⟩
  · exact .inl hreset
  · rcases s.issue_cases v with ⟨-, hclear, -⟩ | ⟨-, hdrop⟩
    · simp [hf] at hclear
    · rw [heq, hdrop]
      exact .inr ⟨rfl, rfl, rfl, rfl, rfl, rfl, rfl, rfl⟩
  · rw [heq]
    exact .inr ⟨rfl, rfl, rfl, rfl, rfl, rfl, rfl, rfl⟩

theorem HostOp.resets_wr {addr size off : Nat} (h : windowOffset addr size = .ok off) {v : HostSource}
    (hslot : slotOf off = .ctrl) (hv : (s.sourceValue v).getLsbD 0 = true) :
    (HostOp.wr addr size v).resets s = true := by
  simp [HostOp.resets, h, hslot, hv]

theorem hostMove_faulted {op : HostOp} (hf : s.status.fault = true) (hm : hostMove op s = .next u) :
    KeepsOutcome s u ∨ (op.resets s = true ∧ u = s.advanceHost.resetUnit) := by
  rcases hostMove_next hm with ⟨t, w, rfl⟩ | ⟨pc, rfl⟩ | ⟨addr, size, v, off, rfl, hoff, rfl⟩
  · exact .inl ⟨rfl, rfl, rfl, rfl, rfl, rfl, rfl, rfl⟩
  · exact .inl ⟨rfl, rfl, rfl, rfl, rfl, rfl, rfl, rfl⟩
  · rcases writeWord_faulted (s := s.advanceHost) hf off (s.sourceValue v) with ⟨hslot, hv, heq⟩ | hkeeps
    · exact .inr ⟨HostOp.resets_wr hoff hslot hv, heq⟩
    · exact .inl hkeeps

theorem State.Inv.idle_of_fault (h : s.Inv) (hf : s.status.fault = true) : s.pending = false :=
  h.pending_busy.trans (h.fault_not_done hf).2

end

/-- Settles O19: nothing is pending in the fault state, so only the host moves, and of its moves only a reset changes
the outcome. -/
theorem faultStateIsLeftOnlyByReset : Obligations.FaultStateIsLeftOnlyByReset := by
  unfold Obligations.FaultStateIsLeftOnlyByReset
  intro s u hinv hf hstep
  have hidle : s.pending = false := hinv.idle_of_fault hf
  have hstays : s.unitMoves = false := State.not_unitMoves_of_idle hidle
  rcases step_next hstep with ⟨hmoves, -⟩ | ⟨hmoves, -⟩ | ⟨-, op, hop, hm⟩
  · simp [hstays] at hmoves
  · simp [hstays] at hmoves
  · rcases hostMove_faulted hf hm with ⟨hfault, hcause, hpending, hrest⟩ | ⟨hreset, rfl⟩
    · exact .inl ⟨hfault.trans hf, hcause, hpending.trans hidle, hrest⟩
    · exact .inr ⟨op, hop, hreset, rfl, rfl, rfl, rfl⟩

end Sys2Proof.Machine

/-! The steps of the two agents and their hazards (70_reset_and_hazards.md): which agent moves, where the run ends, and
what a host can do to a command that runs. -/

namespace Sys2Proof.Machine

/-! ### Which agent moves, and where neither does (70_reset_and_hazards.md R350, R359) -/

section
variable {s : State}

theorem State.unitMoves_iff :
    s.unitMoves = true ↔ s.pending = true ∧ (s.latency = 0 ∨ s.prog.length ≤ s.hostPc) := by
  simp [State.unitMoves, State.hostDone]

theorem State.hostPc_lt_of_move {op : HostOp} (hop : s.prog[s.hostPc]? = some op) : s.hostPc < s.prog.length :=
  (List.getElem?_eq_some_iff.1 hop).1

theorem State.not_unitMoves_of_move {op : HostOp} (hop : s.prog[s.hostPc]? = some op)
    (h : s.pending = false ∨ 0 < s.latency) : s.unitMoves = false := by
  have hpc := State.hostPc_lt_of_move hop
  rw [← Bool.not_eq_true, State.unitMoves_iff]
  rintro ⟨hpending, hlatency⟩
  rcases h with hidle | hwait
  · simp [hidle] at hpending
  · omega

/-- The unit's move never stops the model. -/
theorem unitMove_next (s : State) : ∃ u, unitMove s = .next u := by
  rcases unitMove_cases s with ⟨_, u, -, hu, -⟩ | ⟨_, -, hu⟩
  · exact ⟨u, hu⟩
  · exact ⟨_, hu⟩

/-- Of the three ways of `step`, only the one where neither agent has a move is a fault. -/
theorem step_fault {r : Fault} (h : step s = .fault r) : s.unitMoves = false ∧ s.prog[s.hostPc]? = none := by
  cases hmoves : s.unitMoves with
  | true =>
    obtain ⟨u, hu⟩ := unitMove_next s
    simp [step_unit hmoves, hu] at h
  | false =>
    cases hop : s.prog[s.hostPc]? with
    | none => exact ⟨rfl, rfl⟩
    | some op => exact absurd (step_host hmoves hop ▸ h) (hostMove_ne_fault op s r)

end

/-- Settles O11: the two clauses are the unit's turn and the host's. -/
theorem stepRunsTheDecodedCommand : Obligations.StepRunsTheDecodedCommand := by
  unfold Obligations.StepRunsTheDecodedCommand
  constructor
  · intro s i hpending hturn hdecode
    rw [step_unit (State.unitMoves_iff.2 ⟨hpending, hturn⟩), unitMove, hdecode]
  · exact fun s op hturn hop => step_host (State.not_unitMoves_of_move hop hturn) hop

/-- Settles O12: neither agent's move faults, and where the host has ended the unit moves unless it is idle. -/
theorem runEndsExactlyWhenIdleAndHostDone : Obligations.RunEndsExactlyWhenIdleAndHostDone := by
  unfold Obligations.RunEndsExactlyWhenIdleAndHostDone
  intro s
  constructor
  · rintro ⟨r, hfault⟩
    obtain ⟨hmoves, hnone⟩ := step_fault hfault
    have hdone : s.prog.length ≤ s.hostPc := List.getElem?_eq_none_iff.1 hnone
    refine ⟨hdone, Bool.eq_false_iff.2 fun hpending => ?_⟩
    exact absurd (State.unitMoves_iff.2 ⟨hpending, .inr hdone⟩) (by simp [hmoves])
  · rintro ⟨hdone, hidle⟩
    exact ⟨.runEnded, step_ended (State.not_unitMoves_of_idle hidle) (List.getElem?_eq_none_iff.2 hdone)⟩

/-! ### The host while a command runs (70_reset_and_hazards.md R352, R355) -/

/-- The state with all that a host can change while a command runs, short of a reset, set to zero: the operand
registers, DROPPED, and the host's own place, temporaries and count of moves. -/
def State.maskHost (s : State) : State :=
  { s with opa := .zero, opb := .zero, arg := 0, ka := 0, kb := 0, status := { s.status with dropped := false },
           latency := 0, hostPc := 0, temps := Vector.replicate 8 0 }

/-- An outcome neither reads nor writes what the host can change. -/
theorem Completion.write_maskHost (s : State) (c : Completion) : c.write s.maskHost = (c.write s).maskHost := by
  cases c <;> rfl

theorem unitMove_decidedBy {l : Latch} {k : Nat} {T : Config.TargetScales} : DecidedBy l k T unitMove := by
  unfold DecidedBy
  cases hdecode : decode l.cmd with
  | ok i =>
    obtain ⟨c, hc⟩ := exec_decidedBy (l := l) (k := k) (T := T) i
    refine ⟨c, fun s => Eq.trans ?_ (hc s)⟩
    simp only [unitMove, State.withInputs, hdecode]
  | error e =>
    refine ⟨.fault .illegalCommand, fun s => ?_⟩
    simp only [unitMove, State.withInputs, hdecode, Completion.write]

section
variable {s s' u : State}

theorem unitMove_maskHost (h : unitMove s = .next u) : unitMove s.maskHost = .next u.maskHost := by
  obtain ⟨c, hc⟩ := unitMove_decidedBy (l := s.latch) (k := s.draws) (T := s.target)
  obtain rfl : c.write s = u := Host.Outcome.next.inj ((hc s).symm.trans h)
  exact (hc s.maskHost).trans (congrArg _ (Completion.write_maskHost s c))

/-- States that only a host's moves tell apart complete alike. -/
theorem unitMove_congr_maskHost {v : State} (hmask : s'.maskHost = s.maskHost) (hu : unitMove s' = .next u)
    (hv : unitMove s = .next v) : u.maskHost = v.maskHost := by
  have hu' := unitMove_maskHost hu
  rw [hmask, unitMove_maskHost hv] at hu'
  exact (Host.Outcome.next.inj hu').symm

/-- While BUSY, an issue attempt is dropped, so a write that is no reset changes an operand register or DROPPED. -/
theorem writeWord_busy (hbusy : s.status.busy = true) {off : Nat} {v : Word}
    (hreset : ¬(slotOf off = .ctrl ∧ v.getLsbD 0 = true)) :
    (writeWord s off v).maskHost = s.maskHost ∧ (writeWord s off v).latency = s.latency := by
  rcases writeWord_cases s off v with ⟨hslot, hv, -⟩ | ⟨-, heq⟩ | ⟨_, _, _, _, _, heq⟩
  · exact absurd ⟨hslot, hv⟩ hreset
  · rcases s.issue_cases v with ⟨hidle, -⟩ | ⟨-, hdrop⟩
    · simp [hbusy] at hidle
    · rw [heq, hdrop]
      exact ⟨rfl, rfl⟩
  · rw [heq]
    exact ⟨rfl, rfl⟩

theorem hostMove_busy {op : HostOp} (hbusy : s.status.busy = true) (hreset : op.resets s = false)
    (hm : hostMove op s = .next u) : u.maskHost = s.maskHost ∧ u.latency = s.latency - 1 := by
  rcases hostMove_next hm with ⟨t, w, rfl⟩ | ⟨pc, rfl⟩ | ⟨addr, size, v, off, rfl, hoff, rfl⟩
  · exact ⟨rfl, rfl⟩
  · exact ⟨rfl, rfl⟩
  · refine writeWord_busy (s := s.advanceHost) hbusy fun ⟨hslot, hv⟩ => ?_
    simp [HostOp.resets_wr hoff hslot hv] at hreset

theorem run_one_of_unitMoves (h : s.unitMoves = true) : Sys2Proof.core.run 1 s = unitMove s := by
  obtain ⟨u, hu⟩ := unitMove_next s
  exact (run_succ_next ((step_unit h).trans hu)).trans hu.symm

/-- A host that is quiet for the latency of a command brings the run to the unit's move, with the command as it was. -/
theorem run_quiet {n : Nat} (hinv : s.Inv) (hpending : s.pending = true) (hlatency : s.latency = n)
    (hquiet : QuietFor n s) :
    ∃ k ≤ n, ∃ s', Sys2Proof.core.run (k + 1) s = unitMove s' ∧ s'.unitMoves = true ∧ s'.maskHost = s.maskHost := by
  induction n generalizing s with
  | zero =>
    have hmoves : s.unitMoves = true := State.unitMoves_iff.2 ⟨hpending, .inl hlatency⟩
    exact ⟨0, le_rfl, s, run_one_of_unitMoves hmoves, hmoves, rfl⟩
  | succ n ih =>
    cases hmoves : s.unitMoves with
    | true => exact ⟨0, Nat.zero_le _, s, run_one_of_unitMoves hmoves, hmoves, rfl⟩
    | false =>
      obtain hunit | ⟨op, t, hop, hreset, hm, hquiet⟩ := hquiet
      · simp [hunit] at hmoves
      · obtain ⟨hmask, hlat⟩ := hostMove_busy (hinv.pending_busy ▸ hpending) hreset hm
        have hpending' : t.pending = true := (congrArg State.pending hmask).trans hpending
        obtain ⟨k, hk, s', hrun, hmoves', hmask'⟩ := ih (hostMove_inv hinv hm) hpending' (by omega) hquiet
        have hstep : step s = .next t := (step_host hmoves hop).trans hm
        exact ⟨k + 1, Nat.succ_le_succ hk, s', (run_succ_next hstep).trans hrun, hmoves', hmask'.trans hmask⟩

/-- The registers and flags that the end of a command shows, apart from DROPPED, lie outside the mask. -/
theorem results_eq_of_maskHost {v : State} (h : u.maskHost = v.maskHost) :
    u.res = v.res ∧ u.kq = v.kq ∧ u.kr = v.kr ∧ u.cmd = v.cmd ∧ u.draws = v.draws ∧
      u.status = { v.status with dropped := u.status.dropped } :=
  ⟨congrArg (·.res) h, congrArg (·.kq) h, congrArg (·.kr) h, congrArg (·.cmd) h, congrArg (·.draws) h,
    congrArg (fun r => { r.status with dropped := u.status.dropped }) h⟩

end

/-- Settles O17: the quiet host lets the unit come to its move, and each of the three ways it ends clears BUSY. -/
theorem pendingCommandCompletes : Obligations.PendingCommandCompletes := by
  unfold Obligations.PendingCommandCompletes
  intro n s hinv hpending hlatency hquiet
  obtain ⟨k, hk, s', hrun, hmoves, -⟩ := run_quiet hinv hpending hlatency hquiet
  obtain ⟨u, hstep, hend⟩ := everyCommandEndsOneOfThreeWays s' hmoves
  refine ⟨k, hk, u, hrun.trans ((step_unit hmoves).symm.trans hstep), ?_⟩
  rcases hend with ⟨hbusy, hdone, -, -, -, -, hidle⟩ | ⟨-, rfl⟩ | ⟨c, -, rfl⟩
  · exact ⟨hidle, hbusy, .inl hdone⟩
  · exact ⟨rfl, rfl, .inl rfl⟩
  · exact ⟨rfl, rfl, .inr rfl⟩

/-- Settles O18: a quiet host changes nothing that the completion reads or that its end shows, but DROPPED. -/
theorem hostMovesWhileBusyKeepTheResult : Obligations.HostMovesWhileBusyKeepTheResult := by
  unfold Obligations.HostMovesWhileBusyKeepTheResult
  intro n s hinv hpending hlatency hquiet
  obtain ⟨k, hk, s', hrun, -, hmask⟩ := run_quiet hinv hpending hlatency hquiet
  obtain ⟨u, hu⟩ := unitMove_next s'
  obtain ⟨v, hv⟩ := unitMove_next s
  exact ⟨k, hk, u, v, hrun.trans hu, hv, results_eq_of_maskHost (unitMove_congr_maskHost hmask hu hv)⟩

end Sys2Proof.Machine

/-! What a host's write to CTRL and to CMD does: the reset of the unit and the issue of a command
(70_reset_and_hazards.md, sections 1 and 2). -/

namespace Sys2Proof.Machine

/-- Where the host's next move is a write at an offset of the window, the step is that write. -/
theorem step_wr {s : State} {v : HostSource} {off : Nat} (hmoves : s.unitMoves = false)
    (hok : windowOffsetOk off = true) (hop : s.prog[s.hostPc]? = some (.wr (Config.windowBase + off) 4 v)) :
    step s = .next (writeWord s.advanceHost off (s.sourceValue v)) := by
  obtain ⟨hlt, h4⟩ := windowOffsetOk_iff.1 hok
  exact (step_host hmoves hop).trans (hostMove_wr (windowOffset_base hlt h4))

theorem writeWord_cmd (s : State) (v : Word) : writeWord s 0x00C v = s.issue v := rfl

/-- An issue leaves FAULT as it is; an accepted one finds it clear. -/
theorem Status.issued_of_not_fault {s : Status} (hfault : s.fault = false) :
    s.issued = ⟨true, false, false, false, s.cause, .none, false⟩ := by
  rw [issued, hfault]

/-- Settles O2: the step is a write to CTRL, which looks at bit 0 alone. -/
theorem controlWriteResetsAtOnce : Obligations.ControlWriteResetsAtOnce := by
  unfold Obligations.ControlWriteResetsAtOnce
  intro s v hmoves hop
  have hstep := step_wr hmoves (by decide) hop
  rw [writeWord_ctrl] at hstep
  refine ⟨rfl, fun hbit => ?_, fun hbit => ?_⟩
  · rw [hstep, if_pos hbit]
    rfl
  · rw [hstep, if_neg (ne_true_of_eq_false hbit)]
    rfl

/-- Settles O10: the step is an issue attempt, accepted or dropped; an accepted one draws its latency. -/
theorem issueIsAcceptedOrDropped : Obligations.IssueIsAcceptedOrDropped := by
  unfold Obligations.IssueIsAcceptedOrDropped
  intro s v hmoves hop
  have hstep := step_wr hmoves (by decide) hop
  rw [writeWord_cmd] at hstep
  rcases s.advanceHost.issue_cases (s.sourceValue v) with ⟨hbusy, hfault, haccept⟩ | ⟨hdrop, heq⟩
  · rw [State.advanceHost_status] at hbusy hfault
    refine ⟨fun h => by simp [hbusy, hfault] at h, fun _ _ => ⟨Config.latency s.draws, ?_⟩⟩
    rw [hstep, haccept, State.accept, State.advanceHost_status, Status.issued_of_not_fault hfault]
    rfl
  · rw [State.advanceHost_status] at hdrop
    refine ⟨fun _ => ?_, fun hbusy hfault => by simp [hbusy, hfault] at hdrop⟩
    rw [hstep, heq]
    rfl

end Sys2Proof.Machine
